-- ==== Sys2Proof/Word.lean ====
section
/-! DEFINITION. The word and byte types of CODEC8583 (spec/00_scope.md rules R6 and R7). -/

namespace Sys2Proof

/-- A byte: 8 bits, bit 7 most significant (R6). -/
abbrev Byte := BitVec 8

/-- The 32-bit word of the register port and of CMD (R28, R70). -/
abbrev Word := BitVec 32

/-- A byte string (R7). A text value is a byte string too: the block gives no meaning to a character set beyond the
classes of R8. -/
abbrev Bytes := List Byte

/-- The 8-byte block of the MAC unit's cipher: its key, its plaintext and its ciphertext (R221). -/
abbrev Block := Vector Byte 8

end Sys2Proof
end

