-- ==== Sys2Proof/Config.lean ====
section
/-! DEFINITION. What an implementation of CODEC8583 fixes from reset to reset: the field-definition table DEFS and the
parameters of spec/00_scope.md rule R4, with the data types the table and the message registers are made of
(spec/10_state.md rules R23 and R30), and the free values: constants with no body, of which nothing can be proved. -/

namespace Sys2Proof

/-- FieldKind (R74): how the length of a field is known. -/
inductive FieldKind where
  | fixed
  | var1
  | var2
  | var2Wide
deriving DecidableEq, Repr

/-- The four supported byte encodings (R75). The table stores an 8-bit code. Codes 4 to 255 mean an unsupported encoding
and name none of these. -/
inductive ByteEncoding where
  | ascii
  | binary
  | bcd
  | rbcd
deriving DecidableEq, Repr

mutual

/-- FieldDefinition (R30, R76). `sub_fields = None` is the constructor `scalar`, `sub_fields = Some(list)` the constructor
`composite`. Both carry `kind`, the 8-bit `encoding` code and `declared_length`. -/
inductive FieldDef where
  | scalar (kind : FieldKind) (enc : BitVec 8) (dl : Nat)
  | composite (kind : FieldKind) (enc : BitVec 8) (dl : Nat) (subs : SubDefs)
deriving DecidableEq, Repr

/-- The ordered list of sub-field definitions of a composite field, in wire order (R30). -/
inductive SubDefs where
  | nil
  | cons (d : FieldDef) (ds : SubDefs)
deriving DecidableEq, Repr

end

mutual

/-- FieldValue, the closed tagged type of R23. -/
inductive FieldValue where
  | scalar (s : Bytes)
  | composite (vs : FieldValues)
deriving DecidableEq, Repr

/-- The ordered sequence of FieldValue of a `Composite` (R23). -/
inductive FieldValues where
  | nil
  | cons (v : FieldValue) (vs : FieldValues)
deriving DecidableEq, Repr

end

/-- `VAR2_BYTE0` (R4, R122): how byte 0 of a `Var2` header is formed. -/
inductive Var2Byte0 where
  | sourceVerbatim
  | composed
deriving DecidableEq, Repr

/-- `LBCD_PAD` (R4, R101): where the pad digit of an odd-count left-packed string goes. -/
inductive LbcdPad where
  | trailing
  | leading
deriving DecidableEq, Repr

/-- The configuration record of R4. `NFIELDS` (128), `MTI_DIGITS` (4) and `MAC_HEX_UPPER` (1) are fixed by the spec and are
no fields; `BUS` has no effect on any rule (93_implementation_defined.md U13); the cipher `E` is a function and is the
constant `Config.E` below. `defs` lists the entries of DEFS that are not `None`, by ascending index. -/
structure Config where
  defs         : List (Nat × FieldDef)
  tpduDigits   : Nat
  headerDigits : Nat
  headerEn     : Bool
  lenPfxEn     : Bool
  bufCap       : Nat
  valCap       : Nat
  subDepth     : Nat
  var2Byte0    : Var2Byte0
  lbcdPad      : LbcdPad
  hasMac       : Bool
deriving DecidableEq, Repr

/-- The three byte-addressed spaces (R35, R50). -/
inductive BufferId where
  | ibuf
  | obuf
  | key
deriving DecidableEq, Repr

/-- FREE VALUE. The block cipher `E` of the MAC unit (R221): a total function of an 8-byte key and an 8-byte block of which
nothing is assumed. Log entry 3. -/
opaque Config.E : Block → Block → Block

/-- FREE VALUE. What a buffer byte that nothing has written since the last reset holds (R38: "unspecified";
93_implementation_defined.md U3: `any value`), by buffer, number of resets so far, and offset. Log entry 4. -/
opaque Config.powerOnByte : BufferId → Nat → Nat → Byte

/-- FREE VALUE. The word a register read returns while BUSY = 1 (R37, 93_implementation_defined.md U2: `any value`), by the
number of such reads so far. Log entry 5. -/
opaque Config.freeWord : Nat → Word

/-- FREE VALUE. The byte string a read of OBUF, TPDU or MTI returns while BUSY = 1 (R37, U2). Log entry 5. -/
opaque Config.freeBytes : Nat → Bytes

/-- FREE VALUE. What a read of HDR returns while BUSY = 1 (R37, U2). Log entry 5. -/
opaque Config.freeHeader : Nat → Option Bytes

/-- FREE VALUE. What a read of a field slot returns while BUSY = 1 (R37, U2). Log entry 5. -/
opaque Config.freeSlot : Nat → Option FieldValue

end Sys2Proof
end

