-- ==== Sys2Proof/Syntax.lean ====
section
/-! DEFINITION. The command set of CODEC8583 (spec/30_encoding.md rules R70 to R72): one constructor per row of
spec/opcode_table.json. An operand stands as the command word carries it, as plain unsigned bits (R70): the constraints
on `kind` and `i` are checked after the word has matched its row (R72, R73), so a word with a bad kind or index is still
that command's word, and it is the command that reports it. -/

namespace Sys2Proof

/-- The thirteen commands of R72. -/
inductive Instr where
  /-- PACK_LBCD, format Z, R102. -/
  | packLbcd
  /-- PACK_RBCD, format Z, R103. -/
  | packRbcd
  /-- UNPACK_L n, format N, R105. -/
  | unpackL (n : BitVec 16)
  /-- UNPACK_R n, format N, R106. -/
  | unpackR (n : BitVec 16)
  /-- ENC_LEN kind, L, format KL, R124. -/
  | encLen (kind : BitVec 8) (len : BitVec 16)
  /-- DEC_LEN kind, format K, R126. -/
  | decLen (kind : BitVec 8)
  /-- FIELD_ENC i, format I, R147. -/
  | fieldEnc (i : BitVec 8)
  /-- FIELD_DEC i, format I, R151. -/
  | fieldDec (i : BitVec 8)
  /-- BMP_BUILD, format Z, R172. -/
  | bmpBuild
  /-- BMP_PARSE, format Z, R174. -/
  | bmpParse
  /-- MSG_ENC, format Z, R193. -/
  | msgEnc
  /-- MSG_DEC, format Z, R195. -/
  | msgDec
  /-- MAC, format Z, R223. -/
  | mac
deriving DecidableEq, Repr

end Sys2Proof
end

