-- ==== Sys2Proof/WellFormed.lean ====
section
/-! DEFINITION. The operand constraints of the last column of spec/30_encoding.md rule R72, which a legal command meets. -/

namespace Sys2Proof

/-- A kind operand is a code 1 to 3 (R71 formats KL and K): code 0 would be `Fixed`, which has no header. -/
abbrev kindOperandLegal (kind : BitVec 8) : Bool := 1 ≤ kind.toNat && kind.toNat ≤ 3

/-- An index operand is a field index 2 to 128 (R71 format I): index 1 is reserved. -/
abbrev indexOperandLegal (i : BitVec 8) : Bool := 2 ≤ i.toNat && i.toNat ≤ 128

/-- The command meets its row's operand constraint (R72). `HAS_MAC = 1` is a constraint on the block, not on the word, and
is tested by the MAC command itself (R73 test 5). -/
def Instr.wellFormed : Instr → Bool
  | .packLbcd      => true
  | .packRbcd      => true
  | .unpackL _     => true
  | .unpackR _     => true
  | .encLen kind _ => kindOperandLegal kind
  | .decLen kind   => kindOperandLegal kind
  | .fieldEnc i    => indexOperandLegal i
  | .fieldDec i    => indexOperandLegal i
  | .bmpBuild      => true
  | .bmpParse      => true
  | .msgEnc        => true
  | .msgDec        => true
  | .mac           => true

end Sys2Proof
end

