-- ==== Sys2Proof/Decode.lean ====
section
/-! DEFINITION. Decoding the command word, total on all 2^32 words and rejecting by name, and the encoder, both written from
the tables of spec/30_encoding.md rules R70 to R73. -/

namespace Sys2Proof

/-- Why a word spells no command: the first two tests of R73, in its order. -/
inductive DecodeError where
  /-- `OP` is not one of the thirteen (cause 1). -/
  | unknownOpcode
  /-- An operand field the format says must be 0 is not 0 (cause 2). -/
  | reservedBits
deriving DecidableEq, Repr

/-- Bits [7:0] of the command word, `OP` (R70). -/
def wordOp (w : Word) : BitVec 8 := w.extractLsb' 0 8

/-- Bits [15:8] of the command word, `A` (R70). -/
def wordA (w : Word) : BitVec 8 := w.extractLsb' 8 8

/-- Bits [31:16] of the command word, `B` (R70). -/
def wordB (w : Word) : BitVec 16 := w.extractLsb' 16 16

/-- Format Z (R71): `A` and `B` must be 0. -/
def decodeZ (i : Instr) (a : BitVec 8) (b : BitVec 16) : Except DecodeError Instr :=
  if a = 0 ∧ b = 0 then .ok i else .error .reservedBits

/-- Format N (R71): `A` must be 0, `B` is the digit count. -/
def decodeN (mk : BitVec 16 → Instr) (a : BitVec 8) (b : BitVec 16) : Except DecodeError Instr :=
  if a = 0 then .ok (mk b) else .error .reservedBits

/-- Format KL (R71): `A` is the kind code, `B` the length. -/
def decodeKL (mk : BitVec 8 → BitVec 16 → Instr) (a : BitVec 8) (b : BitVec 16) : Except DecodeError Instr :=
  .ok (mk a b)

/-- Formats K and I (R71): `B` must be 0, `A` is the kind code or the field index. -/
def decodeA (mk : BitVec 8 → Instr) (a : BitVec 8) (b : BitVec 16) : Except DecodeError Instr :=
  if b = 0 then .ok (mk a) else .error .reservedBits

/-- The command a word spells (R72), or the first of the first two tests of R73 that it fails. An operand is tested by the
command (DEDUCED, log entry 10). -/
def decode (w : Word) : Except DecodeError Instr :=
  match (wordOp w).toNat with
  | 0x01 => decodeZ .packLbcd (wordA w) (wordB w)
  | 0x02 => decodeZ .packRbcd (wordA w) (wordB w)
  | 0x03 => decodeN .unpackL (wordA w) (wordB w)
  | 0x04 => decodeN .unpackR (wordA w) (wordB w)
  | 0x10 => decodeKL .encLen (wordA w) (wordB w)
  | 0x11 => decodeA .decLen (wordA w) (wordB w)
  | 0x20 => decodeA .fieldEnc (wordA w) (wordB w)
  | 0x21 => decodeA .fieldDec (wordA w) (wordB w)
  | 0x30 => decodeZ .bmpBuild (wordA w) (wordB w)
  | 0x31 => decodeZ .bmpParse (wordA w) (wordB w)
  | 0x40 => decodeZ .msgEnc (wordA w) (wordB w)
  | 0x41 => decodeZ .msgDec (wordA w) (wordB w)
  | 0x50 => decodeZ .mac (wordA w) (wordB w)
  | _    => .error .unknownOpcode

/-- A command word from its three fields (R70): `B` above `A` above `OP`. -/
def packWord (b : BitVec 16) (a : BitVec 8) (op : BitVec 8) : Word := b ++ a ++ op

/-- The word of a command (R72; the "Encoding" line of each command's rule). -/
def encode : Instr → Word
  | .packLbcd        => packWord 0 0 0x01
  | .packRbcd        => packWord 0 0 0x02
  | .unpackL n       => packWord n 0 0x03
  | .unpackR n       => packWord n 0 0x04
  | .encLen kind len => packWord len kind 0x10
  | .decLen kind     => packWord 0 kind 0x11
  | .fieldEnc i      => packWord 0 i 0x20
  | .fieldDec i      => packWord 0 i 0x21
  | .bmpBuild        => packWord 0 0 0x30
  | .bmpParse        => packWord 0 0 0x31
  | .msgEnc          => packWord 0 0 0x40
  | .msgDec          => packWord 0 0 0x41
  | .mac             => packWord 0 0 0x50

/-- The `match` column of R72 for the row a command belongs to. -/
def Instr.rowMatch : Instr → Word
  | .packLbcd   => 0x00000001
  | .packRbcd   => 0x00000002
  | .unpackL _  => 0x00000003
  | .unpackR _  => 0x00000004
  | .encLen _ _ => 0x00000010
  | .decLen _   => 0x00000011
  | .fieldEnc _ => 0x00000020
  | .fieldDec _ => 0x00000021
  | .bmpBuild   => 0x00000030
  | .bmpParse   => 0x00000031
  | .msgEnc     => 0x00000040
  | .msgDec     => 0x00000041
  | .mac        => 0x00000050

/-- The `mask` column of R72 for the row a command belongs to. -/
def Instr.rowMask : Instr → Word
  | .packLbcd   => 0xFFFFFFFF
  | .packRbcd   => 0xFFFFFFFF
  | .unpackL _  => 0x0000FFFF
  | .unpackR _  => 0x0000FFFF
  | .encLen _ _ => 0x000000FF
  | .decLen _   => 0xFFFF00FF
  | .fieldEnc _ => 0xFFFF00FF
  | .fieldDec _ => 0xFFFF00FF
  | .bmpBuild   => 0xFFFFFFFF
  | .bmpParse   => 0xFFFFFFFF
  | .msgEnc     => 0xFFFFFFFF
  | .msgDec     => 0xFFFFFFFF
  | .mac        => 0xFFFFFFFF

/-- The command the decoder reads from a table word: the low `nbits` bits of `w`, every bit above them 0. A command is one
32-bit word (R70), so a value that does not fit one spells none. -/
def decodeTableWord (nbits w : Nat) : Option Instr :=
  let v := w % 2 ^ nbits
  if v < 2 ^ 32 then
    match decode (BitVec.ofNat 32 v) with
    | .ok i => some i
    | .error _ => none
  else none

end Sys2Proof
end

