-- ==== Sys2Proof/Machine/Codes.lean ====
section
/-! DEFINITION. Nibbles, character classes, and the codes and sizes of kinds and encodings: spec/00_scope.md rules R5, R6
and R8, spec/30_encoding.md rules R74 and R75, spec/41_length_prefix.md rule R120. -/

namespace Sys2Proof.Machine

/-- `NFIELDS` (R4): the highest field index. -/
def nFields : Nat := 128

/-- `MTI_DIGITS` (R4). -/
def mtiDigits : Nat := 4

/-- `ceil2(n) = (n + 1) / 2` (R5): the bytes that hold `n` nibbles. -/
def ceil2 (n : Nat) : Nat := (n + 1) / 2

/-- The high nibble `b[7:4]` (R6). -/
def hi (b : Byte) : Nat := b.toNat / 16

/-- The low nibble `b[3:0]` (R6). -/
def lo (b : Byte) : Nat := b.toNat % 16

/-- The byte `(h << 4) | l` of two nibbles (R6). -/
def nibbles (h l : Nat) : Byte := (BitVec.ofNat 8 h <<< 4) ||| BitVec.ofNat 8 l

/-- The nibbles of a byte string in order, high nibble first (R104, R51). -/
def nibblesOf : Bytes → List Nat
  | [] => []
  | b :: bs => hi b :: lo b :: nibblesOf bs

/-- `isdigit(c)` (R8). -/
def isDigit (c : Byte) : Bool := 0x30 ≤ c.toNat && c.toNat ≤ 0x39

/-- `dval(c) = c - 0x30` for a digit (R8). -/
def dval (c : Byte) : Nat := c.toNat - 0x30

/-- `dchr(v) = 0x30 + v` for `0 <= v <= 9` (R8). -/
def dchr (v : Nat) : Byte := BitVec.ofNat 8 (0x30 + v)

/-- An all-decimal string (R8). -/
def allDigits (s : Bytes) : Bool := s.all isDigit

/-- `ishex(c)` (R8). -/
def isHex (c : Byte) : Bool :=
  isDigit c || (0x41 ≤ c.toNat && c.toNat ≤ 0x46) || (0x61 ≤ c.toNat && c.toNat ≤ 0x66)

/-- `hval(c)` (R8), its three cases. -/
def hval (c : Byte) : Nat :=
  if isDigit c then dval c
  else if c.toNat ≤ 0x46 then c.toNat - 0x41 + 10
  else c.toNat - 0x61 + 10

/-- `hexU(v)` for `0 <= v <= 15` (R8): the character at place `v` of `0123456789ABCDEF`. `MAC_HEX_UPPER = 1` (R4) is this
one case of letters. -/
def hexU (v : Nat) : Byte := if v < 10 then dchr v else BitVec.ofNat 8 (0x41 + (v - 10))

/-- `hexenc(bs)` (R8). -/
def hexenc : Bytes → Bytes
  | [] => []
  | b :: bs => hexU (hi b) :: hexU (lo b) :: hexenc bs

/-- The bytes `(hval(s[2k]) << 4) | hval(s[2k+1])` of a hex text of even length (R142). -/
def hexdec : Bytes → Bytes
  | a :: b :: rest => nibbles (hval a) (hval b) :: hexdec rest
  | _ => []

/-- The number of a FieldKind (R74). -/
def kindCode : FieldKind → Nat
  | .fixed => 0
  | .var1 => 1
  | .var2 => 2
  | .var2Wide => 3

/-- `hdr_size(kind)` (R74, R120). -/
def hdrSize : FieldKind → Nat
  | .fixed => 0
  | .var1 => 1
  | .var2 => 2
  | .var2Wide => 2

/-- `LEN_MAX(kind)` (R74, R120). `Fixed` has no header, so the spec gives it none; R31 (b) bounds a `Fixed` length by 9999,
and that is what stands here for it (DEDUCED, log entry 19). -/
def lenMax : FieldKind → Nat
  | .fixed => 9999
  | .var1 => 99
  | .var2 => 999
  | .var2Wide => 9999

/-- The ByteEncoding of a stored code (R75); codes 4 to 255 are unsupported. -/
def encodingOf? (code : BitVec 8) : Option ByteEncoding :=
  match code.toNat with
  | 0 => some .ascii
  | 1 => some .binary
  | 2 => some .bcd
  | 3 => some .rbcd
  | _ => none

/-- `body_size(L, enc)` (R75). -/
def bodySize (len : Nat) : ByteEncoding → Nat
  | .ascii => len
  | .binary => len
  | .bcd => ceil2 len
  | .rbcd => ceil2 len

/-- `kind` of a FieldDefinition (R30). -/
def defKind : FieldDef → FieldKind
  | .scalar k _ _ => k
  | .composite k _ _ _ => k

/-- `encoding` of a FieldDefinition, the stored code (R30). -/
def defEnc : FieldDef → BitVec 8
  | .scalar _ e _ => e
  | .composite _ e _ _ => e

/-- `declared_length` of a FieldDefinition (R30). -/
def defLen : FieldDef → Nat
  | .scalar _ _ dl => dl
  | .composite _ _ dl _ => dl

/-- `len(subs)`: how many sub-fields a composite definition has. -/
def subCount : SubDefs → Nat
  | .nil => 0
  | .cons _ ds => subCount ds + 1

/-- `len(vs)`: how many children a composite value has. -/
def valueCount : FieldValues → Nat
  | .nil => 0
  | .cons _ vs => valueCount vs + 1

end Sys2Proof.Machine
end

