-- ==== Sys2Proof/Machine/Table.lean ====
section
/-! DEFINITION. Reading the field-definition table and what makes a configuration one the spec speaks of:
spec/10_state.md rules R30 and R31, spec/00_scope.md rule R4; and the spec's own example configuration EX1
(spec/95_test_vectors.md section 0). -/

namespace Sys2Proof.Machine

/-- `DEFS[i]` (R10, R30): `none` when index `i` has no entry. The table stands as the list of its entries
(DEDUCED, log entry 21). -/
def lookupDef : List (Nat × FieldDef) → Nat → Option FieldDef
  | [], _ => none
  | (j, d) :: rest, i => if i = j then some d else lookupDef rest i

/-- `size(d) = body_size(d.declared_length, d.encoding)` (R31 (e)); no size for an unsupported code. -/
def defSize? (d : FieldDef) : Option Nat := (encodingOf? (defEnc d)).map (bodySize (defLen d))

/-- `size(s1) + ... + size(sn)` (R31 (e)). -/
def subsSize? : SubDefs → Option Nat
  | .nil => some 0
  | .cons d ds =>
    match defSize? d, subsSize? ds with
    | some n, some m => some (n + m)
    | _, _ => none

/-- R31 (d) and (e) for a composite definition: it counts in bytes, and its sub-fields fill its declared length (`Fixed`)
or fit within it (variable). -/
def compositeFits (kind : FieldKind) (enc : BitVec 8) (dl : Nat) (subs : SubDefs) : Bool :=
  enc.toNat ≤ 1 &&
    match subsSize? subs with
    | none => false
    | some n => if kind = .fixed then n = dl else n ≤ dl

mutual

/-- R31 (b) to (e) for one definition, with at most `depth` levels of sub-fields below it. -/
def defWf : Nat → FieldDef → Bool
  | _, .scalar kind _ dl => dl ≤ lenMax kind
  | 0, .composite _ _ _ _ => false
  | depth + 1, .composite kind enc dl subs =>
    dl ≤ lenMax kind && compositeFits kind enc dl subs && subsWf depth subs

/-- R31 (c) for the sub-fields at every depth: `Fixed`, a supported code, and well-formed themselves. -/
def subsWf : Nat → SubDefs → Bool
  | _, .nil => true
  | depth, .cons d ds =>
    defKind d = .fixed && (defEnc d).toNat ≤ 3 && defWf depth d && subsWf depth ds

end

/-- R31 (f): the header and the body of an entry with a supported code fit the buffers. -/
def entryFits (bufCap : Nat) (d : FieldDef) : Bool :=
  match defSize? d with
  | none => true
  | some n => hdrSize (defKind d) + n ≤ bufCap

/-- R31 (a) to (f) for the entries of DEFS listed by strictly ascending index, each index above `last`. -/
def defsWf (bufCap subDepth : Nat) : Nat → List (Nat × FieldDef) → Bool
  | _, [] => true
  | last, (i, d) :: rest =>
    last < i && i ≤ nFields && defWf subDepth d && entryFits bufCap d && defsWf bufCap subDepth i rest

/-- A digit count that R4 allows for TPDU and protocol header: even and above 0. -/
def evenWidth (n : Nat) : Bool := 0 < n && n % 2 = 0

/-- The configuration is one the spec speaks of: R4's conditions on the parameters and R31's on DEFS (entries at 2 to 128
only). That `BUF_CAP` and `VAL_CAP` fit 32 bits is DEDUCED from the widths of ILEN, OLEN, CONSUMED and ERRACT (R28) and
from R9 ("Nothing wraps around"); log entry 6. -/
def configWf (c : Config) : Bool :=
  evenWidth c.tpduDigits && evenWidth c.headerDigits &&
  18 + (c.tpduDigits + c.headerDigits) / 2 ≤ c.bufCap && c.bufCap < 2 ^ 32 &&
  32 ≤ c.valCap && c.valCap < 2 ^ 32 && 1 ≤ c.subDepth &&
  defsWf c.bufCap c.subDepth 1 c.defs

/-- The three sub-fields of entry 60 of EX1. -/
def ex1Sub60 : SubDefs :=
  .cons (.scalar .fixed 2 2) (.cons (.scalar .fixed 2 6) (.cons (.scalar .fixed 2 3) .nil))

/-- The table DEFS of EX1 (95_test_vectors.md section 0). -/
def ex1Defs : List (Nat × FieldDef) :=
  [(2, .scalar .var1 2 19), (3, .scalar .fixed 2 6), (4, .scalar .fixed 2 12), (7, .scalar .fixed 9 4),
   (11, .scalar .fixed 2 6), (22, .scalar .fixed 3 3), (35, .scalar .var1 3 37), (41, .scalar .fixed 0 8)] ++
  [(42, .scalar .fixed 0 15), (44, .scalar .var1 0 25), (52, .scalar .fixed 1 8), (60, .composite .var2Wide 1 17 ex1Sub60),
   (62, .scalar .var2 0 512), (64, .scalar .fixed 1 8), (70, .scalar .fixed 2 3)]

/-- EX1, the spec's example configuration (95_test_vectors.md section 0), with `HEADER_EN` and `LENPFX_EN` at their default
0 there. DESIGN CHOICE: it is the configuration of `State.reset`; log entry 1. -/
def ex1 : Config where
  defs := ex1Defs
  tpduDigits := 10
  headerDigits := 12
  headerEn := false
  lenPfxEn := false
  bufCap := 2048
  valCap := 1024
  subDepth := 1
  var2Byte0 := .sourceVerbatim
  lbcdPad := .trailing
  hasMac := true

end Sys2Proof.Machine
end

