-- ==== Sys2Proof/Machine/State.lean ====
section
/-! DEFINITION. The state of CODEC8583 as plain data (spec/10_state.md rules R20 to R35), its reset values (R38), the reasons
a step can stop, and the model's own fields: the configuration that never changes, the schedule of what acts next, the
data last returned on the port, and the counters that free values are applied to. -/

namespace Sys2Proof.Machine

/-- The 128 field slots, `F[i]` at place `i - 1`; `none` is `Empty` (R24). -/
abbrev Slots := Vector (Option FieldValue) 128

/-- A byte-addressed buffer (R50): the bytes written since reset, by strictly rising offset. An offset that is not listed
holds no value of the model's: what it reads as is a free value (log entry 4). -/
abbrev Memory := List Host.Cell

/-- The message register file MSG (R20, R21, R22, R24). -/
structure Message where
  tpdu  : Bytes
  hdr   : Option Bytes
  mti   : Bytes
  sec   : Bool
  slots : Slots
deriving DecidableEq, Repr

/-- The error codes of R240 other than 0. -/
inductive ErrCode where
  | invalidTpdu
  | invalidHeader
  | invalidMti
  | valueTooLong
  | badBcdDigit
  | parseLengthFailed
  | truncatedMessage
  | undefinedField
  | invalidEncoder
  | invalidHex
  | invalidKeyLength
  | internalCodecError
  | illegalCommand
deriving DecidableEq, Repr

/-- The sub-causes of ERRCAUSE (the list after R253). -/
inductive ErrCause where
  | none
  | unknownOpcode
  | reservedBits
  | badKind
  | badIndex
  | emptySlot
  | lengthMismatch
  | shapeMismatch
  | capacity
  | prefixOverflow
  | macAbsent
deriving DecidableEq, Repr

/-- `raise E(field, declared, actual, cause)` (R10): omitted arguments are 0. -/
structure CmdError where
  code     : ErrCode
  field    : Nat := 0
  declared : Nat := 0
  actual   : Nat := 0
  cause    : ErrCause := .none
deriving DecidableEq, Repr

/-- The host moves of R37. -/
inductive HostMove where
  | writeIBUF (bs : Bytes)
  | readOBUF
  | writeKEY (bs : Bytes)
  | setTPDU (s : Bytes)
  | setMTI (s : Bytes)
  | setHDR (o : Option Bytes)
  | setField (i : Nat) (x : Option FieldValue)
  | getField (i : Nat)
  | getTPDU
  | getHDR
  | getMTI
  | clearMsg
  | writeReg (n : Nat) (v : Word)
  | readReg (n : Nat)
  | writeCMD (w : Word)
deriving DecidableEq, Repr

/-- Who acts next (R39, R280): the host makes a move, the block performs the completion step of the command it runs, or the
reset is applied and released. -/
inductive Event where
  | host (m : HostMove)
  | block
  | reset
deriving DecidableEq, Repr

/-- The data a reading move returned last on the port (R37). -/
inductive Reply where
  | none
  | word (v : Word)
  | bytes (bs : Bytes)
  | header (o : Option Bytes)
  | slot (x : Option FieldValue)
deriving DecidableEq, Repr

/-- The state of the block. Every field but the last five is a piece of state of R20. `cfg` is the configuration of R4,
which no step changes (log entry 1). `pending` is the schedule of the outside world and the block, `reply` what the host
last read (log entry 2). `freeReads` and `resets` count what the free values are applied to (log entries 4 and 5). -/
structure State where
  msg       : Message
  pres      : BitVec 128
  ibuf      : Memory
  obuf      : Memory
  key       : Memory
  ilen      : BitVec 32
  olen      : BitVec 32
  klen      : BitVec 8
  cmd       : Word
  busy      : Bool
  done      : Bool
  errf      : Bool
  proto     : Bool
  err       : BitVec 8
  errField  : BitVec 8
  errDecl   : BitVec 16
  errAct    : BitVec 32
  errCause  : BitVec 8
  res       : BitVec 16
  consumed  : BitVec 32
  cfg       : Config
  pending   : List Event
  reply     : Reply
  freeReads : Nat
  resets    : Nat
deriving DecidableEq, Repr

/-- The block never stops with a fault: every command completes (R39), and no condition makes it hang (R197). This type has
no constructor. -/
inductive Fault where
deriving DecidableEq, Repr

/-- The reasons the model refuses to say what happens. -/
inductive Refusal where
  /-- Raised by an arm of `exec` whose instruction has no meaning yet (none is left). Safe: nothing is claimed. -/
  | notModelled (mnemonic : String)
  /-- Raised by `step` when the configuration breaks R4 or R31: "A block configured with a table that is not well-formed is
  outside this spec: treat as `refuse`" (R31, 93_implementation_defined.md U1). Safe: nothing is claimed. -/
  | configurationOutsideSpec
deriving DecidableEq, Repr

/-- The outcome of a step of this machine. -/
abbrev Outcome := Host.Outcome State Fault Refusal

/-- The empty message register file (R38; `HostClearMsg` in R37). -/
def Message.empty : Message where
  tpdu := []
  hdr := none
  mti := []
  sec := false
  slots := Vector.replicate 128 none

/-- The state after reset of a block with configuration `c` (R38, R280): the block is IDLE, every register 0, the message
empty. No buffer byte is listed, since their contents are unspecified. -/
def State.resetWith (c : Config) : State where
  msg := Message.empty
  pres := 0
  ibuf := []
  obuf := []
  key := []
  ilen := 0
  olen := 0
  klen := 0
  cmd := 0
  busy := false
  done := false
  errf := false
  proto := false
  err := 0
  errField := 0
  errDecl := 0
  errAct := 0
  errCause := 0
  res := 0
  consumed := 0
  cfg := c
  pending := []
  reply := .none
  freeReads := 0
  resets := 0

/-- The machine right after reset (R38), of a block configured with the spec's example EX1 (log entry 1). -/
def State.reset : State := State.resetWith ex1

end Sys2Proof.Machine
end

