-- ==== Sys2Proof/Machine/Flags.lean ====
section
/-! DEFINITION. The numbers of error codes and causes (spec/60_exceptions.md rule R240 and the list after R253) and the
STATUS register (spec/10_state.md rules R27 and R29). The block has no arithmetic condition codes (R27). -/

namespace Sys2Proof.Machine

/-- The value of ERR for an error (R240). -/
def errNumber : ErrCode → BitVec 8
  | .invalidTpdu => 1
  | .invalidHeader => 2
  | .invalidMti => 3
  | .valueTooLong => 4
  | .badBcdDigit => 5
  | .parseLengthFailed => 6
  | .truncatedMessage => 7
  | .undefinedField => 8
  | .invalidEncoder => 9
  | .invalidHex => 10
  | .invalidKeyLength => 11
  | .internalCodecError => 12
  | .illegalCommand => 13

/-- The value of ERRCAUSE for a cause (R252, R253). -/
def causeNumber : ErrCause → BitVec 8
  | .none => 0
  | .unknownOpcode => 1
  | .reservedBits => 2
  | .badKind => 3
  | .badIndex => 4
  | .emptySlot => 5
  | .lengthMismatch => 6
  | .shapeMismatch => 7
  | .capacity => 8
  | .prefixOverflow => 9
  | .macAbsent => 10

/-- STATUS as the host reads it (R29): bit 0 BUSY, bit 1 DONE, bit 2 ERRF, bit 3 PROTO, bits [7:4] read 0. -/
def statusByte (s : State) : BitVec 8 :=
  0#4 ++ BitVec.ofBool s.proto ++ BitVec.ofBool s.errf ++ BitVec.ofBool s.done ++ BitVec.ofBool s.busy

/-- A dropped access sets the sticky PROTO bit and changes nothing else (R29, R262). -/
def setProto (s : State) : State := { s with proto := true }

end Sys2Proof.Machine
end

