-- ==== Sys2Proof/Machine/Operands.lean ====
section
/-! DEFINITION. The operand forms of spec/30_encoding.md rules R71 and R73: a digit count or a length in `B`, a kind code or a
field index in `A`, and the tests R73 makes of the last two after the word has matched. -/

namespace Sys2Proof.Machine

/-- A kind operand (R71 formats KL and K; R73 test 3): the variable kind of code 1 to 3, else IllegalCommand cause BadKind. -/
def kindOperand (kind : BitVec 8) : Except CmdError FieldKind :=
  match kind.toNat with
  | 1 => .ok .var1
  | 2 => .ok .var2
  | 3 => .ok .var2Wide
  | _ => .error { code := .illegalCommand, cause := .badKind }

/-- The error of an illegal index (R73 test 4, R253). ERRFIELD is 0 (R240: "index for EmptySlot, else 0"); the `i` that R147 and
R151 put there is an operand in 2 to 128, which this word does not have (DEDUCED, log entry 7). -/
def badIndexError : CmdError := { code := .illegalCommand, cause := .badIndex }

/-- An index operand (R71 format I; R73 test 4): a field index 2 to 128, else IllegalCommand cause BadIndex. -/
def indexOperand (i : BitVec 8) : Except CmdError Nat :=
  if indexOperandLegal i then .ok i.toNat else .error badIndexError

/-- A count operand (R71 formats N and KL): any value 0 to 65535. -/
def countOperand (n : BitVec 16) : Nat := n.toNat

end Sys2Proof.Machine
end

