-- ==== Sys2Proof/Machine/Ops.lean ====
section
/-! DEFINITION. The named operations every command and host move is made of: bytes of a buffer, field slots, PRES, emitting
output, starting a command, completing it, and raising an error (spec/10_state.md rule R39, spec/20_memory.md rules R52
and R53, spec/60_exceptions.md rule R256). -/

namespace Sys2Proof.Machine

/-! ## Buffers (R50 to R55) -/

/-- The byte a buffer lists at offset `a`; `none` where nothing has been written since reset. -/
def Memory.get? : Memory → Nat → Option Byte
  | [], _ => none
  | (k, b) :: rest, a => if a = k then some b else if a < k then none else Memory.get? rest a

/-- Stores one byte, keeping the offsets strictly rising. -/
def Memory.set : Memory → Nat → Byte → Memory
  | [], a, b => [(a, b)]
  | (k, c) :: rest, a, b =>
    if a < k then (a, b) :: (k, c) :: rest
    else if a = k then (a, b) :: rest
    else (k, c) :: Memory.set rest a b

/-- Stores a byte string at offsets `a`, `a + 1`, ... in ascending order (R55). -/
def Memory.write : Memory → Nat → Bytes → Memory
  | m, _, [] => m
  | m, a, b :: bs => Memory.write (Memory.set m a b) (a + 1) bs

/-- The canonical form: offsets strictly rising. An offset that is not listed reads as no value of the model's, so no entry
can equal it. -/
def Memory.wf : Memory → Bool
  | [] => true
  | [_] => true
  | x :: y :: rest => x.1 < y.1 && Memory.wf (y :: rest)

/-- Every listed offset lies within a buffer of `cap` bytes (R50). -/
def Memory.within (cap : Nat) (m : Memory) : Bool := m.all fun c => c.1 < cap

/-- The buffer of a name. -/
def buffer (s : State) : BufferId → Memory
  | .ibuf => s.ibuf
  | .obuf => s.obuf
  | .key => s.key

/-- The byte at offset `a` of a buffer: the byte written there since reset, else a free value (R38, U3; log entry 4). That a
byte of IBUF or KEY beyond the length of a later, shorter write is still the one written, where U3 says `any value`, is
DESIGN CHOICE; log entry 22. -/
def bufferByte (s : State) (id : BufferId) (a : Nat) : Byte :=
  ((buffer s id).get? a).getD (Config.powerOnByte id s.resets a)

/-- The `n` bytes of a buffer from offset `a`, in ascending order. -/
def bufferBytes (s : State) (id : BufferId) (a n : Nat) : Bytes :=
  (List.range n).map fun k => bufferByte s id (a + k)

/-- `MemRead(0, ILEN)` (R52): the whole valid input. Every slice a rule takes of it is a `MemRead`. -/
def input (s : State) : Bytes := bufferBytes s .ibuf 0 s.ilen.toNat

/-- `KEY[0..KLEN)` (R223). -/
def keyBytes (s : State) : Bytes := bufferBytes s .key 0 s.klen.toNat

/-- `OBUF[0..OLEN)` (R53): the valid output, all that HostReadOBUF offers (DEDUCED, log entry 18). -/
def output (s : State) : Bytes := bufferBytes s .obuf 0 s.olen.toNat

/-- `MemWrite(a, n, v)` (R53), `n` the length of `v`. -/
def memWrite (s : State) (a : Nat) (v : Bytes) : State := { s with obuf := s.obuf.write a v }

/-- `InternalCodecError` with cause Capacity (R252). -/
def capacityError (field : Nat) : CmdError :=
  { code := .internalCodecError, field := field, cause := .capacity }

/-- `emit(v)` (R10): appends `v` to OBUF at OLEN, or raises Capacity when it would pass `BUF_CAP`. `field` is the index an
error belongs to (R240; DEDUCED, log entry 17). -/
def emit (field : Nat) (v : Bytes) (s : State) : Except CmdError State :=
  if s.olen.toNat + v.length > s.cfg.bufCap then .error (capacityError field)
  else .ok { memWrite s s.olen.toNat v with olen := BitVec.ofNat 32 (s.olen.toNat + v.length) }

/-! ## Message registers (R21 to R25) -/

/-- `F[i]`: slot 1 is hardwired to Empty (R24), and there is no slot outside 1 to 128 (log entry 13). -/
def Slots.get (g : Slots) (i : Nat) : Option FieldValue :=
  if h : 2 ≤ i ∧ i ≤ 128 then g[i - 1] else none

/-- `F[i] <- x` for an index 2 to 128. Slot 1 is never written (R24). -/
def Slots.put (g : Slots) (i : Nat) (x : Option FieldValue) : Slots :=
  if h : 2 ≤ i ∧ i ≤ 128 then g.set (i - 1) x else g

/-- `F[i]` of the message register file. -/
def fieldSlot (s : State) (i : Nat) : Option FieldValue := s.msg.slots.get i

/-- `F[i] <- x`. -/
def setFieldSlot (i : Nat) (x : Option FieldValue) (s : State) : State :=
  { s with msg := { s.msg with slots := s.msg.slots.put i x } }

/-- The message register file cleared: TPDU and MTI `[]`, HDR None, SEC 0, every slot Empty (R37, R256). -/
def clearMessage (s : State) : State := { s with msg := Message.empty }

/-- The indices 2 to 128 in ascending order (R196). -/
def fieldIndices : List Nat := List.range' 2 127

/-- `{ i in 2..128 | F[i] != Empty }`, ascending (R192). -/
def populated (g : Slots) : List Nat := fieldIndices.filter fun i => (g.get i).isSome

mutual

/-- A value within `VAL_CAP` bytes a scalar and `depth` levels of composites (R21, R23, R37). How depth is counted is
DEDUCED; log entry 12. -/
def valueFits (valCap : Nat) : Nat → FieldValue → Bool
  | _, .scalar s => s.length ≤ valCap
  | 0, .composite _ => false
  | depth + 1, .composite vs => valuesFit valCap depth vs

/-- Every child of a composite fits. -/
def valuesFit (valCap : Nat) : Nat → FieldValues → Bool
  | _, .nil => true
  | depth, .cons v vs => valueFits valCap depth v && valuesFit valCap depth vs

end

/-- What a slot may hold: Empty, or a FieldValue within `VAL_CAP` and `SUB_DEPTH` (R23, R37). -/
def slotFits (c : Config) : Option FieldValue → Bool
  | none => true
  | some v => valueFits c.valCap c.subDepth v

/-! ## PRES (R32) -/

/-- The place of `PRES[i]`: index 1 is the most significant bit of PRES0. -/
def presMask (i : Nat) : BitVec 128 := 1#128 <<< (128 - i)

/-- `PRES[i]`, for 1 to 128. -/
def presBit (p : BitVec 128) (i : Nat) : Bool := p.getLsbD (128 - i)

/-- `{ i in 2..128 | PRES[i] = 1 }`, ascending (R172). -/
def presIndices (p : BitVec 128) : List Nat := fieldIndices.filter (presBit p)

/-- `for i in 1..128: PRES[i] <- (i in indices)` (R174). -/
def presOf (indices : List Nat) : BitVec 128 := indices.foldl (fun p i => p ||| presMask i) 0

/-- Word `PRESk`, k = 0 to 3 (R32): the indices `32k + 1` to `32k + 32`. -/
def presWord (p : BitVec 128) (k : Nat) : Word := p.extractLsb' (96 - 32 * k) 32

/-- `PRESk <- v`. -/
def setPresWord (p : BitVec 128) (k : Nat) (v : Word) : BitVec 128 :=
  (p &&& ~~~((0xFFFFFFFF#128) <<< (96 - 32 * k))) ||| (v.setWidth 128 <<< (96 - 32 * k))

/-- SEC 0 and PRES all 0: the destination of BMP_PARSE invalidated (R256). -/
def clearBitmapRegs (s : State) : State := { s with msg := { s.msg with sec := false }, pres := 0 }

/-! ## The life cycle of a command (R39, R70, R256) -/

/-- OLEN, RES, CONSUMED and the error registers 0: what starting any command first does (R39, R70). -/
def clearResults (s : State) : State :=
  { s with olen := 0, res := 0, consumed := 0, err := 0, errField := 0, errDecl := 0, errAct := 0, errCause := 0 }

/-- `HostWriteCMD(w)` in IDLE (R39): CMD <- w, BUSY <- 1, DONE and ERRF <- 0, results and error registers 0. -/
def startCommand (w : Word) (s : State) : State :=
  { clearResults s with cmd := w, busy := true, done := false, errf := false }

/-- The end of a completion step (R39): BUSY <- 0, DONE <- 1, ERRF <- (ERR != 0). -/
def finish (s : State) : State := { s with busy := false, done := true, errf := s.err != 0 }

/-- `raise E(field, declared, actual, cause)` (R256), TAKING AN ERROR as the one shared operation: the error registers
written, OLEN, RES and CONSUMED 0, BUSY 0, DONE 1, ERRF 1. Nothing is saved and no control goes anywhere. -/
def raiseError (e : CmdError) (s : State) : State :=
  { s with
    err := errNumber e.code, errField := BitVec.ofNat 8 e.field, errDecl := BitVec.ofNat 16 e.declared,
    errAct := BitVec.ofNat 32 e.actual, errCause := causeNumber e.cause,
    olen := 0, res := 0, consumed := 0, busy := false, done := true, errf := true }

/-- The destination of a command invalidated by an error, except for IllegalCommand, which clears nothing (R253, R256). -/
def invalidated (invalidate : State → State) (e : CmdError) (s : State) : State :=
  if e.code = .illegalCommand then s else invalidate s

/-- One command from its start to its completion (R39, R70, R256): the result registers cleared, then either all the writes
of its rule and the end of the completion step, or the error it raised with its destination invalidated. Every command
ends in a next state. -/
def runCommand (invalidate : State → State) (body : State → Except CmdError State) (s : State) : Outcome :=
  match body (clearResults s) with
  | .ok t => .next (finish t)
  | .error e => .next (raiseError e (invalidated invalidate e (clearResults s)))

/-- A command whose only destination is OBUF (OLEN 0 invalidates it) or the result registers (R256). -/
def runOutput (body : State → Except CmdError State) (s : State) : Outcome := runCommand id body s

/-- The schedule replaced: the model's own field, no state of the block's (log entry 2). -/
def withPending (es : List Event) (s : State) : State := { s with pending := es }

/-- The host reset (R280): every piece of state at its reset value. The configuration is kept, the schedule goes on, and the
buffers hold unspecified bytes again. That it is one event is DEDUCED; log entry 15. -/
def applyReset (s : State) : State :=
  { State.resetWith s.cfg with pending := s.pending, freeReads := s.freeReads, resets := s.resets + 1 }

end Sys2Proof.Machine
end

