-- ==== Sys2Proof/Machine/Bcd.lean ====
section
/-! DEFINITION. The Digit/BCD Codec (spec/40_bcd.md): its functions R100, R101, R104 and R108, and the commands PACK_LBCD,
PACK_RBCD, UNPACK_L and UNPACK_R. -/

namespace Sys2Proof.Machine

/-- `pack_pairs(d)` for a decimal string of even length (R100). -/
def packPairs : Bytes → Bytes
  | a :: b :: rest => nibbles (dval a) (dval b) :: packPairs rest
  | _ => []

/-- `pad_even(d)` (R101), by `LBCD_PAD`. -/
def padEven (pad : LbcdPad) (d : Bytes) : Bytes :=
  if d.length % 2 = 0 then d
  else match pad with
    | .trailing => d ++ [0x30]
    | .leading => 0x30 :: d

/-- `pack_lbcd(d)` (R102). -/
def packLbcd (pad : LbcdPad) (d : Bytes) : Bytes := packPairs (padEven pad d)

/-- `pack_rbcd(d)` (R103). -/
def packRbcd (d : Bytes) : Bytes := if d.length % 2 = 0 then packPairs d else packPairs (0x30 :: d)

/-- `BadBcdDigit` with the field index or 0 (R245). -/
def badDigit (field : Nat) : CmdError := { code := .badBcdDigit, field := field }

/-- `TruncatedMessage` with the field index or 0 (R247). -/
def truncated (field : Nat) : CmdError := { code := .truncatedMessage, field := field }

/-- `unpack_nibbles(bs, n, field)` (R104): `2 * ceil2(n)` digits. -/
def unpackNibbles (bs : Bytes) (n field : Nat) : Except CmdError Bytes :=
  if bs.length < ceil2 n then .error (truncated field)
  else
    let q := nibblesOf (bs.take (ceil2 n))
    if q.all (· ≤ 9) then .ok (q.map dchr) else .error (badDigit field)

/-- The last `n` elements of a string, `s[len(s)-n..)`. -/
def lastN (n : Nat) (s : Bytes) : Bytes := s.drop (s.length - n)

/-- `unpack_l(bs, n, field)` (R105). -/
def unpackL (pad : LbcdPad) (bs : Bytes) (n field : Nat) : Except CmdError Bytes :=
  match unpackNibbles bs n field with
  | .error e => .error e
  | .ok s => .ok (match pad with
    | .trailing => s.take n
    | .leading => lastN n s)

/-- `unpack_r(bs, n, field)` (R106). -/
def unpackR (bs : Bytes) (n field : Nat) : Except CmdError Bytes :=
  match unpackNibbles bs n field with
  | .error e => .error e
  | .ok s => .ok (lastN n s)

/-- Step 1 of `fit_numeric` (R108): the `RBcd` carve-out drops one leading zero of a value one digit too long. -/
def carveOut (enc : ByteEncoding) (declared : Nat) (v : Bytes) : Bytes :=
  if enc = .rbcd ∧ v.length = declared + 1 ∧ v.head? = some 0x30 then v.tail else v

/-- `ValueTooLong { field, declared, actual }` (R244). -/
def tooLong (field declared actual : Nat) : CmdError :=
  { code := .valueTooLong, field := field, declared := declared, actual := actual }

/-- `fit_numeric(enc, kind, declared, field, v)` (R108). -/
def fitNumeric (enc : ByteEncoding) (kind : FieldKind) (declared field : Nat) (v : Bytes) : Except CmdError Bytes :=
  let w := carveOut enc declared v
  if declared < w.length then .error (tooLong field declared w.length)
  else if kind = .fixed then .ok (List.replicate (declared - w.length) 0x30 ++ w)
  else .ok w

/-- The pseudocode of R102: every input byte a digit, else BadBcdDigit; then the packed string. -/
def packLbcdBody (s : State) : Except CmdError State :=
  if allDigits (input s) then emit 0 (packLbcd s.cfg.lbcdPad (input s)) s else .error (badDigit 0)

/-- PACK_LBCD (R102). -/
def execPackLbcd (s : State) : Outcome := runOutput packLbcdBody s

/-- The pseudocode of R103. -/
def packRbcdBody (s : State) : Except CmdError State :=
  if allDigits (input s) then emit 0 (packRbcd (input s)) s else .error (badDigit 0)

/-- PACK_RBCD (R103). -/
def execPackRbcd (s : State) : Outcome := runOutput packRbcdBody s

/-- The pseudocode of R105: the digits of the input, then Capacity if they pass `BUF_CAP`. -/
def unpackLBody (n : BitVec 16) (s : State) : Except CmdError State := do
  let digits ← unpackL s.cfg.lbcdPad (input s) (countOperand n) 0
  emit 0 digits s

/-- UNPACK_L n (R105). -/
def execUnpackL (n : BitVec 16) (s : State) : Outcome := runOutput (unpackLBody n) s

/-- The pseudocode of R106. -/
def unpackRBody (n : BitVec 16) (s : State) : Except CmdError State := do
  let digits ← unpackR (input s) (countOperand n) 0
  emit 0 digits s

/-- UNPACK_R n (R106). -/
def execUnpackR (n : BitVec 16) (s : State) : Outcome := runOutput (unpackRBody n) s

end Sys2Proof.Machine
end

