-- ==== Sys2Proof/Machine/Bitmap.lean ====
section
/-! DEFINITION. The Bitmap Codec (spec/43_bitmap.md): `bmp_build` and `bmp_parse` (R170, R171, R173) and the commands BMP_BUILD
and BMP_PARSE. -/

namespace Sys2Proof.Machine

/-- `mask(i) = 1 << (7 - ((i-1) % 8))` (R170). -/
def bitMask (i : Nat) : Byte := 1#8 <<< (7 - (i - 1) % 8)

/-- `bit(bm, i)` (R170): bit `7 - ((i-1) % 8)` of byte `bm[(i-1) / 8]`, bit 7 being the most significant. -/
def bitmapBit (bm : Bytes) (i : Nat) : Bool := (bm.getD ((i - 1) / 8) 0).getLsbD (7 - (i - 1) % 8)

/-- `bm[(i-1)/8] <- bm[(i-1)/8] | mask(i)` (R171). -/
def setBitmapBit (bm : Bytes) (i : Nat) : Bytes := bm.modify ((i - 1) / 8) (· ||| bitMask i)

/-- The size in bytes of the bitmap of a set of indices (R171): 16 if some index is above 64, else 8. -/
def bitmapSize (indices : List Nat) : Nat := if indices.any (64 < ·) then 16 else 8

/-- `bmp_build(S)` (R171): the bits of the indices, and bit 1 forced on exactly when the bitmap is 16 bytes. -/
def bmpBuild (indices : List Nat) : Bytes :=
  let bm := indices.foldl setBitmapBit (List.replicate (bitmapSize indices) 0)
  if bitmapSize indices = 16 then setBitmapBit bm 1 else bm

/-- `bmp_parse(bs)` (R173): the secondary-bitmap indicator, the indices in ascending order, index 1 skipped, and the
bitmap's size. -/
def bmpParse (bs : Bytes) : Except CmdError (Bool × List Nat × Nat) :=
  if bs.length < 8 then .error (truncated 0)
  else
    let sec := bitmapBit bs 1
    let n := if sec then 16 else 8
    if bs.length < n then .error (truncated 0)
    else .ok (sec, (List.range' 2 (8 * n - 1)).filter (bitmapBit (bs.take n)), n)

/-- The pseudocode of R172. -/
def bmpBuildBody (s : State) : Except CmdError State := emit 0 (bmpBuild (presIndices s.pres)) s

/-- BMP_BUILD (R172). -/
def execBmpBuild (s : State) : Outcome := runOutput bmpBuildBody s

/-- The pseudocode of R174. -/
def bmpParseBody (s : State) : Except CmdError State := do
  let (sec, indices, n) ← bmpParse (input s)
  pure { s with msg := { s.msg with sec := sec }, pres := presOf indices, consumed := BitVec.ofNat 32 n }

/-- BMP_PARSE (R174). An error clears SEC and PRES. -/
def execBmpParse (s : State) : Outcome := runCommand clearBitmapRegs bmpParseBody s

end Sys2Proof.Machine
end

