-- ==== Sys2Proof/Machine/LengthPrefix.lean ====
section
/-! DEFINITION. The Length-Prefix Codec (spec/41_length_prefix.md): `enc_len` and `dec_len` (R121 to R123, R125, R128) and the
commands ENC_LEN and DEC_LEN. -/

namespace Sys2Proof.Machine

/-- Byte 0 of a `Var2` header (R122): the source's formula kept verbatim, or the named alternative. -/
def var2Byte0 (mode : Var2Byte0) (len : Nat) : Byte :=
  match mode with
  | .sourceVerbatim =>
    BitVec.ofNat 8 (len / 100) ||| (BitVec.ofNat 8 (len % 100 / 10) <<< 4) ||| BitVec.ofNat 8 (len % 10)
  | .composed => BitVec.ofNat 8 (len / 100)

/-- The header bytes of R121 to R123 for a length in range; `Fixed` has no header (R120). -/
def headerBytes (mode : Var2Byte0) (kind : FieldKind) (len : Nat) : Bytes :=
  match kind with
  | .fixed => []
  | .var1 => [nibbles (len / 10) (len % 10)]
  | .var2 => [var2Byte0 mode len, nibbles (len % 100 / 10) (len % 10)]
  | .var2Wide => [nibbles (len / 1000) (len / 100 % 10), nibbles (len / 10 % 10) (len % 10)]

/-- `enc_len(kind, L, field)` for a variable kind (R128, then R121 to R123). -/
def encLen (mode : Var2Byte0) (kind : FieldKind) (len field : Nat) : Except CmdError Bytes :=
  if lenMax kind < len then .error (tooLong field (lenMax kind) len)
  else .ok (headerBytes mode kind len)

/-- A string of decimal nibbles read as a number, most significant first (R125). -/
def decimal (q : List Nat) : Nat := q.foldl (fun acc d => acc * 10 + d) 0

/-- `ParseLengthFailed` with the field index or 0 (R246). -/
def parseFailed (field : Nat) : CmdError := { code := .parseLengthFailed, field := field }

/-- `dec_len(kind, bs, field)` for a variable kind (R125). -/
def decLen (kind : FieldKind) (bs : Bytes) (field : Nat) : Except CmdError Nat :=
  if bs.length < hdrSize kind then .error (truncated field)
  else
    let q := nibblesOf (bs.take (hdrSize kind))
    if q.all (· ≤ 9) then .ok (decimal q) else .error (parseFailed field)

/-- The pseudocode of R124, after the kind test of R73. -/
def encLenBody (kind : BitVec 8) (len : BitVec 16) (s : State) : Except CmdError State := do
  let k ← kindOperand kind
  let header ← encLen s.cfg.var2Byte0 k (countOperand len) 0
  emit 0 header s

/-- ENC_LEN kind, L (R124). -/
def execEncLen (kind : BitVec 8) (len : BitVec 16) (s : State) : Outcome := runOutput (encLenBody kind len) s

/-- The pseudocode of R126, after the kind test of R73. -/
def decLenBody (kind : BitVec 8) (s : State) : Except CmdError State := do
  let k ← kindOperand kind
  let len ← decLen k (input s) 0
  pure { s with res := BitVec.ofNat 16 len, consumed := BitVec.ofNat 32 (hdrSize k) }

/-- DEC_LEN kind (R126). -/
def execDecLen (kind : BitVec 8) (s : State) : Outcome := runOutput (decLenBody kind) s

end Sys2Proof.Machine
end

