-- ==== Sys2Proof/Machine/FieldCodec.lean ====
section
/-! DEFINITION. The Field Value Codec (spec/42_field_codec.md): `encode_field` (R140 to R146), `decode_field` (R148 to R150),
in the order of tests of R153, and the commands FIELD_ENC and FIELD_DEC. `i` is the top-level field index, which goes into
ERRFIELD on any error, an error inside a sub-field included. -/

namespace Sys2Proof.Machine

/-- The first test of both directions (R153): the code of the definition in hand names a supported encoding, else
InvalidEncoder (R249). -/
def supportedEncoding (i : Nat) (code : BitVec 8) : Except CmdError ByteEncoding :=
  match encodingOf? code with
  | some enc => .ok enc
  | none => .error { code := .invalidEncoder, field := i }

/-- `InternalCodecError` with cause ShapeMismatch (R140, R146, R252). -/
def shapeError (i : Nat) : CmdError := { code := .internalCodecError, field := i, cause := .shapeMismatch }

/-- `InternalCodecError` with cause LengthMismatch (R141, R142, R252). -/
def lengthError (i declared actual : Nat) : CmdError :=
  { code := .internalCodecError, field := i, declared := declared, actual := actual, cause := .lengthMismatch }

/-- The length tests of a text or binary value of `n` bytes (R141, R142): over the declared length ValueTooLong, under it for
a `Fixed` field LengthMismatch. -/
def checkByteCount (i : Nat) (kind : FieldKind) (dl n : Nat) : Except CmdError Unit :=
  if dl < n then .error (tooLong i dl n)
  else if kind = .fixed ∧ n < dl then .error (lengthError i dl n)
  else .ok ()

/-- `encode_scalar` for `Ascii` (R141): logical length and body. -/
def encodeAscii (i : Nat) (kind : FieldKind) (dl : Nat) (s : Bytes) : Except CmdError (Nat × Bytes) := do
  checkByteCount i kind dl s.length
  pure (s.length, s)

/-- `encode_scalar` for `Binary` (R142). -/
def encodeBinary (i : Nat) (kind : FieldKind) (dl : Nat) (s : Bytes) : Except CmdError (Nat × Bytes) :=
  if s.length % 2 = 1 ∨ s.all isHex = false then .error { code := .invalidHex, field := i }
  else do
    checkByteCount i kind dl (s.length / 2)
    pure (s.length / 2, hexdec s)

/-- `encode_scalar` for `Bcd` and `RBcd` (R143, R144): fit, test the digits, pack. -/
def encodeNumeric (enc : ByteEncoding) (pack : Bytes → Bytes) (i : Nat) (kind : FieldKind) (dl : Nat) (s : Bytes) :
    Except CmdError (Nat × Bytes) := do
  let v ← fitNumeric enc kind dl i s
  if allDigits v then .ok (v.length, pack v) else .error (badDigit i)

/-- `encode_scalar` (R141 to R144), by encoding. -/
def encodeScalar (c : Config) (i : Nat) (kind : FieldKind) (enc : ByteEncoding) (dl : Nat) (s : Bytes) :
    Except CmdError (Nat × Bytes) :=
  match enc with
  | .ascii => encodeAscii i kind dl s
  | .binary => encodeBinary i kind dl s
  | .bcd => encodeNumeric .bcd (packLbcd c.lbcdPad) i kind dl s
  | .rbcd => encodeNumeric .rbcd packRbcd i kind dl s

/-- The last line of `encode_field` (R140): a variable kind puts the length header before the body. -/
def withHeader (c : Config) (i : Nat) (kind : FieldKind) (len : Nat) (body : Bytes) : Except CmdError Bytes :=
  if kind = .fixed then .ok body
  else do
    let header ← encLen c.var2Byte0 kind len i
    pure (header ++ body)

mutual

/-- `encode_field(i, def, value)` (R140, R146). -/
def encodeField (c : Config) (i : Nat) : FieldDef → FieldValue → Except CmdError Bytes
  | .scalar kind code dl, .scalar s => do
    let enc ← supportedEncoding i code
    let (len, body) ← encodeScalar c i kind enc dl s
    withHeader c i kind len body
  | .composite kind code _ subs, .composite vs => do
    let _ ← supportedEncoding i code
    if valueCount vs ≠ subCount subs then .error (shapeError i)
    else do
      let body ← encodeSubs c i subs vs
      withHeader c i kind body.length body
  | .scalar _ code _, .composite _ => do
    let _ ← supportedEncoding i code
    .error (shapeError i)
  | .composite _ code _ _, .scalar _ => do
    let _ ← supportedEncoding i code
    .error (shapeError i)

/-- The sub-fields encoded in declared order and concatenated (R146). The numbers of definitions and values are equal when
`encodeField` calls it. -/
def encodeSubs (c : Config) (i : Nat) : SubDefs → FieldValues → Except CmdError Bytes
  | .nil, .nil => .ok []
  | .cons d ds, .cons v vs => do
    let first ← encodeField c i d v
    let rest ← encodeSubs c i ds vs
    pure (first ++ rest)
  | _, _ => .error (shapeError i)

end

/-- `decode_body(i, enc, L, body)` (R149). -/
def decodeBody (c : Config) (i : Nat) (enc : ByteEncoding) (len : Nat) (body : Bytes) : Except CmdError Bytes :=
  match enc with
  | .ascii => .ok body
  | .binary => .ok (hexenc body)
  | .bcd => unpackL c.lbcdPad body len i
  | .rbcd => unpackR body len i

/-- A decoded string within `VAL_CAP`, else Capacity (R151, R252; D39). Log entry 8 says where it is tested. -/
def withinValCap (c : Config) (i : Nat) (s : Bytes) : Except CmdError Bytes :=
  if c.valCap < s.length then .error (capacityError i) else .ok s

/-- The logical length of the field that starts `raw` (R148): the declared length of a `Fixed` field, else what its header
says. -/
def fieldLength (i : Nat) (kind : FieldKind) (dl : Nat) (raw : Bytes) : Except CmdError Nat :=
  if kind = .fixed then .ok dl else decLen kind raw i

/-- The body of the field that starts `raw`, and the bytes header and body take (R148). -/
def fieldBody (i : Nat) (kind : FieldKind) (enc : ByteEncoding) (len : Nat) (raw : Bytes) :
    Except CmdError (Bytes × Nat) :=
  let size := hdrSize kind + bodySize len enc
  if raw.length < size then .error (truncated i)
  else .ok ((raw.drop (hdrSize kind)).take (bodySize len enc), size)

mutual

/-- `decode_field(i, def, raw)` (R148 to R150): the value and the bytes consumed. -/
def decodeField (c : Config) (i : Nat) : FieldDef → Bytes → Except CmdError (FieldValue × Nat)
  | .scalar kind code dl, raw => do
    let enc ← supportedEncoding i code
    let len ← fieldLength i kind dl raw
    let (body, consumed) ← fieldBody i kind enc len raw
    let s ← decodeBody c i enc len body
    let s ← withinValCap c i s
    pure (.scalar s, consumed)
  | .composite kind code dl subs, raw => do
    let enc ← supportedEncoding i code
    let len ← fieldLength i kind dl raw
    let (body, consumed) ← fieldBody i kind enc len raw
    let vs ← decodeSubs c i subs body
    pure (.composite vs, consumed)

/-- `decode_subs(i, subs, body)` (R150): each sub-field from the bytes that are left; bytes after the last are skipped. -/
def decodeSubs (c : Config) (i : Nat) : SubDefs → Bytes → Except CmdError FieldValues
  | .nil, _ => .ok .nil
  | .cons d ds, body => do
    let (v, consumed) ← decodeField c i d body
    let vs ← decodeSubs c i ds (body.drop consumed)
    pure (.cons v vs)

end

/-- `UndefinedField(i)` (R248). -/
def undefinedField (i : Nat) : CmdError := { code := .undefinedField, field := i }

/-- `DEFS[i]`, or `UndefinedField(i)` when index `i` has no entry (R248). -/
def tableEntry (c : Config) (i : Nat) : Except CmdError FieldDef :=
  match lookupDef c.defs i with
  | some d => .ok d
  | none => .error (undefinedField i)

/-- `F[i]`, or IllegalCommand cause EmptySlot when it is Empty (R147, R253). -/
def filledSlot (s : State) (i : Nat) : Except CmdError FieldValue :=
  match fieldSlot s i with
  | some v => .ok v
  | none => .error { code := .illegalCommand, field := i, cause := .emptySlot }

/-- The pseudocode of R147, after the index test of R73. -/
def fieldEncBody (index : BitVec 8) (s : State) : Except CmdError State := do
  let i ← indexOperand index
  let v ← filledSlot s i
  let d ← tableEntry s.cfg i
  let bytes ← encodeField s.cfg i d v
  emit i bytes s

/-- FIELD_ENC i (R147). -/
def execFieldEnc (index : BitVec 8) (s : State) : Outcome := runOutput (fieldEncBody index) s

/-- The pseudocode of R151, after the index test of R73. -/
def fieldDecBody (index : BitVec 8) (s : State) : Except CmdError State := do
  let i ← indexOperand index
  let d ← tableEntry s.cfg i
  let (v, consumed) ← decodeField s.cfg i d (input s)
  pure { setFieldSlot i (some v) s with consumed := BitVec.ofNat 32 consumed }

/-- FIELD_DEC i (R151). An error other than IllegalCommand empties `F[i]`. -/
def execFieldDec (index : BitVec 8) (s : State) : Outcome :=
  runCommand (setFieldSlot index.toNat none) (fieldDecBody index) s

end Sys2Proof.Machine
end

