-- ==== Sys2Proof/Machine/Assembler.lean ====
section
/-! DEFINITION. The Message Assembler (spec/44_message.md): `msg_encode` (R191, R192), `msg_decode` (R194) and the commands
MSG_ENC and MSG_DEC. -/

namespace Sys2Proof.Machine

/-- `enc_fixed_digits(s, width, E)` (R191). -/
def encFixedDigits (s : Bytes) (width : Nat) (code : ErrCode) : Except CmdError Bytes :=
  if s.length ≠ width ∨ !allDigits s then .error { code := code } else .ok (packPairs s)

/-- The protocol header of a frame (R192 step 2): emitted exactly when HDR is `Some`. -/
def encHeader (c : Config) : Option Bytes → Except CmdError Bytes
  | none => .ok []
  | some h => encFixedDigits h c.headerDigits .invalidHeader

/-- R192 step 5: the payloads of the populated slots in the order given. -/
def encodePayloads (c : Config) (g : Slots) : List Nat → Except CmdError Bytes
  | [] => .ok []
  | i :: rest =>
    match g.get i with
    | none => encodePayloads c g rest
    | some v => do
      let d ← tableEntry c i
      let first ← encodeField c i d v
      let others ← encodePayloads c g rest
      pure (first ++ others)

/-- A 16-bit binary number, high byte first (R51 (d)). -/
def bigEndian16 (n : Nat) : Bytes := [BitVec.ofNat 8 (n / 256), BitVec.ofNat 8 (n % 256)]

/-- The optional total-length prefix (R192, §6): it counts the bytes that follow it. -/
def withPrefix (c : Config) (out : Bytes) : Except CmdError Bytes :=
  if c.lenPfxEn then
    if 65535 < out.length then .error { code := .internalCodecError, cause := .prefixOverflow }
    else .ok (bigEndian16 out.length ++ out)
  else .ok out

/-- `msg_encode()` (R192). -/
def msgEncode (c : Config) (m : Message) : Except CmdError Bytes := do
  let tpdu ← encFixedDigits m.tpdu c.tpduDigits .invalidTpdu
  let header ← encHeader c m.hdr
  let mti ← encFixedDigits m.mti mtiDigits .invalidMti
  let payloads ← encodePayloads c m.slots (populated m.slots)
  withPrefix c (tpdu ++ header ++ mti ++ bmpBuild (populated m.slots) ++ payloads)

/-- `dec_fixed_digits(bs, width)` (R191). That a decoded string over `VAL_CAP` is Capacity is DEDUCED from R21, R195 and
R252; log entry 8. -/
def decFixedDigits (c : Config) (bs : Bytes) (width : Nat) : Except CmdError Bytes :=
  if bs.length < width / 2 then .error (truncated 0)
  else do
    let s ← unpackL c.lbcdPad bs width 0
    withinValCap c 0 s

/-- The protocol header of a received frame (R194): expected exactly when `HEADER_EN = 1`. -/
def decHeader (c : Config) (bs : Bytes) : Except CmdError (Option Bytes) :=
  if c.headerEn then do
    let h ← decFixedDigits c bs c.headerDigits
    pure (some h)
  else .ok none

/-- The bytes the protocol header takes in a received frame (R56, R194). -/
def decHeaderSize (c : Config) : Nat := if c.headerEn then c.headerDigits / 2 else 0

/-- The total-length prefix of a received frame (R194): the bytes it announces and its own size `p`. -/
def stripPrefix (c : Config) (raw : Bytes) : Except CmdError (Bytes × Nat) :=
  if c.lenPfxEn then
    match raw with
    | b0 :: b1 :: rest =>
      let n := b0.toNat * 256 + b1.toNat
      if rest.length < n then .error (truncated 0) else .ok (rest.take n, 2)
    | _ => .error (truncated 0)
  else .ok (raw, 0)

/-- The walk of R194 over the indicated indices, with the slots filled so far and the cursor. -/
def decodePayloads (c : Config) (raw : Bytes) : List Nat → Slots → Nat → Except CmdError (Slots × Nat)
  | [], g, cur => .ok (g, cur)
  | i :: rest, g, cur => do
    let d ← tableEntry c i
    let (v, consumed) ← decodeField c i d (raw.drop cur)
    decodePayloads c raw rest (g.put i (some v)) (cur + consumed)

/-- `msg_decode(raw)` (R194): the message and the count of bytes consumed. -/
def msgDecode (c : Config) (whole : Bytes) : Except CmdError (Message × Nat) := do
  let (raw, p) ← stripPrefix c whole
  let t ← decFixedDigits c raw c.tpduDigits
  let cur := c.tpduDigits / 2
  let h ← decHeader c (raw.drop cur)
  let cur := cur + decHeaderSize c
  let m ← decFixedDigits c (raw.drop cur) mtiDigits
  let cur := cur + mtiDigits / 2
  let (sec, indices, n) ← bmpParse (raw.drop cur)
  let cur := cur + n
  let (slots, cur) ← decodePayloads c raw indices Message.empty.slots cur
  pure ({ tpdu := t, hdr := h, mti := m, sec := sec, slots := slots }, p + cur)

/-- The pseudocode of R193. -/
def msgEncBody (s : State) : Except CmdError State := do
  let frame ← msgEncode s.cfg s.msg
  emit 0 frame s

/-- MSG_ENC (R193). -/
def execMsgEnc (s : State) : Outcome := runOutput msgEncBody s

/-- The pseudocode of R195. -/
def msgDecBody (s : State) : Except CmdError State := do
  let (m, consumed) ← msgDecode s.cfg (input s)
  pure { s with msg := m, consumed := BitVec.ofNat 32 consumed }

/-- MSG_DEC (R195). Any error clears the whole message register file. -/
def execMsgDec (s : State) : Outcome := runCommand clearMessage msgDecBody s

end Sys2Proof.Machine
end

