-- ==== Sys2Proof/Machine/Mac.lean ====
section
/-! DEFINITION. The optional Retail MAC unit (spec/45_mac.md): `mac_compute` (R222) over the uninterpreted cipher `E` (R221) and
the command MAC. -/

namespace Sys2Proof.Machine

/-- The first 8 bytes of a byte string as a block of the cipher. -/
def toBlock (bs : Bytes) : Block := Vector.ofFn fun j : Fin 8 => bs.getD j.val 0

/-- Step 2 of R222: the zero bytes that make the length a multiple of 8. -/
def macPad (data : Bytes) : Bytes := data ++ List.replicate ((8 - data.length % 8) % 8) 0

/-- Step 3 of R222: `acc[j] = d[j] ^ d[8+j] ^ ... ^ d[8(m-1)+j]` with `m` the number of blocks of `d`. -/
def macFold (d : Bytes) : Block :=
  Vector.ofFn fun j : Fin 8 => (List.range (d.length / 8)).foldl (fun acc k => acc ^^^ d.getD (8 * k + j.val) 0) 0

/-- `x[j] = a[j] ^ b[j]` (R222 step 5). -/
def xorBlock (a b : Block) : Block := Vector.zipWith (· ^^^ ·) a b

/-- `mac_compute(key, data)` (R222) for a cipher `E`. -/
def macComputeWith (cipher : Block → Block → Block) (key data : Bytes) : Except CmdError Bytes :=
  if key.length ≠ 8 then .error { code := .invalidKeyLength }
  else
    let hx := hexenc (macFold (macPad data)).toList
    let r1 := cipher (toBlock key) (toBlock (hx.take 8))
    let x := xorBlock r1 (toBlock (hx.drop 8))
    let r2 := cipher (toBlock key) x
    .ok ((hexenc r2.toList).take 8)

/-- `mac_compute` of the block, with its cipher `Config.E`. -/
def macCompute (key data : Bytes) : Except CmdError Bytes := macComputeWith Config.E key data

/-- The pseudocode of R223, after test 5 of R73: without the unit the command is IllegalCommand cause MacAbsent (R220). -/
def macBody (s : State) : Except CmdError State :=
  if s.cfg.hasMac then do
    let mac ← macCompute (keyBytes s) (input s)
    emit 0 mac s
  else .error { code := .illegalCommand, cause := .macAbsent }

/-- MAC (R223). -/
def execMac (s : State) : Outcome := runOutput macBody s

end Sys2Proof.Machine
end

