-- ==== Sys2Proof/Machine/Dispatch.lean ====
section
/-! DEFINITION. One arm per command: the meaning of each of the thirteen commands of spec/30_encoding.md rule R72. -/

namespace Sys2Proof.Machine

/-- What a command does to the state: from its start (R70) to the end of its completion step (R39). -/
def exec (i : Instr) (s : State) : Host.Outcome State Fault Refusal :=
  match i with
  | .packLbcd => Sys2Proof.Machine.execPackLbcd s
  | .packRbcd => Sys2Proof.Machine.execPackRbcd s
  | .unpackL n => Sys2Proof.Machine.execUnpackL n s
  | .unpackR n => Sys2Proof.Machine.execUnpackR n s
  | .encLen kind len => Sys2Proof.Machine.execEncLen kind len s
  | .decLen kind => Sys2Proof.Machine.execDecLen kind s
  | .fieldEnc index => Sys2Proof.Machine.execFieldEnc index s
  | .fieldDec index => Sys2Proof.Machine.execFieldDec index s
  | .bmpBuild => Sys2Proof.Machine.execBmpBuild s
  | .bmpParse => Sys2Proof.Machine.execBmpParse s
  | .msgEnc => Sys2Proof.Machine.execMsgEnc s
  | .msgDec => Sys2Proof.Machine.execMsgDec s
  | .mac => Sys2Proof.Machine.execMac s

end Sys2Proof.Machine
end

