-- ==== Sys2Proof/Machine/HostPort.lean ====
section
/-! DEFINITION. The moves of the host (spec/10_state.md rules R28 and R37, spec/60_exceptions.md rule R262): reads and writes of
the register port, the buffers and the message registers, gated by STATUS.BUSY. -/

namespace Sys2Proof.Machine

/-- A write move (R37, R262): while BUSY = 1, or where the value or the place is one the spec drops, the access changes
nothing but PROTO. -/
def hostWrite (allowed : Bool) (effect : State → State) (s : State) : State :=
  if !s.busy && allowed then effect s else setProto s

/-- A read move (R37): the register while IDLE. While BUSY = 1 it returns an unspecified value of the right type and has no
other effect (U2; log entry 5). -/
def hostRead (idle : Reply) (free : Nat → Reply) (s : State) : State :=
  if s.busy then { s with reply := free s.freeReads, freeReads := s.freeReads + 1 }
  else { s with reply := idle }

/-- The value of a numbered register (R28); an unlisted number reads 0. A register stands in the low bits of the
word (DESIGN CHOICE, log entry 16). -/
def readReg (s : State) (n : Nat) : Word :=
  match n with
  | 0x00 => s.cmd
  | 0x01 => (statusByte s).setWidth 32
  | 0x02 => s.err.setWidth 32
  | 0x03 => s.errField.setWidth 32
  | 0x04 => s.errDecl.setWidth 32
  | 0x05 => s.errAct
  | 0x06 => s.errCause.setWidth 32
  | 0x07 => s.res.setWidth 32
  | 0x08 => s.consumed
  | 0x09 => s.ilen
  | 0x0A => s.olen
  | 0x0B => if s.cfg.hasMac then s.klen.setWidth 32 else 0
  | 0x0C => (BitVec.ofBool s.msg.sec).setWidth 32
  | 0x10 => presWord s.pres 0
  | 0x11 => presWord s.pres 1
  | 0x12 => presWord s.pres 2
  | 0x13 => presWord s.pres 3
  | _ => 0

/-- A write of a numbered register (R28, R262): to CMD it starts a command; ILEN up to `BUF_CAP`; KLEN up to 255 and only
with the MAC unit; SEC bit 0; PRES0 to PRES3; every other number is read-only or unlisted and the write is dropped. That
a KLEN above 255, and a SEC write with a bit above bit 0, are dropped whole is DESIGN CHOICE, log entry 9. That a greater
ILEN or KLEN brings back the bytes an earlier, longer write left there (U3: `any value`) is DESIGN CHOICE, log entry 22. -/
def writeReg (n : Nat) (v : Word) (s : State) : State :=
  match n with
  | 0x00 => hostWrite true (startCommand v) s
  | 0x09 => hostWrite (v.toNat ≤ s.cfg.bufCap) (fun t => { t with ilen := v }) s
  | 0x0B => hostWrite (s.cfg.hasMac && v.toNat ≤ 255) (fun t => { t with klen := v.setWidth 8 }) s
  | 0x0C => hostWrite (v.toNat ≤ 1) (fun t => { t with msg := { t.msg with sec := v.getLsbD 0 } }) s
  | 0x10 => hostWrite true (fun t => { t with pres := setPresWord t.pres 0 v }) s
  | 0x11 => hostWrite true (fun t => { t with pres := setPresWord t.pres 1 v }) s
  | 0x12 => hostWrite true (fun t => { t with pres := setPresWord t.pres 2 v }) s
  | 0x13 => hostWrite true (fun t => { t with pres := setPresWord t.pres 3 v }) s
  | _ => setProto s

/-- A string a message register may hold (R21): at most `VAL_CAP` bytes. -/
def stringFits (c : Config) (s : Bytes) : Bool := s.length ≤ c.valCap

/-- What HDR may hold (R21). -/
def headerFits (c : Config) : Option Bytes → Bool
  | none => true
  | some s => stringFits c s

/-- One move of the host (R37). -/
def hostMove (m : HostMove) (s : State) : State :=
  match m with
  | .writeIBUF bs =>
    hostWrite (bs.length ≤ s.cfg.bufCap)
      (fun t => { t with ibuf := t.ibuf.write 0 bs, ilen := BitVec.ofNat 32 bs.length }) s
  | .readOBUF => hostRead (.bytes (output s)) (fun k => .bytes (Config.freeBytes k)) s
  | .writeKEY bs =>
    hostWrite (s.cfg.hasMac && bs.length ≤ 255)
      (fun t => { t with key := t.key.write 0 bs, klen := BitVec.ofNat 8 bs.length }) s
  | .setTPDU x => hostWrite (stringFits s.cfg x) (fun t => { t with msg := { t.msg with tpdu := x } }) s
  | .setMTI x => hostWrite (stringFits s.cfg x) (fun t => { t with msg := { t.msg with mti := x } }) s
  | .setHDR o => hostWrite (headerFits s.cfg o) (fun t => { t with msg := { t.msg with hdr := o } }) s
  | .setField i x => hostWrite (2 ≤ i && i ≤ nFields && slotFits s.cfg x) (setFieldSlot i x) s
  | .getField i => hostRead (.slot (fieldSlot s i)) (fun k => .slot (Config.freeSlot k)) s
  | .getTPDU => hostRead (.bytes s.msg.tpdu) (fun k => .bytes (Config.freeBytes k)) s
  | .getHDR => hostRead (.header s.msg.hdr) (fun k => .header (Config.freeHeader k)) s
  | .getMTI => hostRead (.bytes s.msg.mti) (fun k => .bytes (Config.freeBytes k)) s
  | .clearMsg => hostWrite true clearMessage s
  | .writeReg n v => writeReg n v s
  | .readReg n =>
    if n = 0x01 then { s with reply := .word (readReg s n) }
    else hostRead (.word (readReg s n)) (fun k => .word (Config.freeWord k)) s
  | .writeCMD w => hostWrite true (startCommand w) s

end Sys2Proof.Machine
end

