-- ==== Sys2Proof/Machine/Sequencer.lean ====
section
/-! DEFINITION. What one step does (spec/10_state.md rule R39): a host move, the block's completion step, or the reset, as the
schedule in State says. Step.lean only calls `advance`. -/

namespace Sys2Proof.Machine

/-- Where the block takes its command word from: the register CMD, which holds the last word written (R28, R29). DESIGN
CHOICE of the name; log entry 14. -/
def fetch (s : State) : Word := s.cmd

/-- The cause of R73 for a word that spells no command: its tests 1 and 2. -/
def decodeCause : DecodeError → ErrCause
  | .unknownOpcode => .unknownOpcode
  | .reservedBits => .reservedBits

/-- A word that spells no command completes with IllegalCommand and changes nothing else (R73, R253). That it
passes through BUSY like any other is DEDUCED; log entry 11. -/
def illegalWord (e : DecodeError) (s : State) : Outcome :=
  .next (raiseError { code := .illegalCommand, cause := decodeCause e } (clearResults s))

/-- The completion step of the command in CMD (R39). -/
def complete (s : State) : Outcome :=
  match decode (fetch s) with
  | .ok i => exec i s
  | .error e => illegalWord e s

/-- The block's turn: it completes the command it runs, and in IDLE it does nothing (R39). -/
def blockTurn (s : State) : Outcome := if s.busy then complete s else .next s

/-- One event of the schedule (R39, R280). -/
def act (e : Event) (s : State) : Outcome :=
  match e with
  | .host m => .next (hostMove m s)
  | .block => blockTurn s
  | .reset => .next (applyReset s)

/-- The next event of the schedule, and with none left the block's turn: every command completes (R39), and in IDLE the
block waits (R38). DESIGN CHOICE; log entry 2. -/
def advance (s : State) : Outcome :=
  match s.pending with
  | [] => blockTurn s
  | e :: rest => act e (withPending rest s)

/-- Places a command word where the block fetches it next: the host has just written it to CMD (R39), and the block acts
first. -/
def loadWord (w : Word) (s : State) : State :=
  withPending (.block :: s.pending) (startCommand w s)

end Sys2Proof.Machine
end

