-- ==== Sys2Proof/Machine/Step.lean ====
section
/-! DEFINITION. The step of the machine, and how a command word is placed where the step fetches it. -/

namespace Sys2Proof.Machine

/-- One step: `advance`, for a configuration the spec speaks of. With any other configuration the block is outside the spec
and the model refuses (R31, 93_implementation_defined.md U1). -/
def step (s : State) : Host.Outcome State Fault Refusal :=
  if configWf s.cfg then advance s else .refused .configurationOutsideSpec

/-- The state in which the next step runs the word of the low `nbits` bits of `w`. -/
def State.withFetchWord (s : State) (nbits w : Nat) : State := loadWord (BitVec.ofNat 32 (w % 2 ^ nbits)) s

end Sys2Proof.Machine
end

