-- ==== Sys2Proof/Safety.lean ====
section
/-! DEFINITION. What counts as a good state and as an unchanged part of one, in the terms the statements use: the invariant
of the machine, and the frames of commands and host moves (spec/60_exceptions.md rules R256 and R257). -/

namespace Sys2Proof.Machine

/-- The parts of the state a command may not write except its destination: every register, buffer and model field that is
neither a message register, PRES, OBUF, a result or error register, nor STATUS. -/
structure KeepsInputs (s t : State) : Prop where
  ibuf      : t.ibuf = s.ibuf
  ilen      : t.ilen = s.ilen
  key       : t.key = s.key
  klen      : t.klen = s.klen
  cmd       : t.cmd = s.cmd
  proto     : t.proto = s.proto
  cfg       : t.cfg = s.cfg
  pending   : t.pending = s.pending
  reply     : t.reply = s.reply
  freeReads : t.freeReads = s.freeReads
  resets    : t.resets = s.resets

/-- The message register file and PRES are the same in both states. -/
structure KeepsMessage (s t : State) : Prop where
  msg  : t.msg = s.msg
  pres : t.pres = s.pres

/-- Every byte of a buffer at offset `from_` and above reads as before. -/
def KeepsBytes (id : BufferId) (from_ : Nat) (s t : State) : Prop :=
  ∀ a, from_ ≤ a → bufferByte t id a = bufferByte s id a

/-- The five error registers read 0 (R33). -/
structure NoError (s : State) : Prop where
  err      : s.err = 0
  errField : s.errField = 0
  errDecl  : s.errDecl = 0
  errAct   : s.errAct = 0
  errCause : s.errCause = 0

/-- The state a command leaves that ended in success (R39): IDLE, DONE, no error. -/
structure Succeeded (t : State) : Prop where
  busy  : t.busy = false
  done  : t.done = true
  errf  : t.errf = false
  noErr : NoError t

/-- The state a command leaves that ended in the error `e` (R256): its five registers written, OLEN, RES and CONSUMED 0,
BUSY 0, DONE 1, ERRF 1. -/
structure Failed (e : CmdError) (t : State) : Prop where
  err      : t.err = errNumber e.code
  errField : t.errField.toNat = e.field
  errDecl  : t.errDecl.toNat = e.declared
  errAct   : t.errAct.toNat = e.actual
  errCause : t.errCause = causeNumber e.cause
  olen     : t.olen = 0
  res      : t.res = 0
  consumed : t.consumed = 0
  busy     : t.busy = false
  done     : t.done = true
  errf     : t.errf = true

/-- What holds of every state a run reaches: a configuration the spec speaks of; buffers in canonical form and within their
capacities; ILEN and OLEN within `BUF_CAP`, every valid output byte written; `F[1]` Empty; the message registers within
`VAL_CAP` and `SUB_DEPTH`; DONE, ERRF and the result registers 0 while BUSY; ERRF telling ERR; ERR one of the fourteen
values of R240; no KEY and no KLEN without the MAC unit. -/
structure State.Inv (s : State) : Prop where
  config        : configWf s.cfg = true
  ibufWf        : s.ibuf.wf = true
  obufWf        : s.obuf.wf = true
  keyWf         : s.key.wf = true
  ibufWithin    : s.ibuf.within s.cfg.bufCap = true
  obufWithin    : s.obuf.within s.cfg.bufCap = true
  keyWithin     : s.key.within 255 = true
  ilenCap       : s.ilen.toNat ≤ s.cfg.bufCap
  olenCap       : s.olen.toNat ≤ s.cfg.bufCap
  outputWritten : ∀ a, a < s.olen.toNat → (s.obuf.get? a).isSome = true
  slotOne       : s.msg.slots[0] = none
  tpduFits      : stringFits s.cfg s.msg.tpdu = true
  mtiFits       : stringFits s.cfg s.msg.mti = true
  hdrFits       : headerFits s.cfg s.msg.hdr = true
  slotsFit      : ∀ i, slotFits s.cfg (fieldSlot s i) = true
  busyClear     : s.busy = true →
    s.done = false ∧ s.errf = false ∧ NoError s ∧ s.olen = 0 ∧ s.res = 0 ∧ s.consumed = 0
  errfTells     : s.errf = (s.err != 0)
  errRange      : s.err.toNat ≤ 13
  macAbsent     : s.cfg.hasMac = false → s.key = [] ∧ s.klen = 0

/-! ## Terms the statements say results in, written from the spec and not from the commands' code -/

/-- Nibble `j` of a byte string, high nibble of byte 0 first (R51 (a), R104). -/
def nibbleAt (bs : Bytes) (j : Nat) : Nat :=
  if j % 2 = 0 then hi (bs.getD (j / 2) 0) else lo (bs.getD (j / 2) 0)

/-- The first `m` bytes hold decimal nibbles only. -/
abbrev DecimalNibbles (bs : Bytes) (m : Nat) : Prop := ∀ j, j < 2 * m → nibbleAt bs j ≤ 9

/-- The number a length header spells, its nibbles read as decimal digits, most significant first (R125). -/
def headerNumber (kind : FieldKind) (bs : Bytes) : Nat :=
  match kind with
  | .fixed => 0
  | .var1 => 10 * nibbleAt bs 0 + nibbleAt bs 1
  | .var2 => 1000 * nibbleAt bs 0 + 100 * nibbleAt bs 1 + 10 * nibbleAt bs 2 + nibbleAt bs 3
  | .var2Wide => 1000 * nibbleAt bs 0 + 100 * nibbleAt bs 1 + 10 * nibbleAt bs 2 + nibbleAt bs 3

/-- The variable kind a kind operand names (R71). -/
abbrev KindNamed (operand : BitVec 8) (kind : FieldKind) : Prop := kind ≠ .fixed ∧ operand.toNat = kindCode kind

/-- The length header of a field as it goes on the wire (R80): none for `Fixed`. -/
def wireHeader (c : Config) (kind : FieldKind) (len : Nat) : Bytes :=
  if kind = .fixed then [] else headerBytes c.var2Byte0 kind len

/-- A length a `Var2` header brings back under `VAR2_BYTE0 = SourceVerbatim` (R127). -/
def survivesVar2 (len : Nat) : Bool := len % 100 / 10 = 0 && (len / 100) ||| (len % 10) = len / 100

/-- The length survives the header of its kind (R127, R152). -/
def lengthSurvives (c : Config) (kind : FieldKind) (len : Nat) : Bool :=
  !(kind = .var2 && c.var2Byte0 = .sourceVerbatim) || survivesVar2 len

/-- An upper-case hex digit. -/
def isHexUpper (b : Byte) : Bool := isDigit b || (0x41 ≤ b.toNat && b.toNat ≤ 0x46)

/-- The logical length of a scalar value (R82). -/
def scalarLength (enc : ByteEncoding) (s : Bytes) : Nat :=
  match enc with
  | .binary => s.length / 2
  | _ => s.length

/-- The text is of the form its encoding wants, upper case for `Binary` (R152). -/
def textSuits (enc : ByteEncoding) (s : Bytes) : Bool :=
  match enc with
  | .ascii => true
  | .binary => s.length % 2 = 0 && s.all isHexUpper
  | .bcd => allDigits s
  | .rbcd => allDigits s

mutual

/-- The value satisfies the definition's constraints in the sense of R152, within `VAL_CAP`. -/
def roundTrips (c : Config) : FieldDef → FieldValue → Bool
  | .scalar kind code dl, .scalar s =>
    match encodingOf? code with
    | none => false
    | some enc =>
      textSuits enc s && s.length ≤ c.valCap && lengthSurvives c kind (scalarLength enc s) &&
        if kind = .fixed then scalarLength enc s = dl else scalarLength enc s ≤ dl
  | .composite kind _ _ subs, .composite vs =>
    roundTripsSubs c subs vs &&
      match subsSize? subs with
      | none => false
      | some n => lengthSurvives c kind n
  | _, _ => false

/-- Every child satisfies its sub-field's constraints, one for one. -/
def roundTripsSubs (c : Config) : SubDefs → FieldValues → Bool
  | .nil, .nil => true
  | .cons d ds, .cons v vs => roundTrips c d v && roundTripsSubs c ds vs
  | _, _ => false

end

/-- The sub-field definitions as a list. -/
def subsList : SubDefs → List FieldDef
  | .nil => []
  | .cons d ds => d :: subsList ds

/-- The children of a composite value as a list. -/
def valuesList : FieldValues → List FieldValue
  | .nil => []
  | .cons v vs => v :: valuesList vs

/-- `s` is a string of exactly `width` decimal digits (R191). -/
abbrev DigitString (s : Bytes) (width : Nat) : Prop := s.length = width ∧ allDigits s = true

/-- TPDU, protocol header and MTI are ready to be sent (R191). -/
structure HeadersReady (c : Config) (m : Message) : Prop where
  tpdu : DigitString m.tpdu c.tpduDigits
  hdr  : ∀ h, m.hdr = some h → DigitString h c.headerDigits
  mti  : DigitString m.mti 4

/-- The total-length prefix in front of `n` bytes (R56, R192). -/
def wirePrefix (c : Config) (n : Nat) : Bytes := if c.lenPfxEn then bigEndian16 n else []

/-- The bytes in IBUF are a frame whose fixed part MSG_DEC accepts (R56, R194): the prefix when enabled, TPDU, protocol
header when expected, MTI, bitmap, then `body`, and `tail` after what the prefix counts. -/
structure ReceivedFrame (s : State) (tp hd mt bm body tail : Bytes) : Prop where
  layout    : input s = wirePrefix s.cfg (tp ++ hd ++ mt ++ bm ++ body).length ++ (tp ++ hd ++ mt ++ bm ++ body) ++ tail
  counted   : s.cfg.lenPfxEn = true → (tp ++ hd ++ mt ++ bm ++ body).length ≤ 65535
  untailed  : s.cfg.lenPfxEn = false → tail = []
  tpLength  : tp.length = s.cfg.tpduDigits / 2
  tpDigits  : DecimalNibbles tp tp.length
  tpCap     : s.cfg.tpduDigits ≤ s.cfg.valCap
  hdLength  : hd.length = if s.cfg.headerEn then s.cfg.headerDigits / 2 else 0
  hdDigits  : DecimalNibbles hd hd.length
  hdCap     : s.cfg.headerEn = true → s.cfg.headerDigits ≤ s.cfg.valCap
  mtLength  : mt.length = 2
  mtDigits  : DecimalNibbles mt 2
  bmLength  : bm.length = if bitmapBit bm 1 then 16 else 8

/-- The bytes that start `bs` hold a string of `width` digits that MSG_DEC can take (R191, R194; `VAL_CAP` by log entry 8). -/
structure DigitsReady (c : Config) (bs : Bytes) (width : Nat) : Prop where
  enough : width / 2 ≤ bs.length
  digits : DecimalNibbles bs (width / 2)
  fits   : width ≤ c.valCap

/-- The error of the first test such a string fails (R191, R245, R247; the last by log entry 8). -/
inductive DigitsFail (c : Config) (bs : Bytes) (width : Nat) : CmdError → Prop
  | short (h : bs.length < width / 2) : DigitsFail c bs width { code := .truncatedMessage }
  | digit (h : width / 2 ≤ bs.length) (hd : ¬DecimalNibbles bs (width / 2)) :
      DigitsFail c bs width { code := .badBcdDigit }
  | capacity (h : width / 2 ≤ bs.length) (hd : DecimalNibbles bs (width / 2)) (hc : c.valCap < width) :
      DigitsFail c bs width { code := .internalCodecError, cause := .capacity }

/-- The command ends in the error `e`, and the whole message register file is empty (R195, R256). -/
def FailsCleared (i : Instr) (e : CmdError) (s : State) : Prop :=
  ∃ t, exec i s = .next t ∧ Failed e t ∧ t.msg = Message.empty

/-- The indices a bitmap names, index 1 skipped (R173). -/
def indicated (bm : Bytes) : List Nat := (List.range' 2 (8 * bm.length - 1)).filter (bitmapBit bm)

/-- A safe run of `k` steps: no step of it is refused or faults. -/
def SafeRun (k : Nat) (s : State) : Prop :=
  ∃ t, Host.Core.run Sys2Proof.core k s = .next t

end Sys2Proof.Machine
end

