-- ==== Sys2Proof/Certificates/Slice0/Obligations.lean ====
section
/-! DEFINITION. The statements for the provers. Each docstring names the rules of spec/ it formalises. -/

open Sys2Proof Sys2Proof.Machine

/-! ## Reset, the invariant, the step -/

/-- R38, for every configuration. That "unspecified" buffer contents are the free values `Config.powerOnByte`, by a count of
resets, is the model's choice, log entry 4. -/
def Obligations.ResetLeavesEmptyIdleBlock : Prop :=
  ∀ c : Config, let s := State.resetWith c
    s.cmd = 0 ∧ statusByte s = 0 ∧ NoError s ∧ s.res = 0 ∧ s.consumed = 0 ∧ s.ilen = 0 ∧ s.olen = 0 ∧ s.klen = 0 ∧
    s.msg.sec = false ∧ (∀ i, 1 ≤ i → i ≤ 128 → presBit s.pres i = false) ∧ s.msg.tpdu = [] ∧ s.msg.mti = [] ∧
    s.msg.hdr = none ∧ (∀ i, fieldSlot s i = none) ∧
    (∀ id a, bufferByte s id a = Config.powerOnByte id s.resets a) ∧ s.cfg = c

/-- Section 1 of 70_reset_and_hazards.md: whatever runs when the reset is applied, the block is then as R38 says, with its
configuration kept. That the reset is one event of a schedule is the model's inference, log entry 15; that buffer bytes are
then the free values `Config.powerOnByte` of the next count of resets is the model's choice, log entry 4. -/
def Obligations.ResetEventAbandonsCommand : Prop :=
  ∀ (s : State) (rest : List Event), configWf s.cfg = true → s.pending = .reset :: rest →
    ∃ t, step s = .next t ∧ t.busy = false ∧ statusByte t = 0 ∧ NoError t ∧ t.cmd = 0 ∧ t.res = 0 ∧ t.consumed = 0 ∧
      t.ilen = 0 ∧ t.olen = 0 ∧ t.klen = 0 ∧ t.pres = 0 ∧ t.msg = Message.empty ∧ t.cfg = s.cfg ∧ t.pending = rest ∧
      ∀ id a, bufferByte t id a = Config.powerOnByte id (s.resets + 1) a

/-- The invariant holds after reset, for every configuration the spec speaks of, and EX1 is one. -/
def Obligations.InvariantHoldsAtReset : Prop :=
  (∀ c : Config, configWf c = true → (State.resetWith c).Inv) ∧ configWf ex1 = true

/-- Every step keeps the invariant: buffers canonical and within their capacities, slot 1 Empty, message registers within
`VAL_CAP` and `SUB_DEPTH`, result registers 0 while BUSY, ERRF telling ERR. -/
def Obligations.StepKeepsInvariant : Prop :=
  ∀ s t : State, s.Inv → step s = .next t → t.Inv

/-- R39, R197, R31, U1: every step of a block the spec speaks of has a next state, nothing makes it hang or stop; with any
other configuration the model refuses. -/
def Obligations.StepRefusesOnlyBadConfiguration : Prop :=
  ∀ s : State, (configWf s.cfg = true → ∃ t, step s = .next t) ∧
    (configWf s.cfg = false → step s = .refused .configurationOutsideSpec)

/-- R39 and R38: a step does what the schedule names next. On the block's turn a BUSY block's step is `exec` of what CMD spells,
and an IDLE block changes nothing but the schedule; a host move named next is performed, whether the block is BUSY or IDLE.
That an empty schedule, or one naming the block next, is the block's turn is the model's choice, log entry 2; so is calling
CMD the place it fetches from, log entry 14. -/
def Obligations.StepRunsCommandInCmd : Prop :=
  ∀ s : State, configWf s.cfg = true →
    (∀ i : Instr, s.busy = true → decode s.cmd = .ok i →
      (s.pending = [] → step s = exec i s) ∧
      (∀ rest, s.pending = .block :: rest → step s = exec i { s with pending := rest })) ∧
    (s.busy = false →
      (s.pending = [] → step s = .next s) ∧
      (∀ rest, s.pending = .block :: rest → step s = .next { s with pending := rest })) ∧
    ∀ (m : HostMove) (rest : List Event), s.pending = .host m :: rest →
      step s = .next (hostMove m { s with pending := rest })

/-- R73: a word that is no legal command completes with IllegalCommand and the cause of the first of the five tests it
fails, and changes nothing but the error registers and STATUS. ERRFIELD is 0 (R240); that this holds of an illegal index too
is the model's inference, log entry 7, and so is that the word passes through BUSY, log entry 11. -/
def Obligations.IllegalWordsAreRefusedInOrder : Prop :=
  ∀ (s : State) (cause : ErrCause), configWf s.cfg = true → s.busy = true → s.pending = [] →
    let op := s.cmd.toNat % 256
    let a := s.cmd.toNat / 256 % 256
    let b := s.cmd.toNat / 65536
    (cause =
      if op ∉ [0x01, 0x02, 0x03, 0x04, 0x10, 0x11, 0x20, 0x21, 0x30, 0x31, 0x40, 0x41, 0x50] then .unknownOpcode
      else if (op ∈ [0x01, 0x02, 0x30, 0x31, 0x40, 0x41, 0x50] ∧ ¬(a = 0 ∧ b = 0)) ∨ (op ∈ [0x03, 0x04] ∧ a ≠ 0) ∨
        (op ∈ [0x11, 0x20, 0x21] ∧ b ≠ 0) then .reservedBits
      else if op ∈ [0x10, 0x11] ∧ ¬(1 ≤ a ∧ a ≤ 3) then .badKind
      else if op ∈ [0x20, 0x21] ∧ ¬(2 ≤ a ∧ a ≤ 128) then .badIndex
      else if op = 0x50 ∧ s.cfg.hasMac = false then .macAbsent
      else .none) →
    cause ≠ .none →
    ∃ t, step s = .next t ∧ Failed { code := .illegalCommand, cause := cause } t ∧ KeepsInputs s t ∧ KeepsMessage s t ∧
      KeepsBytes .obuf 0 s t

/-- R39: the two-step life cycle is the single atomic step for a host that keeps away while BUSY. The schedule is the model's
choice, log entry 2; that an illegal word too takes the two steps, and that `exec` clears the results itself, is the
model's inference, log entry 11. -/
def Obligations.TwoStepLifeCycleIsAtomic : Prop :=
  ∀ (s : State) (w : Word) (rest : List Event), configWf s.cfg = true → s.busy = false →
    s.pending = .host (.writeCMD w) :: .block :: rest →
    Host.Core.run Sys2Proof.core 2 s =
      match decode w with
      | .ok i => exec i { withPending rest s with cmd := w }
      | .error e => illegalWord e { withPending rest s with cmd := w }

/-- R39: every command completes, leaving the block IDLE and DONE, with ERRF telling whether ERR is not 0. -/
def Obligations.EveryCommandCompletes : Prop :=
  ∀ (i : Instr) (s : State), ∃ t, exec i s = .next t ∧ t.busy = false ∧ t.done = true ∧ (t.errf = true ↔ t.err ≠ 0)

/-! ## Encodings -/

/-- Decode and encode agree: on every command with every operand, and on every word that decodes, so that no bit of a word
is dropped and each word has one meaning. -/
def Obligations.DecodeAndEncodeAgree : Prop :=
  (∀ i : Instr, decode (encode i) = .ok i) ∧ ∀ (w : Word) (i : Instr), decode w = .ok i → encode i = w

/-- R73 tests 1 and 2 on the word's fields as numbers: the opcode first, then the fields that must be 0. -/
def Obligations.ReservedWordsAreRefusedInOrder : Prop :=
  ∀ w : Word,
    let op := w.toNat % 256
    let a := w.toNat / 256 % 256
    let b := w.toNat / 65536
    (decode w = .error .unknownOpcode ↔
      op ∉ [0x01, 0x02, 0x03, 0x04, 0x10, 0x11, 0x20, 0x21, 0x30, 0x31, 0x40, 0x41, 0x50]) ∧
    (decode w = .error .reservedBits ↔
      (op ∈ [0x01, 0x02, 0x30, 0x31, 0x40, 0x41, 0x50] ∧ ¬(a = 0 ∧ b = 0)) ∨
      (op ∈ [0x03, 0x04] ∧ a ≠ 0) ∨ (op ∈ [0x11, 0x20, 0x21] ∧ b ≠ 0))

/-- Words of 95_test_vectors.md, one of each format, decode to the commands they stand for. -/
def Obligations.SpecWordsDecode : Prop :=
  decode 0x00000001 = .ok .packLbcd ∧ decode 0x00030003 = .ok (.unpackL 3) ∧ decode 0x04D20310 = .ok (.encLen 3 1234) ∧
  decode 0x00000111 = .ok (.decLen 1) ∧ decode 0x00000420 = .ok (.fieldEnc 4) ∧ decode 0x00003C21 = .ok (.fieldDec 60) ∧
  decode 0x00000031 = .ok .bmpParse ∧ decode 0x00000041 = .ok .msgDec ∧ decode 0x00000050 = .ok .mac

/-- R73 tests 3 and 4: a kind outside 1 to 3 and an index outside 2 to 128 are IllegalCommand, which changes nothing but the
error registers and STATUS. ERRFIELD is 0 (R240), for an illegal index by inference, log entry 7. -/
def Obligations.IllegalOperandsChangeNothing : Prop :=
  ∀ (s : State) (x : BitVec 8) (len : BitVec 16),
    (¬(1 ≤ x.toNat ∧ x.toNat ≤ 3) → ∀ i ∈ [Instr.encLen x len, Instr.decLen x],
      ∃ t, exec i s = .next t ∧ Failed { code := .illegalCommand, cause := .badKind } t ∧
        KeepsInputs s t ∧ KeepsMessage s t ∧ KeepsBytes .obuf 0 s t) ∧
    (¬(2 ≤ x.toNat ∧ x.toNat ≤ 128) → ∀ i ∈ [Instr.fieldEnc x, Instr.fieldDec x],
      ∃ t, exec i s = .next t ∧ Failed { code := .illegalCommand, cause := .badIndex } t ∧
        KeepsInputs s t ∧ KeepsMessage s t ∧ KeepsBytes .obuf 0 s t)

/-! ## The Digit/BCD Codec -/

/-- R102 (with R100, R101): PACK_LBCD writes the digits as nibbles, the earlier digit of a pair high, an odd count padded
with 0 on the side `LBCD_PAD` says; a byte that is no decimal digit is BadBcdDigit and nothing is written. -/
def Obligations.PackLbcdWritesDigits : Prop :=
  ∀ s : State,
    (configWf s.cfg = true → s.ilen.toNat ≤ s.cfg.bufCap → allDigits (input s) = true →
      ∃ t, exec .packLbcd s = .next t ∧ Succeeded t ∧ KeepsInputs s t ∧ t.olen.toNat = ceil2 s.ilen.toNat ∧
        if s.ilen.toNat % 2 = 0 ∨ s.cfg.lbcdPad = .trailing then
          (∀ j, j < s.ilen.toNat → nibbleAt (output t) j = dval ((input s).getD j 0)) ∧
          (s.ilen.toNat % 2 = 1 → nibbleAt (output t) s.ilen.toNat = 0)
        else
          nibbleAt (output t) 0 = 0 ∧ ∀ j, j < s.ilen.toNat → nibbleAt (output t) (j + 1) = dval ((input s).getD j 0)) ∧
    ∀ k, k < s.ilen.toNat → isDigit ((input s).getD k 0) = false →
      ∃ t, exec .packLbcd s = .next t ∧ Failed { code := .badBcdDigit } t ∧ KeepsInputs s t ∧ KeepsMessage s t ∧
        KeepsBytes .obuf 0 s t

/-- R103: PACK_RBCD is the same but an odd count has its pad nibble before the first digit, whatever `LBCD_PAD` is. -/
def Obligations.PackRbcdWritesDigits : Prop :=
  ∀ s : State,
    (configWf s.cfg = true → s.ilen.toNat ≤ s.cfg.bufCap → allDigits (input s) = true →
      ∃ t, exec .packRbcd s = .next t ∧ Succeeded t ∧ KeepsInputs s t ∧ t.olen.toNat = ceil2 s.ilen.toNat ∧
        if s.ilen.toNat % 2 = 0 then
          ∀ j, j < s.ilen.toNat → nibbleAt (output t) j = dval ((input s).getD j 0)
        else
          nibbleAt (output t) 0 = 0 ∧ ∀ j, j < s.ilen.toNat → nibbleAt (output t) (j + 1) = dval ((input s).getD j 0)) ∧
    ∀ k, k < s.ilen.toNat → isDigit ((input s).getD k 0) = false →
      ∃ t, exec .packRbcd s = .next t ∧ Failed { code := .badBcdDigit } t ∧ KeepsInputs s t ∧ KeepsMessage s t ∧
        KeepsBytes .obuf 0 s t

/-- R105 with R104: UNPACK_L n gives the first `n` nibbles as digit characters under Trailing, the last `n` of the
`2 * ceil2(n)` under Leading; its errors in order are Truncated, BadBcdDigit (the pad nibble included), Capacity. -/
def Obligations.UnpackLeftTakesDigits : Prop :=
  ∀ (s : State) (n : BitVec 16),
    (configWf s.cfg = true → ceil2 n.toNat ≤ s.ilen.toNat → n.toNat ≤ s.cfg.bufCap →
      DecimalNibbles (input s) (ceil2 n.toNat) →
      ∃ t, exec (.unpackL n) s = .next t ∧ Succeeded t ∧ t.olen.toNat = n.toNat ∧ t.consumed = 0 ∧
        ∀ k, k < n.toNat → (output t).getD k 0 =
          dchr (nibbleAt (input s) (if s.cfg.lbcdPad = .trailing then k else 2 * ceil2 n.toNat - n.toNat + k))) ∧
    (s.ilen.toNat < ceil2 n.toNat → ∃ t, exec (.unpackL n) s = .next t ∧ Failed { code := .truncatedMessage } t) ∧
    (ceil2 n.toNat ≤ s.ilen.toNat → ¬DecimalNibbles (input s) (ceil2 n.toNat) →
      ∃ t, exec (.unpackL n) s = .next t ∧ Failed { code := .badBcdDigit } t) ∧
    (ceil2 n.toNat ≤ s.ilen.toNat → DecimalNibbles (input s) (ceil2 n.toNat) → s.cfg.bufCap < n.toNat →
      ∃ t, exec (.unpackL n) s = .next t ∧ Failed { code := .internalCodecError, cause := .capacity } t)

/-- R106 with R104: UNPACK_R n gives the last `n` of the `2 * ceil2(n)` nibbles, whatever the dropped pad digit is; its
errors are as UNPACK_L's. -/
def Obligations.UnpackRightTakesDigits : Prop :=
  ∀ (s : State) (n : BitVec 16),
    (configWf s.cfg = true → ceil2 n.toNat ≤ s.ilen.toNat → n.toNat ≤ s.cfg.bufCap →
      DecimalNibbles (input s) (ceil2 n.toNat) →
      ∃ t, exec (.unpackR n) s = .next t ∧ Succeeded t ∧ t.olen.toNat = n.toNat ∧
        ∀ k, k < n.toNat → (output t).getD k 0 = dchr (nibbleAt (input s) (2 * ceil2 n.toNat - n.toNat + k))) ∧
    (s.ilen.toNat < ceil2 n.toNat → ∃ t, exec (.unpackR n) s = .next t ∧ Failed { code := .truncatedMessage } t) ∧
    (ceil2 n.toNat ≤ s.ilen.toNat → ¬DecimalNibbles (input s) (ceil2 n.toNat) →
      ∃ t, exec (.unpackR n) s = .next t ∧ Failed { code := .badBcdDigit } t) ∧
    (ceil2 n.toNat ≤ s.ilen.toNat → DecimalNibbles (input s) (ceil2 n.toNat) → s.cfg.bufCap < n.toNat →
      ∃ t, exec (.unpackR n) s = .next t ∧ Failed { code := .internalCodecError, cause := .capacity } t)

/-- R107: the two round trips, under either value of `LBCD_PAD`, and the packed lengths; and the crossed pair of "123",
which does not come back. -/
def Obligations.UnpackInvertsPack : Prop :=
  (∀ (pad : LbcdPad) (d : Bytes) (field : Nat), allDigits d = true →
    unpackL pad (packLbcd pad d) d.length field = .ok d ∧ unpackR (packRbcd d) d.length field = .ok d ∧
    (packLbcd pad d).length = ceil2 d.length ∧ (packRbcd d).length = ceil2 d.length) ∧
  ∀ field : Nat, unpackR (packLbcd .trailing [0x31, 0x32, 0x33]) 3 field = .ok [0x32, 0x33, 0x30]

/-- R108: `fit_numeric` in its four steps. -/
def Obligations.FitNumericSteps : Prop :=
  ∀ (enc : ByteEncoding) (kind : FieldKind) (declared field : Nat) (v : Bytes),
    let carved := enc = .rbcd ∧ v.length = declared + 1 ∧ v.head? = some 0x30
    (carved → fitNumeric enc kind declared field v = .ok (v.drop 1)) ∧
    (¬carved → declared < v.length → fitNumeric enc kind declared field v = .error (tooLong field declared v.length)) ∧
    (v.length ≤ declared → ∃ w, fitNumeric enc kind declared field v = .ok w ∧
      if kind = .fixed then w.length = declared ∧ w.drop (declared - v.length) = v ∧
        (∀ k, k < declared - v.length → w.getD k 0 = 0x30)
      else w = v)

/-! ## The Length-Prefix Codec -/

/-- R124 with R121, R122, R123: ENC_LEN writes the header of its kind, `Var2` byte 0 by the verbatim formula or composed.
R128: a length the header cannot carry is ValueTooLong with the kind's maximum and the length. A kind operand outside 1 to
3 is IllegalCommand cause BadKind. -/
def Obligations.EncLenWritesHeader : Prop :=
  ∀ (s : State) (operand : BitVec 8) (len : BitVec 16), configWf s.cfg = true →
    (¬(1 ≤ operand.toNat ∧ operand.toNat ≤ 3) → ∃ t, exec (.encLen operand len) s = .next t ∧
      Failed { code := .illegalCommand, cause := .badKind } t) ∧
    ∀ kind : FieldKind, KindNamed operand kind →
    (len.toNat ≤ lenMax kind → ∃ t, exec (.encLen operand len) s = .next t ∧ Succeeded t ∧
      t.olen.toNat = hdrSize kind ∧
      (kind = .var1 → (output t).map (·.toNat) = [16 * (len.toNat / 10) + len.toNat % 10]) ∧
      (kind = .var2 → (output t).map (·.toNat) =
        [if s.cfg.var2Byte0 = .composed then len.toNat / 100
         else (len.toNat / 100) ||| ((len.toNat % 100 / 10) <<< 4) ||| (len.toNat % 10),
         16 * (len.toNat % 100 / 10) + len.toNat % 10]) ∧
      (kind = .var2Wide → (output t).map (·.toNat) =
        [16 * (len.toNat / 1000) + len.toNat / 100 % 10, 16 * (len.toNat / 10 % 10) + len.toNat % 10])) ∧
    (lenMax kind < len.toNat → ∃ t, exec (.encLen operand len) s = .next t ∧
      Failed { code := .valueTooLong, declared := lenMax kind, actual := len.toNat } t)

/-- R126 with R125: DEC_LEN reads 2 or 4 decimal nibbles into RES and reports the header's size, and nothing goes to OBUF;
a kind operand outside 1 to 3, too few bytes, and a nibble above 9 are errors, in that order. -/
def Obligations.DecLenReadsDigits : Prop :=
  ∀ (s : State) (operand : BitVec 8),
    (¬(1 ≤ operand.toNat ∧ operand.toNat ≤ 3) → ∃ t, exec (.decLen operand) s = .next t ∧
      Failed { code := .illegalCommand, cause := .badKind } t) ∧
    ∀ kind : FieldKind, KindNamed operand kind →
    (hdrSize kind ≤ s.ilen.toNat → DecimalNibbles (input s) (hdrSize kind) →
      ∃ t, exec (.decLen operand) s = .next t ∧ Succeeded t ∧ t.res.toNat = headerNumber kind (input s) ∧
        t.consumed.toNat = hdrSize kind ∧ t.olen = 0 ∧ KeepsBytes .obuf 0 s t) ∧
    (s.ilen.toNat < hdrSize kind →
      ∃ t, exec (.decLen operand) s = .next t ∧ Failed { code := .truncatedMessage } t) ∧
    (hdrSize kind ≤ s.ilen.toNat → ¬DecimalNibbles (input s) (hdrSize kind) →
      ∃ t, exec (.decLen operand) s = .next t ∧ Failed { code := .parseLengthFailed } t)

/-- R127: where the round trip holds (`Var1`, `Var2Wide`, and `Var2` composed, whatever bytes follow the header), and what
`Var2` under SourceVerbatim reads instead: the length comes back exactly for the 33 listed; 240 lengths end in
ParseLengthFailed; the remaining 727 are read as another length. -/
def Obligations.LengthHeaderRoundTrip : Prop :=
  (∀ (kind : FieldKind) (mode : Var2Byte0) (len field : Nat) (rest : Bytes), kind ≠ .fixed → len ≤ lenMax kind →
    (kind = .var2 → mode = .composed) →
    encLen mode kind len field = .ok (headerBytes mode kind len) ∧
    decLen kind (headerBytes mode kind len ++ rest) field = .ok len) ∧
  (∀ len field : Nat, len ≤ 999 →
    let h := len / 100
    let t := len % 100 / 10
    let u := len % 10
    let read := 1000 * t + 100 * (h ||| u) + 10 * t + u
    decLen .var2 (headerBytes .sourceVerbatim .var2 len) field =
      (if 9 < h ||| u then .error (parseFailed field) else .ok read) ∧
    (read = len ↔ t = 0 ∧ h ||| u = h)) ∧
  (List.range 1000).filter survivesVar2 =
    [0, 100, 101, 200, 202, 300, 301, 302, 303, 400, 404, 500, 501, 504, 505, 600, 602, 604, 606] ++
    [700, 701, 702, 703, 704, 705, 706, 707, 800, 808, 900, 901, 908, 909] ∧
  ((List.range 1000).filter fun len => 9 < (len / 100) ||| (len % 10)).length = 240 ∧
  ((List.range 1000).filter fun len => !survivesVar2 len && decide ((len / 100) ||| (len % 10) ≤ 9)).length = 727

/-! ## The Field Value Codec -/

/-- R147 with R141: a text field that fits goes out as its header and the text itself; a longer text is ValueTooLong, and a
shorter one for a `Fixed` field InternalCodecError cause LengthMismatch, each with the declared and the actual length. -/
def Obligations.FieldEncAscii : Prop :=
  ∀ (s : State) (index : BitVec 8) (kind : FieldKind) (dl : Nat) (v : Bytes), configWf s.cfg = true →
    lookupDef s.cfg.defs index.toNat = some (.scalar kind 0 dl) → fieldSlot s index.toNat = some (.scalar v) →
    v.length ≤ s.cfg.valCap →
    ((if kind = .fixed then v.length = dl else v.length ≤ dl) →
      ∃ t, exec (.fieldEnc index) s = .next t ∧ Succeeded t ∧ output t = wireHeader s.cfg kind v.length ++ v) ∧
    (dl < v.length → ∃ t, exec (.fieldEnc index) s = .next t ∧
      Failed { code := .valueTooLong, field := index.toNat, declared := dl, actual := v.length } t) ∧
    (kind = .fixed → v.length < dl → ∃ t, exec (.fieldEnc index) s = .next t ∧ Failed
      { code := .internalCodecError, field := index.toNat, declared := dl, actual := v.length, cause := .lengthMismatch } t)

/-- R147 with R142: a binary field of hex text, either letter case, goes out as its header and one byte per two characters;
text that is no hex text of a byte string is InvalidHex, then a byte count over the declared length is ValueTooLong, and
one under it for a `Fixed` field InternalCodecError cause LengthMismatch. -/
def Obligations.FieldEncBinary : Prop :=
  ∀ (s : State) (index : BitVec 8) (kind : FieldKind) (dl : Nat) (v : Bytes), configWf s.cfg = true →
    lookupDef s.cfg.defs index.toNat = some (.scalar kind 1 dl) → fieldSlot s index.toNat = some (.scalar v) →
    v.length ≤ s.cfg.valCap →
    let n := v.length / 2
    let hex := v.length % 2 = 0 ∧ ∀ k, k < v.length → isHex (v.getD k 0) = true
    (hex → (if kind = .fixed then n = dl else n ≤ dl) →
      ∃ t body, exec (.fieldEnc index) s = .next t ∧ Succeeded t ∧ output t = wireHeader s.cfg kind n ++ body ∧
        body.length = n ∧ ∀ j, j < 2 * n → nibbleAt body j = hval (v.getD j 0)) ∧
    (¬hex → ∃ t, exec (.fieldEnc index) s = .next t ∧ Failed { code := .invalidHex, field := index.toNat } t) ∧
    (hex → dl < n → ∃ t, exec (.fieldEnc index) s = .next t ∧
      Failed { code := .valueTooLong, field := index.toNat, declared := dl, actual := n } t) ∧
    (hex → kind = .fixed → n < dl → ∃ t, exec (.fieldEnc index) s = .next t ∧
      Failed { code := .internalCodecError, field := index.toNat, declared := dl, actual := n, cause := .lengthMismatch } t)

/-- R147 with R143, R144 and R108: a decimal field, zero-left-padded when `Fixed`, packed left or right by its encoding; an
`RBcd` value one digit too long that opens with 0 goes without that zero; a value still too long is ValueTooLong, then a
character that is no decimal digit BadBcdDigit. -/
def Obligations.FieldEncNumeric : Prop :=
  ∀ (s : State) (index : BitVec 8) (kind : FieldKind) (dl : Nat) (v : Bytes) (right : Bool), configWf s.cfg = true →
    lookupDef s.cfg.defs index.toNat = some (.scalar kind (if right then 3 else 2) dl) →
    fieldSlot s index.toNat = some (.scalar v) → v.length ≤ s.cfg.valCap →
    let carved := right = true ∧ v.length = dl + 1 ∧ v.head? = some 0x30
    (allDigits v = true → v.length ≤ dl ∨ carved →
      ∃ t w, exec (.fieldEnc index) s = .next t ∧ Succeeded t ∧
        (carved → w = v.drop 1) ∧
        (¬carved → w = if kind = .fixed then List.replicate (dl - v.length) 0x30 ++ v else v) ∧
        output t = wireHeader s.cfg kind w.length ++ (if right then packRbcd w else packLbcd s.cfg.lbcdPad w)) ∧
    (¬carved → dl < v.length → ∃ t, exec (.fieldEnc index) s = .next t ∧
      Failed { code := .valueTooLong, field := index.toNat, declared := dl, actual := v.length } t) ∧
    (v.length ≤ dl ∨ carved → allDigits v = false →
      ∃ t, exec (.fieldEnc index) s = .next t ∧ Failed { code := .badBcdDigit, field := index.toNat } t)

/-- R147 with R146 and R153: a composite field goes out as its header, carrying the byte count, and its children's encodings
in declared order; the first child, left to right, that does not encode ends the command with its error, which carries the
top-level index. -/
def Obligations.FieldEncComposite : Prop :=
  ∀ (s : State) (index : BitVec 8) (kind : FieldKind) (code : BitVec 8) (dl : Nat) (subs : SubDefs) (vs : FieldValues),
    configWf s.cfg = true → lookupDef s.cfg.defs index.toNat = some (.composite kind code dl subs) →
    fieldSlot s index.toNat = some (.composite vs) → (valuesList vs).length = (subsList subs).length →
    (∀ bodies : List Bytes, bodies.length = (subsList subs).length →
      (∀ (k : Nat) (d : FieldDef) (v : FieldValue) (b : Bytes),
        (subsList subs)[k]? = some d → (valuesList vs)[k]? = some v → bodies[k]? = some b →
        encodeField s.cfg index.toNat d v = .ok b) →
      ∃ t, exec (.fieldEnc index) s = .next t ∧ Succeeded t ∧
        output t = wireHeader s.cfg kind bodies.flatten.length ++ bodies.flatten) ∧
    ∀ (k : Nat) (d : FieldDef) (v : FieldValue) (e : CmdError), slotFits s.cfg (fieldSlot s index.toNat) = true →
      (subsList subs)[k]? = some d → (valuesList vs)[k]? = some v → encodeField s.cfg index.toNat d v = .error e →
      (∀ (j : Nat) (d' : FieldDef) (v' : FieldValue), j < k → (subsList subs)[j]? = some d' →
        (valuesList vs)[j]? = some v' → ∃ b, encodeField s.cfg index.toNat d' v' = .ok b) →
      ∃ t, exec (.fieldEnc index) s = .next t ∧ Failed e t ∧ e.field = index.toNat

/-- R147, R140, R153: what FIELD_ENC refuses before it looks at the value, in its order: an Empty slot, an index without an
entry, an unsupported encoding, a value of the wrong shape. -/
def Obligations.FieldEncRefusesByTable : Prop :=
  ∀ (s : State) (index : BitVec 8), 2 ≤ index.toNat → index.toNat ≤ 128 →
    (fieldSlot s index.toNat = none → ∃ t, exec (.fieldEnc index) s = .next t ∧
      Failed { code := .illegalCommand, field := index.toNat, cause := .emptySlot } t) ∧
    (∀ v, fieldSlot s index.toNat = some v → lookupDef s.cfg.defs index.toNat = none →
      ∃ t, exec (.fieldEnc index) s = .next t ∧ Failed { code := .undefinedField, field := index.toNat } t) ∧
    (∀ v d, fieldSlot s index.toNat = some v → lookupDef s.cfg.defs index.toNat = some d → 3 < (defEnc d).toNat →
      ∃ t, exec (.fieldEnc index) s = .next t ∧ Failed { code := .invalidEncoder, field := index.toNat } t) ∧
    (∀ kind code dl vs, fieldSlot s index.toNat = some (.composite vs) →
      lookupDef s.cfg.defs index.toNat = some (.scalar kind code dl) → code.toNat ≤ 3 →
      ∃ t, exec (.fieldEnc index) s = .next t ∧
        Failed { code := .internalCodecError, field := index.toNat, cause := .shapeMismatch } t) ∧
    (∀ kind code dl subs v, fieldSlot s index.toNat = some v →
      lookupDef s.cfg.defs index.toNat = some (.composite kind code dl subs) → code.toNat ≤ 3 →
      (∀ vs, v = .composite vs → (valuesList vs).length ≠ (subsList subs).length) →
      ∃ t, exec (.fieldEnc index) s = .next t ∧
        Failed { code := .internalCodecError, field := index.toNat, cause := .shapeMismatch } t)

/-- R151 with R148 and R149: FIELD_DEC of a scalar field puts the decoded text in its slot and reports the bytes of header
and body; bytes after them are ignored. -/
def Obligations.FieldDecScalar : Prop :=
  ∀ (s : State) (index : BitVec 8) (kind : FieldKind) (code : BitVec 8) (enc : ByteEncoding) (dl len : Nat),
    2 ≤ index.toNat → index.toNat ≤ 128 →
    lookupDef s.cfg.defs index.toNat = some (.scalar kind code dl) → encodingOf? code = some enc →
    DecimalNibbles (input s) (hdrSize kind) → len = (if kind = .fixed then dl else headerNumber kind (input s)) →
    hdrSize kind + bodySize len enc ≤ s.ilen.toNat → (if enc = .binary then 2 * len else len) ≤ s.cfg.valCap →
    (enc = .bcd ∨ enc = .rbcd → DecimalNibbles ((input s).drop (hdrSize kind)) (ceil2 len)) →
    ∃ t v, exec (.fieldDec index) s = .next t ∧ Succeeded t ∧ fieldSlot t index.toNat = some (.scalar v) ∧
      t.consumed.toNat = hdrSize kind + bodySize len enc ∧
      (enc = .ascii → v = ((input s).drop (hdrSize kind)).take len) ∧
      (enc = .binary → v.length = 2 * len ∧
        ∀ j, j < 2 * len → v.getD j 0 = hexU (nibbleAt ((input s).drop (hdrSize kind)) j)) ∧
      (enc = .bcd → v.length = len ∧ ∀ k, k < len → v.getD k 0 = dchr (nibbleAt ((input s).drop (hdrSize kind))
        (if s.cfg.lbcdPad = .trailing then k else 2 * ceil2 len - len + k))) ∧
      (enc = .rbcd → v.length = len ∧ ∀ k, k < len →
        v.getD k 0 = dchr (nibbleAt ((input s).drop (hdrSize kind)) (2 * ceil2 len - len + k)))

/-- R151 with R150: FIELD_DEC of a composite field decodes its sub-fields one after another from the body; body bytes after
the last are skipped and still consumed. -/
def Obligations.FieldDecComposite : Prop :=
  ∀ (s : State) (index : BitVec 8) (kind : FieldKind) (code : BitVec 8) (dl len : Nat) (subs : SubDefs)
    (vs : FieldValues) (bodies : List Bytes) (surplus rest : Bytes),
    2 ≤ index.toNat → index.toNat ≤ 128 →
    lookupDef s.cfg.defs index.toNat = some (.composite kind code dl subs) → code.toNat ≤ 1 →
    (valuesList vs).length = (subsList subs).length → bodies.length = (subsList subs).length →
    (∀ (k : Nat) (d : FieldDef) (v : FieldValue) (b : Bytes),
      (subsList subs)[k]? = some d → (valuesList vs)[k]? = some v → bodies[k]? = some b →
      ∀ tail, decodeField s.cfg index.toNat d (b ++ tail) = .ok (v, b.length)) →
    DecimalNibbles (input s) (hdrSize kind) → len = (if kind = .fixed then dl else headerNumber kind (input s)) →
    (input s).drop (hdrSize kind) = bodies.flatten ++ surplus ++ rest → len = bodies.flatten.length + surplus.length →
    hdrSize kind ≤ s.ilen.toNat →
    ∃ t, exec (.fieldDec index) s = .next t ∧ Succeeded t ∧ fieldSlot t index.toNat = some (.composite vs) ∧
      t.consumed.toNat = hdrSize kind + len

/-- R151 with R148, R150 and R153: when FIELD_DEC fails and with what, in the order of its tests: no entry, an unsupported
encoding, too few bytes for the header, a header nibble above 9, too few bytes for the body, then a body nibble above 9 or
(log entry 8) a text over `VAL_CAP`, or in a composite the error of its first sub-field, left to right, that does not
decode; each with the index. Whatever the error, the slot is Empty, never a partial value. -/
def Obligations.FieldDecErrorsEmptySlot : Prop :=
  ∀ (s : State) (index : BitVec 8), 2 ≤ index.toNat → index.toNat ≤ 128 →
    let fails := fun e : CmdError => ∃ t, exec (.fieldDec index) s = .next t ∧ Failed e t ∧
      fieldSlot t index.toNat = none
    (lookupDef s.cfg.defs index.toNat = none → fails { code := .undefinedField, field := index.toNat }) ∧
    (∀ d, lookupDef s.cfg.defs index.toNat = some d →
      let len := if defKind d = .fixed then defLen d else headerNumber (defKind d) (input s)
      let body := (input s).drop (hdrSize (defKind d))
      (3 < (defEnc d).toNat → fails { code := .invalidEncoder, field := index.toNat }) ∧
      ∀ enc, encodingOf? (defEnc d) = some enc →
        (s.ilen.toNat < hdrSize (defKind d) → fails { code := .truncatedMessage, field := index.toNat }) ∧
        (hdrSize (defKind d) ≤ s.ilen.toNat → ¬DecimalNibbles (input s) (hdrSize (defKind d)) →
          fails { code := .parseLengthFailed, field := index.toNat }) ∧
        (DecimalNibbles (input s) (hdrSize (defKind d)) → s.ilen.toNat < hdrSize (defKind d) + bodySize len enc →
          fails { code := .truncatedMessage, field := index.toNat }) ∧
        (DecimalNibbles (input s) (hdrSize (defKind d)) → hdrSize (defKind d) + bodySize len enc ≤ s.ilen.toNat →
          (∀ kind code dl, d = .scalar kind code dl →
            (enc = .bcd ∨ enc = .rbcd → ¬DecimalNibbles body (ceil2 len) →
              fails { code := .badBcdDigit, field := index.toNat }) ∧
            ((enc = .bcd ∨ enc = .rbcd → DecimalNibbles body (ceil2 len)) →
              s.cfg.valCap < (if enc = .binary then 2 * len else len) →
              fails { code := .internalCodecError, field := index.toNat, cause := .capacity })) ∧
          (∀ kind code dl subs (bodies : List Bytes) (rest : Bytes) sub e, d = .composite kind code dl subs →
            body.take (bodySize len enc) = bodies.flatten ++ rest → (subsList subs)[bodies.length]? = some sub →
            (∀ (k : Nat) (d' : FieldDef) (b : Bytes), (subsList subs)[k]? = some d' → bodies[k]? = some b →
              ∃ v, ∀ tail, decodeField s.cfg index.toNat d' (b ++ tail) = .ok (v, b.length)) →
            decodeField s.cfg index.toNat sub rest = .error e → fails e ∧ e.field = index.toNat))) ∧
    ∀ t, exec (.fieldDec index) s = .next t → t.err ≠ 0 → fieldSlot t index.toNat = none

/-- R152: decoding an encoded field gives the value back and the exact number of bytes consumed, whatever follows it, for
every definition of a well-formed table and every value that satisfies its constraints. -/
def Obligations.FieldRoundTrip : Prop :=
  ∀ (c : Config) (i depth : Nat) (d : FieldDef) (v : FieldValue), defWf depth d = true → roundTrips c d v = true →
    ∃ bs, encodeField c i d v = .ok bs ∧ ∀ rest, decodeField c i d (bs ++ rest) = .ok (v, bs.length)

/-! ## The Bitmap Codec -/

/-- R172 with R171 and R170: BMP_BUILD writes 16 bytes when an index above 64 is set in PRES, else 8; bit 1 says which, and
every other bit is PRES's; SEC and PRES do not change. -/
def Obligations.BmpBuildWritesPresence : Prop :=
  ∀ s : State, configWf s.cfg = true →
    ∃ t, exec .bmpBuild s = .next t ∧ Succeeded t ∧ KeepsMessage s t ∧
      ((∃ i, 64 < i ∧ i ≤ 128 ∧ presBit s.pres i = true) → t.olen.toNat = 16) ∧
      ((∀ i, 64 < i → i ≤ 128 → presBit s.pres i = false) → t.olen.toNat = 8) ∧
      (bitmapBit (output t) 1 = true ↔ t.olen.toNat = 16) ∧
      ∀ i, 2 ≤ i → i ≤ 8 * t.olen.toNat → bitmapBit (output t) i = presBit s.pres i

/-- R174 with R173: BMP_PARSE puts the first bit in SEC and the other bits in PRES, `PRES[1]` 0, indices past the bitmap 0,
and reports 8 or 16; too few bytes for the bitmap its first bit announces is TruncatedMessage, with SEC and PRES cleared. -/
def Obligations.BmpParseReadsPresence : Prop :=
  ∀ s : State,
    (∀ n, n = (if bitmapBit (input s) 1 then 16 else 8) → n ≤ s.ilen.toNat →
      ∃ t, exec .bmpParse s = .next t ∧ Succeeded t ∧ t.msg.sec = bitmapBit (input s) 1 ∧ t.consumed.toNat = n ∧
        presBit t.pres 1 = false ∧ KeepsBytes .obuf 0 s t ∧
        ∀ i, 2 ≤ i → i ≤ 128 → presBit t.pres i = (decide (i ≤ 8 * n) && bitmapBit (input s) i)) ∧
    (s.ilen.toNat < 8 ∨ (bitmapBit (input s) 1 = true ∧ s.ilen.toNat < 16) →
      ∃ t, exec .bmpParse s = .next t ∧ Failed { code := .truncatedMessage } t ∧ t.msg.sec = false ∧ t.pres = 0)

/-- R175: parsing a built bitmap gives the set back in ascending order, whatever follows it; and building from a parsed
bitmap gives its bytes back but for a 16-byte bitmap with nothing above 64, which comes out as 8 bytes without bit 1. -/
def Obligations.BitmapRoundTrip : Prop :=
  (∀ (indices : List Nat) (rest : Bytes), (∀ i ∈ indices, 2 ≤ i ∧ i ≤ 128) →
    bmpParse (bmpBuild indices ++ rest) =
      .ok (indices.any (64 < ·), fieldIndices.filter (fun i => indices.contains i), (bmpBuild indices).length)) ∧
  ∀ (bs : Bytes) (sec : Bool) (indices : List Nat) (n : Nat), bmpParse bs = .ok (sec, indices, n) →
    (sec = false ∨ (∃ i ∈ indices, 64 < i) → bmpBuild indices = bs.take n) ∧
    (sec = true → (∀ i ∈ indices, i ≤ 64) → (bmpBuild indices).length = 8 ∧ bitmapBit (bmpBuild indices) 1 = false ∧
      ∀ i, 2 ≤ i → i ≤ 64 → bitmapBit (bmpBuild indices) i = bitmapBit bs i)

/-! ## The Message Assembler -/

/-- R191, R241, R242, R243: MSG_ENC tests TPDU, then the protocol header, then MTI, before any field is looked at, and
writes nothing when one fails; no other command raises their errors. -/
def Obligations.MsgEncHeaderErrorsInOrder : Prop :=
  ∀ s : State,
    let tpduOk := DigitString s.msg.tpdu s.cfg.tpduDigits
    let hdrOk := ∀ h, s.msg.hdr = some h → DigitString h s.cfg.headerDigits
    let mtiOk := DigitString s.msg.mti 4
    (¬tpduOk → ∃ t, exec .msgEnc s = .next t ∧ Failed { code := .invalidTpdu } t) ∧
    (tpduOk → ¬hdrOk → ∃ t, exec .msgEnc s = .next t ∧ Failed { code := .invalidHeader } t) ∧
    (tpduOk → hdrOk → ¬mtiOk → ∃ t, exec .msgEnc s = .next t ∧ Failed { code := .invalidMti } t) ∧
    ∀ (i : Instr) (t : State), i ≠ .msgEnc → exec i s = .next t → t.err ≠ 1 ∧ t.err ≠ 2 ∧ t.err ≠ 3

/-- R193 with R192: the frame is the optional prefix, TPDU, the protocol header when HDR is `Some`, MTI, the bitmap of the
populated slots, and their encodings in ascending order. More than 65535 bytes behind a prefix are InternalCodecError cause
PrefixOverflow, then more than `BUF_CAP` bytes in all cause Capacity, both with ERRFIELD 0 (log entry 17). -/
def Obligations.MsgEncWritesFrame : Prop :=
  ∀ (s : State) (payload : Nat → Bytes), configWf s.cfg = true → HeadersReady s.cfg s.msg →
    (∀ i v, fieldSlot s i = some v → ∃ d, lookupDef s.cfg.defs i = some d ∧
      encodeField s.cfg i d v = .ok (payload i)) →
    let present := fieldIndices.filter fun i => (fieldSlot s i).isSome
    let frame := packPairs s.msg.tpdu ++ (match s.msg.hdr with | none => [] | some h => packPairs h) ++
      packPairs s.msg.mti ++ bmpBuild present ++ present.flatMap payload
    (s.cfg.lenPfxEn = true → 65535 < frame.length → ∃ t, exec .msgEnc s = .next t ∧
      Failed { code := .internalCodecError, cause := .prefixOverflow } t) ∧
    ((s.cfg.lenPfxEn = true → frame.length ≤ 65535) →
      ((wirePrefix s.cfg frame.length ++ frame).length ≤ s.cfg.bufCap → ∃ t, exec .msgEnc s = .next t ∧
        Succeeded t ∧ output t = wirePrefix s.cfg frame.length ++ frame) ∧
      (s.cfg.bufCap < (wirePrefix s.cfg frame.length ++ frame).length → ∃ t, exec .msgEnc s = .next t ∧
        Failed { code := .internalCodecError, cause := .capacity } t))

/-- R192, R255: MSG_ENC ends at the lowest populated slot that fails: with UndefinedField when the slot has no table entry, else
with the error its value's encoding gives, which carries the index. -/
def Obligations.MsgEncUndefinedField : Prop :=
  ∀ (s : State) (i : Nat) (v : FieldValue), HeadersReady s.cfg s.msg → fieldSlot s i = some v →
    (∀ j w, j < i → fieldSlot s j = some w → ∃ d bs, lookupDef s.cfg.defs j = some d ∧
      encodeField s.cfg j d w = .ok bs) →
    (lookupDef s.cfg.defs i = none →
      ∃ t, exec .msgEnc s = .next t ∧ Failed { code := .undefinedField, field := i } t) ∧
    (∀ d e, configWf s.cfg = true → slotFits s.cfg (some v) = true → lookupDef s.cfg.defs i = some d →
      encodeField s.cfg i d v = .error e → ∃ t, exec .msgEnc s = .next t ∧ Failed e t ∧ e.field = i)

/-- R195 with R194: MSG_DEC replaces the whole message register file by what the frame says and reports the bytes it used;
slots not indicated become Empty. -/
def Obligations.MsgDecReadsFrame : Prop :=
  ∀ (s : State) (tp hd mt bm surplus tail : Bytes) (payload : Nat → Bytes) (value : Nat → FieldValue),
    configWf s.cfg = true →
    ReceivedFrame s tp hd mt bm ((indicated bm).flatMap payload ++ surplus) tail →
    (∀ i ∈ indicated bm, ∃ d, lookupDef s.cfg.defs i = some d ∧
      ∀ more, decodeField s.cfg i d (payload i ++ more) = .ok (value i, (payload i).length)) →
    ∃ t, exec .msgDec s = .next t ∧ Succeeded t ∧
      t.msg.tpdu.length = s.cfg.tpduDigits ∧
      (∀ k, k < s.cfg.tpduDigits → t.msg.tpdu.getD k 0 = dchr (nibbleAt tp k)) ∧
      (s.cfg.headerEn = false → t.msg.hdr = none) ∧
      (s.cfg.headerEn = true → ∃ h, t.msg.hdr = some h ∧ h.length = s.cfg.headerDigits ∧
        ∀ k, k < s.cfg.headerDigits → h.getD k 0 = dchr (nibbleAt hd k)) ∧
      t.msg.mti.length = 4 ∧ (∀ k, k < 4 → t.msg.mti.getD k 0 = dchr (nibbleAt mt k)) ∧
      t.msg.sec = bitmapBit bm 1 ∧
      (∀ i, fieldSlot t i = if (indicated bm).contains i then some (value i) else none) ∧
      t.consumed.toNat = (if s.cfg.lenPfxEn then 2 else 0) + (tp ++ hd ++ mt ++ bm).length +
        ((indicated bm).flatMap payload).length

/-- R194 with R247 and R255: MSG_DEC ends at the lowest indicated index that fails, after every lower field has decoded: with
UndefinedField when it has no table entry, with TruncatedMessage when the frame ends within its header or body, and else
with the error its decoding gives; each with that index, and the whole message register file is cleared. -/
def Obligations.MsgDecUndefinedFieldClears : Prop :=
  ∀ (s : State) (tp hd mt bm rest tail : Bytes) (i : Nat) (payload : Nat → Bytes),
    configWf s.cfg = true →
    ReceivedFrame s tp hd mt bm (((indicated bm).filter (· < i)).flatMap payload ++ rest) tail →
    i ∈ indicated bm →
    (∀ j ∈ indicated bm, j < i → ∃ d v, lookupDef s.cfg.defs j = some d ∧
      ∀ more, decodeField s.cfg j d (payload j ++ more) = .ok (v, (payload j).length)) →
    (lookupDef s.cfg.defs i = none → FailsCleared .msgDec { code := .undefinedField, field := i } s) ∧
    (∀ d enc, lookupDef s.cfg.defs i = some d → encodingOf? (defEnc d) = some enc →
      rest.length < hdrSize (defKind d) ∨ (DecimalNibbles rest (hdrSize (defKind d)) ∧ rest.length <
        hdrSize (defKind d) + bodySize (if defKind d = .fixed then defLen d else headerNumber (defKind d) rest) enc) →
      FailsCleared .msgDec { code := .truncatedMessage, field := i } s) ∧
    (∀ d e, lookupDef s.cfg.defs i = some d → decodeField s.cfg i d rest = .error e →
      FailsCleared .msgDec e s ∧ e.field = i)

/-- R194 with R191, R245, R247 and R255: what MSG_DEC refuses before the fields, in its order, each with ERRFIELD 0 and the whole
message register file cleared: an input shorter than the total-length prefix or than it announces; then, in the announced
bytes `raw`, a TPDU, a protocol header when expected, and an MTI that is short, holds a nibble above 9, or (log entry 8) is
over `VAL_CAP`; then too few bytes for the bitmap. A frame short in a field is in `MsgDecUndefinedFieldClears`. -/
def Obligations.MsgDecRefusesShortFrames : Prop :=
  ∀ (s : State) (raw : Bytes), configWf s.cfg = true →
    let announced := 256 * ((input s).getD 0 0).toNat + ((input s).getD 1 0).toNat
    let c := s.cfg
    let tpduEnd := c.tpduDigits / 2
    let headerEnd := tpduEnd + if c.headerEn then c.headerDigits / 2 else 0
    let bitmap := raw.drop (headerEnd + 2)
    (c.lenPfxEn = true → s.ilen.toNat < 2 ∨ s.ilen.toNat < 2 + announced →
      FailsCleared .msgDec { code := .truncatedMessage } s) ∧
    ((c.lenPfxEn = true → 2 + announced ≤ s.ilen.toNat ∧ raw = ((input s).drop 2).take announced) →
      (c.lenPfxEn = false → raw = input s) →
      (∀ e, DigitsFail c raw c.tpduDigits e → FailsCleared .msgDec e s) ∧
      (DigitsReady c raw c.tpduDigits →
        (c.headerEn = true → ∀ e, DigitsFail c (raw.drop tpduEnd) c.headerDigits e → FailsCleared .msgDec e s) ∧
        ((c.headerEn = true → DigitsReady c (raw.drop tpduEnd) c.headerDigits) →
          (∀ e, DigitsFail c (raw.drop headerEnd) 4 e → FailsCleared .msgDec e s) ∧
          (DigitsReady c (raw.drop headerEnd) 4 →
            bitmap.length < 8 ∨ (bitmapBit bitmap 1 = true ∧ bitmap.length < 16) →
            FailsCleared .msgDec { code := .truncatedMessage } s))))

/-- R199: what MSG_ENC sends, MSG_DEC's decoder reads back: the same TPDU, protocol header, MTI and slots, SEC telling
whether an index exceeds 64, and the length of the frame consumed. -/
def Obligations.MessageRoundTrip : Prop :=
  ∀ (c : Config) (m : Message) (frame : Bytes), configWf c = true →
    (c.headerEn = true ↔ m.hdr.isSome = true) →
    stringFits c m.tpdu = true → headerFits c m.hdr = true →
    (∀ i d v, m.slots.get i = some v → lookupDef c.defs i = some d → roundTrips c d v = true) →
    msgEncode c m = .ok frame →
    ∃ m', msgDecode c frame = .ok (m', frame.length) ∧ m'.tpdu = m.tpdu ∧ m'.hdr = m.hdr ∧ m'.mti = m.mti ∧
      (∀ i, m'.slots.get i = m.slots.get i) ∧ m'.sec = (populated m.slots).any (64 < ·)

/-! ## The Retail MAC unit -/

/-- R223 with R222 and R220: the MAC under an 8-byte key, whatever the cipher `E` is: the input folded to 8 bytes by position
modulo 8, its hex text encrypted in two halves, the first 8 hex characters of the result. Without the unit the command is
IllegalCommand cause MacAbsent; with it a key that is not 8 bytes is InvalidKeyLength. -/
def Obligations.MacComputesHexOfCipher : Prop :=
  ∀ s : State,
    (configWf s.cfg = true → s.cfg.hasMac = true → s.klen = 8 →
      ∃ (t : State) (acc : Block), exec .mac s = .next t ∧ Succeeded t ∧ t.olen = 8 ∧ KeepsInputs s t ∧
        KeepsMessage s t ∧
        (∀ j : Fin 8, acc[j] = ((List.range s.ilen.toNat).filter (· % 8 = j.val)).foldl
          (fun x p => x ^^^ (input s).getD p 0) 0) ∧
        output t = (hexenc (Config.E (toBlock (keyBytes s)) (xorBlock
          (Config.E (toBlock (keyBytes s)) (toBlock ((hexenc acc.toList).take 8)))
          (toBlock ((hexenc acc.toList).drop 8)))).toList).take 8) ∧
    (s.cfg.hasMac = false →
      ∃ t, exec .mac s = .next t ∧ Failed { code := .illegalCommand, cause := .macAbsent } t) ∧
    (s.cfg.hasMac = true → s.klen ≠ 8 → ∃ t, exec .mac s = .next t ∧ Failed { code := .invalidKeyLength } t)

/-- R225's counterexample to "changing any single bit": a trailing zero byte inside the last block does not change the MAC,
for any cipher. -/
def Obligations.MacIgnoresTrailingZero : Prop :=
  ∀ (cipher : Block → Block → Block) (key data : Bytes), data.length % 8 ≠ 0 →
    macComputeWith cipher key (data ++ [0]) = macComputeWith cipher key data

/-! ## Frames and errors -/

/-- The frame of the commands that write OBUF (the access table after R25): message registers, PRES, inputs, PROTO and the
configuration unchanged, RES and CONSUMED 0, and every byte of every buffer as before but the OLEN bytes emitted from
offset 0. -/
def Obligations.OutputCommandsFrame : Prop :=
  ∀ (s t : State) (n len : BitVec 16) (x : BitVec 8), configWf s.cfg = true →
    ∀ i ∈ [Instr.packLbcd, Instr.packRbcd, Instr.unpackL n, Instr.unpackR n, Instr.encLen x len, Instr.fieldEnc x,
        Instr.bmpBuild, Instr.msgEnc, Instr.mac],
      exec i s = .next t →
      KeepsInputs s t ∧ KeepsMessage s t ∧ t.res = 0 ∧ t.consumed = 0 ∧
      KeepsBytes .ibuf 0 s t ∧ KeepsBytes .key 0 s t ∧ KeepsBytes .obuf t.olen.toNat s t

/-- The frame of the decoding commands (the access table after R25): no byte of any buffer changes, OLEN is 0, and each
changes only its own destination: RES; slot `i`; SEC and PRES; the message register file. -/
def Obligations.DecodingCommandsFrame : Prop :=
  ∀ (s t : State) (x : BitVec 8),
    ∀ i ∈ [Instr.decLen x, Instr.fieldDec x, Instr.bmpParse, Instr.msgDec], exec i s = .next t →
      KeepsInputs s t ∧ t.olen = 0 ∧ (∀ id, KeepsBytes id 0 s t) ∧
      (i = .decLen x → KeepsMessage s t) ∧
      (i ≠ .decLen x → t.res = 0) ∧
      (i = .fieldDec x → t.pres = s.pres ∧ t.msg.tpdu = s.msg.tpdu ∧ t.msg.hdr = s.msg.hdr ∧ t.msg.mti = s.msg.mti ∧
        t.msg.sec = s.msg.sec ∧ ∀ j, j ≠ x.toNat → fieldSlot t j = fieldSlot s j) ∧
      (i = .bmpParse → t.msg.tpdu = s.msg.tpdu ∧ t.msg.hdr = s.msg.hdr ∧ t.msg.mti = s.msg.mti ∧
        t.msg.slots = s.msg.slots) ∧
      (i = .msgDec → t.pres = s.pres)

/-- R256: a command that ends in an error has OLEN, RES and CONSUMED 0, writes no buffer byte, and its destination is
invalidated unless the error is IllegalCommand. -/
def Obligations.ErrorInvalidatesDestination : Prop :=
  ∀ (i : Instr) (s t : State), exec i s = .next t → t.err ≠ 0 →
    t.errf = true ∧ t.done = true ∧ t.busy = false ∧ t.olen = 0 ∧ t.res = 0 ∧ t.consumed = 0 ∧ KeepsInputs s t ∧
    (∀ id, KeepsBytes id 0 s t) ∧
    (t.err ≠ 13 → (∀ x, i = .fieldDec x → fieldSlot t x.toNat = none) ∧
      (i = .bmpParse → t.msg.sec = false ∧ t.pres = 0) ∧ (i = .msgDec → t.msg = Message.empty)) ∧
    (t.err = 13 → KeepsMessage s t)

/-- R257 with R256: after a failed command the state is the state before it, with the error registers set, STATUS updated,
OLEN, RES and CONSUMED 0 and the destination invalidated unless the error is IllegalCommand; and issued again, the command
gives the same error and the same state. -/
def Obligations.FailedCommandsArePrecise : Prop :=
  ∀ (i : Instr) (s t : State), exec i s = .next t → t.err ≠ 0 →
    t = { (if t.err = 13 then s else
            match i with
            | .fieldDec x => setFieldSlot x.toNat none s
            | .bmpParse => { s with msg := { s.msg with sec := false }, pres := 0 }
            | .msgDec => { s with msg := Message.empty }
            | _ => s) with
          err := t.err, errField := t.errField, errDecl := t.errDecl, errAct := t.errAct, errCause := t.errCause,
          olen := 0, res := 0, consumed := 0, busy := false, done := true, errf := true } ∧
    exec i t = .next t

/-- R241 to R252, "raised by": each error code can come only from the commands that the code's rule names. -/
def Obligations.ErrorsComeFromTheirCommands : Prop :=
  ∀ (i : Instr) (s t : State), configWf s.cfg = true → s.ilen.toNat ≤ s.cfg.bufCap → exec i s = .next t →
    (t.err = 1 ∨ t.err = 2 ∨ t.err = 3 → i = .msgEnc) ∧
    (t.err = 4 → i = .msgEnc ∨ (∃ x, i = .fieldEnc x) ∨ ∃ x len, i = .encLen x len) ∧
    (t.err = 5 → i ∈ [Instr.packLbcd, .packRbcd, .msgEnc, .msgDec] ∨
      ∃ n x, i ∈ [Instr.unpackL n, .unpackR n, .fieldEnc x, .fieldDec x]) ∧
    (t.err = 6 → i = .msgDec ∨ ∃ x, i ∈ [Instr.decLen x, .fieldDec x]) ∧
    (t.err = 7 → i ∈ [Instr.bmpParse, .msgDec] ∨ ∃ n x, i ∈ [Instr.unpackL n, .unpackR n, .decLen x, .fieldDec x]) ∧
    (t.err = 8 ∨ t.err = 9 → i ∈ [Instr.msgEnc, .msgDec] ∨ ∃ x, i ∈ [Instr.fieldEnc x, .fieldDec x]) ∧
    (t.err = 10 → i = .msgEnc ∨ ∃ x, i = .fieldEnc x) ∧
    (t.err = 11 → i = .mac) ∧
    (t.err = 12 → i ∈ [Instr.msgEnc, .msgDec] ∨ ∃ n x, i ∈ [Instr.unpackL n, .unpackR n, .fieldEnc x, .fieldDec x]) ∧
    (t.err = 13 → i = .mac ∨ ∃ x len, i ∈ [Instr.encLen x len, .decLen x, .fieldEnc x, .fieldDec x])

/-- R281 (c): what each command does straight after reset. FIELD_DEC is TruncatedMessage where the table has an entry of a
supported encoding that takes at least one byte (elsewhere R151 and R153 give it another outcome). -/
def Obligations.CommandsAfterReset : Prop :=
  ∀ (c : Config) (n : BitVec 16) (x : BitVec 8), configWf c = true → n ≠ 0 →
    let s := State.resetWith c
    (∃ t, exec .msgEnc s = .next t ∧ Failed { code := .invalidTpdu } t) ∧
    (∀ i ∈ [Instr.msgDec, .bmpParse, .unpackL n, .unpackR n],
      ∃ t, exec i s = .next t ∧ Failed { code := .truncatedMessage } t) ∧
    (1 ≤ x.toNat → x.toNat ≤ 3 → ∃ t, exec (.decLen x) s = .next t ∧ Failed { code := .truncatedMessage } t) ∧
    (c.hasMac = true → ∃ t, exec .mac s = .next t ∧ Failed { code := .invalidKeyLength } t) ∧
    (∃ t, exec .bmpBuild s = .next t ∧ Succeeded t ∧ output t = List.replicate 8 0) ∧
    (∀ i ∈ [Instr.packLbcd, .packRbcd, .unpackL 0, .unpackR 0], ∃ t, exec i s = .next t ∧ Succeeded t ∧ t.olen = 0) ∧
    (∀ kind len, KindNamed x kind → len.toNat ≤ lenMax kind →
      ∃ t, exec (.encLen x len) s = .next t ∧ Succeeded t ∧ t.olen.toNat = hdrSize kind) ∧
    (2 ≤ x.toNat → x.toNat ≤ 128 → ∃ t, exec (.fieldEnc x) s = .next t ∧
      Failed { code := .illegalCommand, field := x.toNat, cause := .emptySlot } t) ∧
    (∀ d enc, lookupDef c.defs x.toNat = some d → encodingOf? (defEnc d) = some enc →
      defKind d ≠ .fixed ∨ 0 < defLen d →
      ∃ t, exec (.fieldDec x) s = .next t ∧ Failed { code := .truncatedMessage, field := x.toNat } t)

/-! ## The host's port -/

/-- R39: writing CMD in IDLE starts the command in one step: CMD, BUSY, and every result and error register 0. -/
def Obligations.WriteCmdStartsCommand : Prop :=
  ∀ (s : State) (w : Word), s.busy = false →
    ∃ t, hostMove (.writeCMD w) s = t ∧ hostMove (.writeReg 0 w) s = t ∧ t.cmd = w ∧ t.busy = true ∧ t.done = false ∧
      t.errf = false ∧ t.proto = s.proto ∧ NoError t ∧ t.res = 0 ∧ t.consumed = 0 ∧ t.olen = 0 ∧ KeepsMessage s t ∧
      (∀ id, KeepsBytes id 0 s t) ∧ t.ilen = s.ilen ∧ t.klen = s.klen ∧ t.cfg = s.cfg

/-- R282, R37: while BUSY a write is dropped and sets PROTO, a read of anything but STATUS has no effect but its reply, and
a read of STATUS answers the number R29 lays out, with BUSY set, and changes nothing else. -/
def Obligations.BusyHostAccessIsDropped : Prop :=
  ∀ (s : State) (m : HostMove), s.busy = true →
    (m = .readReg 1 → ∃ v : Word, hostMove m s = { s with reply := .word v } ∧
      v.toNat = 1 + 2 * s.done.toNat + 4 * s.errf.toNat + 8 * s.proto.toNat) ∧
    (m ∈ [HostMove.readOBUF, .getTPDU, .getHDR, .getMTI] ∨ (∃ i, m = .getField i) ∨ (∃ n, n ≠ 1 ∧ m = .readReg n) →
      ∃ r, hostMove m s = { s with reply := r, freeReads := s.freeReads + 1 }) ∧
    (m = .clearMsg ∨ (∃ bs, m ∈ [HostMove.writeIBUF bs, .writeKEY bs, .setTPDU bs, .setMTI bs]) ∨ (∃ o, m = .setHDR o) ∨
        (∃ i x, m = .setField i x) ∨ (∃ n v, m = .writeReg n v) ∨ (∃ w, m = .writeCMD w) →
      hostMove m s = setProto s)

/-- R37: a buffer write in IDLE stores the bytes from offset 0 and sets the length register; one over the capacity, or of KEY
without the MAC unit, is dropped whole and sets PROTO (R262). That the bytes of IBUF or KEY beyond the new length are kept
(U3: `any value`) is the model's choice, log entry 22. -/
def Obligations.HostBufferWrites : Prop :=
  ∀ (s : State) (bs : Bytes), configWf s.cfg = true → s.busy = false →
    (bs.length ≤ s.cfg.bufCap → ∃ t, hostMove (.writeIBUF bs) s = t ∧ input t = bs ∧ t.ilen.toNat = bs.length ∧
      KeepsBytes .ibuf bs.length s t ∧ KeepsBytes .obuf 0 s t ∧ KeepsBytes .key 0 s t ∧ KeepsMessage s t ∧
      t.proto = s.proto) ∧
    (s.cfg.bufCap < bs.length → hostMove (.writeIBUF bs) s = setProto s) ∧
    (s.cfg.hasMac = true → bs.length ≤ 255 → ∃ t, hostMove (.writeKEY bs) s = t ∧ keyBytes t = bs ∧
      t.klen.toNat = bs.length ∧ KeepsBytes .key bs.length s t ∧ KeepsBytes .ibuf 0 s t ∧ KeepsBytes .obuf 0 s t ∧
      KeepsMessage s t ∧ t.proto = s.proto) ∧
    (s.cfg.hasMac = false ∨ 255 < bs.length → hostMove (.writeKEY bs) s = setProto s)

/-- R37, R24: a slot write in IDLE sets that slot alone; a write of `F[1]`, of an index outside 1 to 128, or of a value over
capacity is dropped and sets PROTO; `F[1]` reads Empty always. How the nesting of a value is counted against `SUB_DEPTH` is
the model's inference, log entry 12. -/
def Obligations.HostSlotWrites : Prop :=
  ∀ (s : State) (i : Nat) (x : Option FieldValue), s.busy = false →
    (2 ≤ i → i ≤ 128 → slotFits s.cfg x = true → ∃ t, hostMove (.setField i x) s = t ∧ fieldSlot t i = x ∧
      (∀ j, j ≠ i → fieldSlot t j = fieldSlot s j) ∧ t.pres = s.pres ∧ t.msg.tpdu = s.msg.tpdu ∧
      t.msg.hdr = s.msg.hdr ∧ t.msg.mti = s.msg.mti ∧ t.msg.sec = s.msg.sec ∧ t.proto = s.proto) ∧
    (i < 2 ∨ 128 < i ∨ slotFits s.cfg x = false → hostMove (.setField i x) s = setProto s) ∧
    fieldSlot s 1 = none

/-- R37, R21: in IDLE a set move writes its message register when the string is within `VAL_CAP` and is dropped when it is
not, HostClearMsg empties the whole file, and a get move or a read of OBUF answers the register and changes nothing else.
That a slot read outside 1 to 128 answers Empty is the model's choice, log entry 13. -/
def Obligations.HostMessageMoves : Prop :=
  ∀ (s : State) (x : Bytes) (i : Nat), s.busy = false →
    (x.length ≤ s.cfg.valCap →
      hostMove (.setTPDU x) s = { s with msg := { s.msg with tpdu := x } } ∧
      hostMove (.setMTI x) s = { s with msg := { s.msg with mti := x } } ∧
      hostMove (.setHDR (some x)) s = { s with msg := { s.msg with hdr := some x } }) ∧
    (s.cfg.valCap < x.length → ∀ m ∈ [HostMove.setTPDU x, .setMTI x, .setHDR (some x)], hostMove m s = setProto s) ∧
    hostMove (.setHDR none) s = { s with msg := { s.msg with hdr := none } } ∧
    (∃ t, hostMove .clearMsg s = { s with msg := t } ∧ t.tpdu = [] ∧ t.hdr = none ∧ t.mti = [] ∧ t.sec = false ∧
      ∀ k, t.slots.get k = none) ∧
    hostMove .getTPDU s = { s with reply := .bytes s.msg.tpdu } ∧
    hostMove .getMTI s = { s with reply := .bytes s.msg.mti } ∧
    hostMove .getHDR s = { s with reply := .header s.msg.hdr } ∧
    hostMove (.getField i) s = { s with reply := .slot (fieldSlot s i) } ∧
    hostMove .readOBUF s = { s with reply := .bytes (output s) }

/-- R29: PROTO is sticky: every step but a reset keeps it. -/
def Obligations.ProtoIsSticky : Prop :=
  ∀ s t : State, s.proto = true → (∀ rest, s.pending ≠ .reset :: rest) → step s = .next t → t.proto = true

/-- R30, R59: no command, no host move and no reset changes the configuration. -/
def Obligations.ConfigurationNeverChanges : Prop :=
  ∀ s t : State, step s = .next t → t.cfg = s.cfg

/-- R32: index `i` is bit `31 - ((i-1) % 32)` of word `(i-1) / 32`; HostReadReg of PRESk in IDLE answers that word and changes
nothing else; a host write of PRESk sets that word's indices and no other; and PRES read as sixteen bytes is laid out as a
bitmap. -/
def Obligations.PresWordLayout : Prop :=
  ∀ (s : State) (k i : Nat) (v : Word), k < 4 → 1 ≤ i → i ≤ 128 → s.busy = false →
    presBit s.pres i = (presWord s.pres ((i - 1) / 32)).getLsbD (31 - (i - 1) % 32) ∧
    hostMove (.readReg (0x10 + k)) s = { s with reply := .word (presWord s.pres k) } ∧
    presBit (hostMove (.writeReg (0x10 + k) v) s).pres i =
      (if (i - 1) / 32 = k then v.getLsbD (31 - (i - 1) % 32) else presBit s.pres i) ∧
    ∀ bm : Bytes, bm.length = 16 → (∀ b, b < 16 → bm.getD b 0 = s.pres.extractLsb' (120 - 8 * b) 8) →
      bitmapBit bm i = presBit s.pres i

/-- R29: in every state STATUS is BUSY in bit 0, DONE in bit 1, ERRF in bit 2, PROTO in bit 3, and 0 in bits [7:4]. R28 with
R220: HostReadReg in IDLE answers the register and changes nothing else (that the answer is a 32-bit word is the
model's choice, log entry 16); what each number reads; an unlisted number reads 0; a write of an unlisted or read-only
number is dropped; ILEN, KLEN and SEC take a legal value. Writes of CMD and the PRES words are in `WriteCmdStartsCommand`
and `PresWordLayout`. -/
def Obligations.RegisterMap : Prop :=
  (∀ s : State, (statusByte s).toNat =
    s.busy.toNat + 2 * s.done.toNat + 4 * s.errf.toNat + 8 * s.proto.toNat) ∧
  ∀ (s : State) (v : Word), s.busy = false →
    (∀ n, hostMove (.readReg n) s = { s with reply := .word (readReg s n) }) ∧
    [0x00, 0x05, 0x08, 0x09, 0x0A].map (readReg s) = [s.cmd, s.errAct, s.consumed, s.ilen, s.olen] ∧
    [0x01, 0x02, 0x03, 0x06].map (fun n => (readReg s n).toNat) =
      [(statusByte s).toNat, s.err.toNat, s.errField.toNat, s.errCause.toNat] ∧
    (readReg s 0x04).toNat = s.errDecl.toNat ∧ (readReg s 0x07).toNat = s.res.toNat ∧
    (readReg s 0x0B).toNat = (if s.cfg.hasMac then s.klen.toNat else 0) ∧
    (readReg s 0x0C).toNat = (if s.msg.sec then 1 else 0) ∧
    (∀ n, n ∉ List.range 0x0D ++ [0x10, 0x11, 0x12, 0x13] →
      readReg s n = 0 ∧ hostMove (.writeReg n v) s = setProto s) ∧
    (∀ n ∈ [0x01, 0x02, 0x03, 0x04, 0x05, 0x06, 0x07, 0x08, 0x0A],
      hostMove (.writeReg n v) s = setProto s) ∧
    (v.toNat ≤ s.cfg.bufCap → hostMove (.writeReg 0x09 v) s = { s with ilen := v }) ∧
    (s.cfg.bufCap < v.toNat → hostMove (.writeReg 0x09 v) s = setProto s) ∧
    (s.cfg.hasMac = true → v.toNat ≤ 255 → hostMove (.writeReg 0x0B v) s = { s with klen := v.setWidth 8 }) ∧
    (s.cfg.hasMac = false → hostMove (.writeReg 0x0B v) s = setProto s) ∧
    (v.toNat ≤ 1 → hostMove (.writeReg 0x0C v) s = { s with msg := { s.msg with sec := decide (v.toNat = 1) } })

/-- R240, R252, R253: the number of every error code in ERR and of every cause in ERRCAUSE, as the two tables list them. -/
def Obligations.ErrorCodesAndCausesAreNumbered : Prop :=
  (∀ code : ErrCode, (errNumber code).toNat =
    match code with
    | .invalidTpdu => 1
    | .invalidHeader => 2
    | .invalidMti => 3
    | .valueTooLong => 4
    | .badBcdDigit => 5
    | .parseLengthFailed => 6
    | .truncatedMessage => 7
    | .undefinedField => 8
    | .invalidEncoder => 9
    | .invalidHex => 10
    | .invalidKeyLength => 11
    | .internalCodecError => 12
    | .illegalCommand => 13) ∧
  ∀ cause : ErrCause, (causeNumber cause).toNat =
    match cause with
    | .none => 0
    | .unknownOpcode => 1
    | .reservedBits => 2
    | .badKind => 3
    | .badIndex => 4
    | .emptySlot => 5
    | .lengthMismatch => 6
    | .shapeMismatch => 7
    | .capacity => 8
    | .prefixOverflow => 9
    | .macAbsent => 10
end

