-- ==== Sys2Proof/Laws/State.lean ====
section
/-! SUPPORT. The small lemmas of the named updates of State: what each field is after each update, true by rfl, so that no
later proof unfolds a record update. -/

namespace Sys2Proof.Machine

/-! ## withPending -/

@[simp] theorem withPending_msg (es : List Event) (s : State) : (withPending es s).msg = s.msg := rfl
@[simp] theorem withPending_pres (es : List Event) (s : State) : (withPending es s).pres = s.pres := rfl
@[simp] theorem withPending_ibuf (es : List Event) (s : State) : (withPending es s).ibuf = s.ibuf := rfl
@[simp] theorem withPending_obuf (es : List Event) (s : State) : (withPending es s).obuf = s.obuf := rfl
@[simp] theorem withPending_key (es : List Event) (s : State) : (withPending es s).key = s.key := rfl
@[simp] theorem withPending_ilen (es : List Event) (s : State) : (withPending es s).ilen = s.ilen := rfl
@[simp] theorem withPending_olen (es : List Event) (s : State) : (withPending es s).olen = s.olen := rfl
@[simp] theorem withPending_klen (es : List Event) (s : State) : (withPending es s).klen = s.klen := rfl
@[simp] theorem withPending_cmd (es : List Event) (s : State) : (withPending es s).cmd = s.cmd := rfl
@[simp] theorem withPending_busy (es : List Event) (s : State) : (withPending es s).busy = s.busy := rfl
@[simp] theorem withPending_done (es : List Event) (s : State) : (withPending es s).done = s.done := rfl
@[simp] theorem withPending_errf (es : List Event) (s : State) : (withPending es s).errf = s.errf := rfl
@[simp] theorem withPending_proto (es : List Event) (s : State) : (withPending es s).proto = s.proto := rfl
@[simp] theorem withPending_err (es : List Event) (s : State) : (withPending es s).err = s.err := rfl
@[simp] theorem withPending_errField (es : List Event) (s : State) : (withPending es s).errField = s.errField := rfl
@[simp] theorem withPending_errDecl (es : List Event) (s : State) : (withPending es s).errDecl = s.errDecl := rfl
@[simp] theorem withPending_errAct (es : List Event) (s : State) : (withPending es s).errAct = s.errAct := rfl
@[simp] theorem withPending_errCause (es : List Event) (s : State) : (withPending es s).errCause = s.errCause := rfl
@[simp] theorem withPending_res (es : List Event) (s : State) : (withPending es s).res = s.res := rfl
@[simp] theorem withPending_consumed (es : List Event) (s : State) : (withPending es s).consumed = s.consumed := rfl
@[simp] theorem withPending_cfg (es : List Event) (s : State) : (withPending es s).cfg = s.cfg := rfl
@[simp] theorem withPending_pending (es : List Event) (s : State) : (withPending es s).pending = es := rfl
@[simp] theorem withPending_reply (es : List Event) (s : State) : (withPending es s).reply = s.reply := rfl
@[simp] theorem withPending_freeReads (es : List Event) (s : State) : (withPending es s).freeReads = s.freeReads := rfl
@[simp] theorem withPending_resets (es : List Event) (s : State) : (withPending es s).resets = s.resets := rfl

/-! ## setProto -/

@[simp] theorem setProto_msg (s : State) : (setProto s).msg = s.msg := rfl
@[simp] theorem setProto_pres (s : State) : (setProto s).pres = s.pres := rfl
@[simp] theorem setProto_ibuf (s : State) : (setProto s).ibuf = s.ibuf := rfl
@[simp] theorem setProto_obuf (s : State) : (setProto s).obuf = s.obuf := rfl
@[simp] theorem setProto_key (s : State) : (setProto s).key = s.key := rfl
@[simp] theorem setProto_ilen (s : State) : (setProto s).ilen = s.ilen := rfl
@[simp] theorem setProto_olen (s : State) : (setProto s).olen = s.olen := rfl
@[simp] theorem setProto_klen (s : State) : (setProto s).klen = s.klen := rfl
@[simp] theorem setProto_cmd (s : State) : (setProto s).cmd = s.cmd := rfl
@[simp] theorem setProto_busy (s : State) : (setProto s).busy = s.busy := rfl
@[simp] theorem setProto_done (s : State) : (setProto s).done = s.done := rfl
@[simp] theorem setProto_errf (s : State) : (setProto s).errf = s.errf := rfl
@[simp] theorem setProto_proto (s : State) : (setProto s).proto = true := rfl
@[simp] theorem setProto_err (s : State) : (setProto s).err = s.err := rfl
@[simp] theorem setProto_errField (s : State) : (setProto s).errField = s.errField := rfl
@[simp] theorem setProto_errDecl (s : State) : (setProto s).errDecl = s.errDecl := rfl
@[simp] theorem setProto_errAct (s : State) : (setProto s).errAct = s.errAct := rfl
@[simp] theorem setProto_errCause (s : State) : (setProto s).errCause = s.errCause := rfl
@[simp] theorem setProto_res (s : State) : (setProto s).res = s.res := rfl
@[simp] theorem setProto_consumed (s : State) : (setProto s).consumed = s.consumed := rfl
@[simp] theorem setProto_cfg (s : State) : (setProto s).cfg = s.cfg := rfl
@[simp] theorem setProto_pending (s : State) : (setProto s).pending = s.pending := rfl
@[simp] theorem setProto_reply (s : State) : (setProto s).reply = s.reply := rfl
@[simp] theorem setProto_freeReads (s : State) : (setProto s).freeReads = s.freeReads := rfl
@[simp] theorem setProto_resets (s : State) : (setProto s).resets = s.resets := rfl

/-! ## memWrite -/

@[simp] theorem memWrite_msg (s : State) (a : Nat) (v : Bytes) : (memWrite s a v).msg = s.msg := rfl
@[simp] theorem memWrite_pres (s : State) (a : Nat) (v : Bytes) : (memWrite s a v).pres = s.pres := rfl
@[simp] theorem memWrite_ibuf (s : State) (a : Nat) (v : Bytes) : (memWrite s a v).ibuf = s.ibuf := rfl
@[simp] theorem memWrite_obuf (s : State) (a : Nat) (v : Bytes) : (memWrite s a v).obuf = s.obuf.write a v := rfl
@[simp] theorem memWrite_key (s : State) (a : Nat) (v : Bytes) : (memWrite s a v).key = s.key := rfl
@[simp] theorem memWrite_ilen (s : State) (a : Nat) (v : Bytes) : (memWrite s a v).ilen = s.ilen := rfl
@[simp] theorem memWrite_olen (s : State) (a : Nat) (v : Bytes) : (memWrite s a v).olen = s.olen := rfl
@[simp] theorem memWrite_klen (s : State) (a : Nat) (v : Bytes) : (memWrite s a v).klen = s.klen := rfl
@[simp] theorem memWrite_cmd (s : State) (a : Nat) (v : Bytes) : (memWrite s a v).cmd = s.cmd := rfl
@[simp] theorem memWrite_busy (s : State) (a : Nat) (v : Bytes) : (memWrite s a v).busy = s.busy := rfl
@[simp] theorem memWrite_done (s : State) (a : Nat) (v : Bytes) : (memWrite s a v).done = s.done := rfl
@[simp] theorem memWrite_errf (s : State) (a : Nat) (v : Bytes) : (memWrite s a v).errf = s.errf := rfl
@[simp] theorem memWrite_proto (s : State) (a : Nat) (v : Bytes) : (memWrite s a v).proto = s.proto := rfl
@[simp] theorem memWrite_err (s : State) (a : Nat) (v : Bytes) : (memWrite s a v).err = s.err := rfl
@[simp] theorem memWrite_errField (s : State) (a : Nat) (v : Bytes) : (memWrite s a v).errField = s.errField := rfl
@[simp] theorem memWrite_errDecl (s : State) (a : Nat) (v : Bytes) : (memWrite s a v).errDecl = s.errDecl := rfl
@[simp] theorem memWrite_errAct (s : State) (a : Nat) (v : Bytes) : (memWrite s a v).errAct = s.errAct := rfl
@[simp] theorem memWrite_errCause (s : State) (a : Nat) (v : Bytes) : (memWrite s a v).errCause = s.errCause := rfl
@[simp] theorem memWrite_res (s : State) (a : Nat) (v : Bytes) : (memWrite s a v).res = s.res := rfl
@[simp] theorem memWrite_consumed (s : State) (a : Nat) (v : Bytes) : (memWrite s a v).consumed = s.consumed := rfl
@[simp] theorem memWrite_cfg (s : State) (a : Nat) (v : Bytes) : (memWrite s a v).cfg = s.cfg := rfl
@[simp] theorem memWrite_pending (s : State) (a : Nat) (v : Bytes) : (memWrite s a v).pending = s.pending := rfl
@[simp] theorem memWrite_reply (s : State) (a : Nat) (v : Bytes) : (memWrite s a v).reply = s.reply := rfl
@[simp] theorem memWrite_freeReads (s : State) (a : Nat) (v : Bytes) : (memWrite s a v).freeReads = s.freeReads := rfl
@[simp] theorem memWrite_resets (s : State) (a : Nat) (v : Bytes) : (memWrite s a v).resets = s.resets := rfl

/-! ## setFieldSlot -/

@[simp] theorem setFieldSlot_msg (i : Nat) (x : Option FieldValue) (s : State) : (setFieldSlot i x s).msg = { s.msg with slots := s.msg.slots.put i x } := rfl
@[simp] theorem setFieldSlot_pres (i : Nat) (x : Option FieldValue) (s : State) : (setFieldSlot i x s).pres = s.pres := rfl
@[simp] theorem setFieldSlot_ibuf (i : Nat) (x : Option FieldValue) (s : State) : (setFieldSlot i x s).ibuf = s.ibuf := rfl
@[simp] theorem setFieldSlot_obuf (i : Nat) (x : Option FieldValue) (s : State) : (setFieldSlot i x s).obuf = s.obuf := rfl
@[simp] theorem setFieldSlot_key (i : Nat) (x : Option FieldValue) (s : State) : (setFieldSlot i x s).key = s.key := rfl
@[simp] theorem setFieldSlot_ilen (i : Nat) (x : Option FieldValue) (s : State) : (setFieldSlot i x s).ilen = s.ilen := rfl
@[simp] theorem setFieldSlot_olen (i : Nat) (x : Option FieldValue) (s : State) : (setFieldSlot i x s).olen = s.olen := rfl
@[simp] theorem setFieldSlot_klen (i : Nat) (x : Option FieldValue) (s : State) : (setFieldSlot i x s).klen = s.klen := rfl
@[simp] theorem setFieldSlot_cmd (i : Nat) (x : Option FieldValue) (s : State) : (setFieldSlot i x s).cmd = s.cmd := rfl
@[simp] theorem setFieldSlot_busy (i : Nat) (x : Option FieldValue) (s : State) : (setFieldSlot i x s).busy = s.busy := rfl
@[simp] theorem setFieldSlot_done (i : Nat) (x : Option FieldValue) (s : State) : (setFieldSlot i x s).done = s.done := rfl
@[simp] theorem setFieldSlot_errf (i : Nat) (x : Option FieldValue) (s : State) : (setFieldSlot i x s).errf = s.errf := rfl
@[simp] theorem setFieldSlot_proto (i : Nat) (x : Option FieldValue) (s : State) : (setFieldSlot i x s).proto = s.proto := rfl
@[simp] theorem setFieldSlot_err (i : Nat) (x : Option FieldValue) (s : State) : (setFieldSlot i x s).err = s.err := rfl
@[simp] theorem setFieldSlot_errField (i : Nat) (x : Option FieldValue) (s : State) : (setFieldSlot i x s).errField = s.errField := rfl
@[simp] theorem setFieldSlot_errDecl (i : Nat) (x : Option FieldValue) (s : State) : (setFieldSlot i x s).errDecl = s.errDecl := rfl
@[simp] theorem setFieldSlot_errAct (i : Nat) (x : Option FieldValue) (s : State) : (setFieldSlot i x s).errAct = s.errAct := rfl
@[simp] theorem setFieldSlot_errCause (i : Nat) (x : Option FieldValue) (s : State) : (setFieldSlot i x s).errCause = s.errCause := rfl
@[simp] theorem setFieldSlot_res (i : Nat) (x : Option FieldValue) (s : State) : (setFieldSlot i x s).res = s.res := rfl
@[simp] theorem setFieldSlot_consumed (i : Nat) (x : Option FieldValue) (s : State) : (setFieldSlot i x s).consumed = s.consumed := rfl
@[simp] theorem setFieldSlot_cfg (i : Nat) (x : Option FieldValue) (s : State) : (setFieldSlot i x s).cfg = s.cfg := rfl
@[simp] theorem setFieldSlot_pending (i : Nat) (x : Option FieldValue) (s : State) : (setFieldSlot i x s).pending = s.pending := rfl
@[simp] theorem setFieldSlot_reply (i : Nat) (x : Option FieldValue) (s : State) : (setFieldSlot i x s).reply = s.reply := rfl
@[simp] theorem setFieldSlot_freeReads (i : Nat) (x : Option FieldValue) (s : State) : (setFieldSlot i x s).freeReads = s.freeReads := rfl
@[simp] theorem setFieldSlot_resets (i : Nat) (x : Option FieldValue) (s : State) : (setFieldSlot i x s).resets = s.resets := rfl

/-! ## clearMessage -/

@[simp] theorem clearMessage_msg (s : State) : (clearMessage s).msg = Message.empty := rfl
@[simp] theorem clearMessage_pres (s : State) : (clearMessage s).pres = s.pres := rfl
@[simp] theorem clearMessage_ibuf (s : State) : (clearMessage s).ibuf = s.ibuf := rfl
@[simp] theorem clearMessage_obuf (s : State) : (clearMessage s).obuf = s.obuf := rfl
@[simp] theorem clearMessage_key (s : State) : (clearMessage s).key = s.key := rfl
@[simp] theorem clearMessage_ilen (s : State) : (clearMessage s).ilen = s.ilen := rfl
@[simp] theorem clearMessage_olen (s : State) : (clearMessage s).olen = s.olen := rfl
@[simp] theorem clearMessage_klen (s : State) : (clearMessage s).klen = s.klen := rfl
@[simp] theorem clearMessage_cmd (s : State) : (clearMessage s).cmd = s.cmd := rfl
@[simp] theorem clearMessage_busy (s : State) : (clearMessage s).busy = s.busy := rfl
@[simp] theorem clearMessage_done (s : State) : (clearMessage s).done = s.done := rfl
@[simp] theorem clearMessage_errf (s : State) : (clearMessage s).errf = s.errf := rfl
@[simp] theorem clearMessage_proto (s : State) : (clearMessage s).proto = s.proto := rfl
@[simp] theorem clearMessage_err (s : State) : (clearMessage s).err = s.err := rfl
@[simp] theorem clearMessage_errField (s : State) : (clearMessage s).errField = s.errField := rfl
@[simp] theorem clearMessage_errDecl (s : State) : (clearMessage s).errDecl = s.errDecl := rfl
@[simp] theorem clearMessage_errAct (s : State) : (clearMessage s).errAct = s.errAct := rfl
@[simp] theorem clearMessage_errCause (s : State) : (clearMessage s).errCause = s.errCause := rfl
@[simp] theorem clearMessage_res (s : State) : (clearMessage s).res = s.res := rfl
@[simp] theorem clearMessage_consumed (s : State) : (clearMessage s).consumed = s.consumed := rfl
@[simp] theorem clearMessage_cfg (s : State) : (clearMessage s).cfg = s.cfg := rfl
@[simp] theorem clearMessage_pending (s : State) : (clearMessage s).pending = s.pending := rfl
@[simp] theorem clearMessage_reply (s : State) : (clearMessage s).reply = s.reply := rfl
@[simp] theorem clearMessage_freeReads (s : State) : (clearMessage s).freeReads = s.freeReads := rfl
@[simp] theorem clearMessage_resets (s : State) : (clearMessage s).resets = s.resets := rfl

/-! ## clearBitmapRegs -/

@[simp] theorem clearBitmapRegs_msg (s : State) : (clearBitmapRegs s).msg = { s.msg with sec := false } := rfl
@[simp] theorem clearBitmapRegs_pres (s : State) : (clearBitmapRegs s).pres = 0 := rfl
@[simp] theorem clearBitmapRegs_ibuf (s : State) : (clearBitmapRegs s).ibuf = s.ibuf := rfl
@[simp] theorem clearBitmapRegs_obuf (s : State) : (clearBitmapRegs s).obuf = s.obuf := rfl
@[simp] theorem clearBitmapRegs_key (s : State) : (clearBitmapRegs s).key = s.key := rfl
@[simp] theorem clearBitmapRegs_ilen (s : State) : (clearBitmapRegs s).ilen = s.ilen := rfl
@[simp] theorem clearBitmapRegs_olen (s : State) : (clearBitmapRegs s).olen = s.olen := rfl
@[simp] theorem clearBitmapRegs_klen (s : State) : (clearBitmapRegs s).klen = s.klen := rfl
@[simp] theorem clearBitmapRegs_cmd (s : State) : (clearBitmapRegs s).cmd = s.cmd := rfl
@[simp] theorem clearBitmapRegs_busy (s : State) : (clearBitmapRegs s).busy = s.busy := rfl
@[simp] theorem clearBitmapRegs_done (s : State) : (clearBitmapRegs s).done = s.done := rfl
@[simp] theorem clearBitmapRegs_errf (s : State) : (clearBitmapRegs s).errf = s.errf := rfl
@[simp] theorem clearBitmapRegs_proto (s : State) : (clearBitmapRegs s).proto = s.proto := rfl
@[simp] theorem clearBitmapRegs_err (s : State) : (clearBitmapRegs s).err = s.err := rfl
@[simp] theorem clearBitmapRegs_errField (s : State) : (clearBitmapRegs s).errField = s.errField := rfl
@[simp] theorem clearBitmapRegs_errDecl (s : State) : (clearBitmapRegs s).errDecl = s.errDecl := rfl
@[simp] theorem clearBitmapRegs_errAct (s : State) : (clearBitmapRegs s).errAct = s.errAct := rfl
@[simp] theorem clearBitmapRegs_errCause (s : State) : (clearBitmapRegs s).errCause = s.errCause := rfl
@[simp] theorem clearBitmapRegs_res (s : State) : (clearBitmapRegs s).res = s.res := rfl
@[simp] theorem clearBitmapRegs_consumed (s : State) : (clearBitmapRegs s).consumed = s.consumed := rfl
@[simp] theorem clearBitmapRegs_cfg (s : State) : (clearBitmapRegs s).cfg = s.cfg := rfl
@[simp] theorem clearBitmapRegs_pending (s : State) : (clearBitmapRegs s).pending = s.pending := rfl
@[simp] theorem clearBitmapRegs_reply (s : State) : (clearBitmapRegs s).reply = s.reply := rfl
@[simp] theorem clearBitmapRegs_freeReads (s : State) : (clearBitmapRegs s).freeReads = s.freeReads := rfl
@[simp] theorem clearBitmapRegs_resets (s : State) : (clearBitmapRegs s).resets = s.resets := rfl

/-! ## clearResults -/

@[simp] theorem clearResults_msg (s : State) : (clearResults s).msg = s.msg := rfl
@[simp] theorem clearResults_pres (s : State) : (clearResults s).pres = s.pres := rfl
@[simp] theorem clearResults_ibuf (s : State) : (clearResults s).ibuf = s.ibuf := rfl
@[simp] theorem clearResults_obuf (s : State) : (clearResults s).obuf = s.obuf := rfl
@[simp] theorem clearResults_key (s : State) : (clearResults s).key = s.key := rfl
@[simp] theorem clearResults_ilen (s : State) : (clearResults s).ilen = s.ilen := rfl
@[simp] theorem clearResults_olen (s : State) : (clearResults s).olen = 0 := rfl
@[simp] theorem clearResults_klen (s : State) : (clearResults s).klen = s.klen := rfl
@[simp] theorem clearResults_cmd (s : State) : (clearResults s).cmd = s.cmd := rfl
@[simp] theorem clearResults_busy (s : State) : (clearResults s).busy = s.busy := rfl
@[simp] theorem clearResults_done (s : State) : (clearResults s).done = s.done := rfl
@[simp] theorem clearResults_errf (s : State) : (clearResults s).errf = s.errf := rfl
@[simp] theorem clearResults_proto (s : State) : (clearResults s).proto = s.proto := rfl
@[simp] theorem clearResults_err (s : State) : (clearResults s).err = 0 := rfl
@[simp] theorem clearResults_errField (s : State) : (clearResults s).errField = 0 := rfl
@[simp] theorem clearResults_errDecl (s : State) : (clearResults s).errDecl = 0 := rfl
@[simp] theorem clearResults_errAct (s : State) : (clearResults s).errAct = 0 := rfl
@[simp] theorem clearResults_errCause (s : State) : (clearResults s).errCause = 0 := rfl
@[simp] theorem clearResults_res (s : State) : (clearResults s).res = 0 := rfl
@[simp] theorem clearResults_consumed (s : State) : (clearResults s).consumed = 0 := rfl
@[simp] theorem clearResults_cfg (s : State) : (clearResults s).cfg = s.cfg := rfl
@[simp] theorem clearResults_pending (s : State) : (clearResults s).pending = s.pending := rfl
@[simp] theorem clearResults_reply (s : State) : (clearResults s).reply = s.reply := rfl
@[simp] theorem clearResults_freeReads (s : State) : (clearResults s).freeReads = s.freeReads := rfl
@[simp] theorem clearResults_resets (s : State) : (clearResults s).resets = s.resets := rfl

/-! ## startCommand -/

@[simp] theorem startCommand_msg (w : Word) (s : State) : (startCommand w s).msg = s.msg := rfl
@[simp] theorem startCommand_pres (w : Word) (s : State) : (startCommand w s).pres = s.pres := rfl
@[simp] theorem startCommand_ibuf (w : Word) (s : State) : (startCommand w s).ibuf = s.ibuf := rfl
@[simp] theorem startCommand_obuf (w : Word) (s : State) : (startCommand w s).obuf = s.obuf := rfl
@[simp] theorem startCommand_key (w : Word) (s : State) : (startCommand w s).key = s.key := rfl
@[simp] theorem startCommand_ilen (w : Word) (s : State) : (startCommand w s).ilen = s.ilen := rfl
@[simp] theorem startCommand_olen (w : Word) (s : State) : (startCommand w s).olen = 0 := rfl
@[simp] theorem startCommand_klen (w : Word) (s : State) : (startCommand w s).klen = s.klen := rfl
@[simp] theorem startCommand_cmd (w : Word) (s : State) : (startCommand w s).cmd = w := rfl
@[simp] theorem startCommand_busy (w : Word) (s : State) : (startCommand w s).busy = true := rfl
@[simp] theorem startCommand_done (w : Word) (s : State) : (startCommand w s).done = false := rfl
@[simp] theorem startCommand_errf (w : Word) (s : State) : (startCommand w s).errf = false := rfl
@[simp] theorem startCommand_proto (w : Word) (s : State) : (startCommand w s).proto = s.proto := rfl
@[simp] theorem startCommand_err (w : Word) (s : State) : (startCommand w s).err = 0 := rfl
@[simp] theorem startCommand_errField (w : Word) (s : State) : (startCommand w s).errField = 0 := rfl
@[simp] theorem startCommand_errDecl (w : Word) (s : State) : (startCommand w s).errDecl = 0 := rfl
@[simp] theorem startCommand_errAct (w : Word) (s : State) : (startCommand w s).errAct = 0 := rfl
@[simp] theorem startCommand_errCause (w : Word) (s : State) : (startCommand w s).errCause = 0 := rfl
@[simp] theorem startCommand_res (w : Word) (s : State) : (startCommand w s).res = 0 := rfl
@[simp] theorem startCommand_consumed (w : Word) (s : State) : (startCommand w s).consumed = 0 := rfl
@[simp] theorem startCommand_cfg (w : Word) (s : State) : (startCommand w s).cfg = s.cfg := rfl
@[simp] theorem startCommand_pending (w : Word) (s : State) : (startCommand w s).pending = s.pending := rfl
@[simp] theorem startCommand_reply (w : Word) (s : State) : (startCommand w s).reply = s.reply := rfl
@[simp] theorem startCommand_freeReads (w : Word) (s : State) : (startCommand w s).freeReads = s.freeReads := rfl
@[simp] theorem startCommand_resets (w : Word) (s : State) : (startCommand w s).resets = s.resets := rfl

/-! ## finish -/

@[simp] theorem finish_msg (s : State) : (finish s).msg = s.msg := rfl
@[simp] theorem finish_pres (s : State) : (finish s).pres = s.pres := rfl
@[simp] theorem finish_ibuf (s : State) : (finish s).ibuf = s.ibuf := rfl
@[simp] theorem finish_obuf (s : State) : (finish s).obuf = s.obuf := rfl
@[simp] theorem finish_key (s : State) : (finish s).key = s.key := rfl
@[simp] theorem finish_ilen (s : State) : (finish s).ilen = s.ilen := rfl
@[simp] theorem finish_olen (s : State) : (finish s).olen = s.olen := rfl
@[simp] theorem finish_klen (s : State) : (finish s).klen = s.klen := rfl
@[simp] theorem finish_cmd (s : State) : (finish s).cmd = s.cmd := rfl
@[simp] theorem finish_busy (s : State) : (finish s).busy = false := rfl
@[simp] theorem finish_done (s : State) : (finish s).done = true := rfl
@[simp] theorem finish_errf (s : State) : (finish s).errf = (s.err != 0) := rfl
@[simp] theorem finish_proto (s : State) : (finish s).proto = s.proto := rfl
@[simp] theorem finish_err (s : State) : (finish s).err = s.err := rfl
@[simp] theorem finish_errField (s : State) : (finish s).errField = s.errField := rfl
@[simp] theorem finish_errDecl (s : State) : (finish s).errDecl = s.errDecl := rfl
@[simp] theorem finish_errAct (s : State) : (finish s).errAct = s.errAct := rfl
@[simp] theorem finish_errCause (s : State) : (finish s).errCause = s.errCause := rfl
@[simp] theorem finish_res (s : State) : (finish s).res = s.res := rfl
@[simp] theorem finish_consumed (s : State) : (finish s).consumed = s.consumed := rfl
@[simp] theorem finish_cfg (s : State) : (finish s).cfg = s.cfg := rfl
@[simp] theorem finish_pending (s : State) : (finish s).pending = s.pending := rfl
@[simp] theorem finish_reply (s : State) : (finish s).reply = s.reply := rfl
@[simp] theorem finish_freeReads (s : State) : (finish s).freeReads = s.freeReads := rfl
@[simp] theorem finish_resets (s : State) : (finish s).resets = s.resets := rfl

/-! ## raiseError -/

@[simp] theorem raiseError_msg (e : CmdError) (s : State) : (raiseError e s).msg = s.msg := rfl
@[simp] theorem raiseError_pres (e : CmdError) (s : State) : (raiseError e s).pres = s.pres := rfl
@[simp] theorem raiseError_ibuf (e : CmdError) (s : State) : (raiseError e s).ibuf = s.ibuf := rfl
@[simp] theorem raiseError_obuf (e : CmdError) (s : State) : (raiseError e s).obuf = s.obuf := rfl
@[simp] theorem raiseError_key (e : CmdError) (s : State) : (raiseError e s).key = s.key := rfl
@[simp] theorem raiseError_ilen (e : CmdError) (s : State) : (raiseError e s).ilen = s.ilen := rfl
@[simp] theorem raiseError_olen (e : CmdError) (s : State) : (raiseError e s).olen = 0 := rfl
@[simp] theorem raiseError_klen (e : CmdError) (s : State) : (raiseError e s).klen = s.klen := rfl
@[simp] theorem raiseError_cmd (e : CmdError) (s : State) : (raiseError e s).cmd = s.cmd := rfl
@[simp] theorem raiseError_busy (e : CmdError) (s : State) : (raiseError e s).busy = false := rfl
@[simp] theorem raiseError_done (e : CmdError) (s : State) : (raiseError e s).done = true := rfl
@[simp] theorem raiseError_errf (e : CmdError) (s : State) : (raiseError e s).errf = true := rfl
@[simp] theorem raiseError_proto (e : CmdError) (s : State) : (raiseError e s).proto = s.proto := rfl
@[simp] theorem raiseError_err (e : CmdError) (s : State) : (raiseError e s).err = errNumber e.code := rfl
@[simp] theorem raiseError_errField (e : CmdError) (s : State) : (raiseError e s).errField = BitVec.ofNat 8 e.field := rfl
@[simp] theorem raiseError_errDecl (e : CmdError) (s : State) : (raiseError e s).errDecl = BitVec.ofNat 16 e.declared := rfl
@[simp] theorem raiseError_errAct (e : CmdError) (s : State) : (raiseError e s).errAct = BitVec.ofNat 32 e.actual := rfl
@[simp] theorem raiseError_errCause (e : CmdError) (s : State) : (raiseError e s).errCause = causeNumber e.cause := rfl
@[simp] theorem raiseError_res (e : CmdError) (s : State) : (raiseError e s).res = 0 := rfl
@[simp] theorem raiseError_consumed (e : CmdError) (s : State) : (raiseError e s).consumed = 0 := rfl
@[simp] theorem raiseError_cfg (e : CmdError) (s : State) : (raiseError e s).cfg = s.cfg := rfl
@[simp] theorem raiseError_pending (e : CmdError) (s : State) : (raiseError e s).pending = s.pending := rfl
@[simp] theorem raiseError_reply (e : CmdError) (s : State) : (raiseError e s).reply = s.reply := rfl
@[simp] theorem raiseError_freeReads (e : CmdError) (s : State) : (raiseError e s).freeReads = s.freeReads := rfl
@[simp] theorem raiseError_resets (e : CmdError) (s : State) : (raiseError e s).resets = s.resets := rfl

end Sys2Proof.Machine
end

