-- ==== Sys2Proof/Laws/Memory.lean ====
section
/-! SUPPORT. Buffers: a read after a write, every other byte left alone, and the canonical form kept by every operation. -/

namespace Sys2Proof.Machine

@[simp] theorem Memory.get?_nil (a : Nat) : Memory.get? [] a = none := rfl

@[simp] theorem Memory.write_nil (m : Memory) (a : Nat) : m.write a [] = m := rfl

@[simp] theorem Memory.write_cons (m : Memory) (a : Nat) (b : Byte) (bs : Bytes) :
    m.write a (b :: bs) = (m.set a b).write (a + 1) bs := rfl

/-- Reading the byte just stored gives it. -/
@[simp] theorem Memory.get?_set_self (m : Memory) (a : Nat) (b : Byte) : (m.set a b).get? a = some b := by
  induction m with
  | nil => simp [Memory.set, Memory.get?]
  | cons x rest ih =>
    obtain ⟨k, c⟩ := x
    simp only [Memory.set]
    split
    · simp [Memory.get?]
    · split
      · simp [Memory.get?]
      · rename_i h1 h2
        simp [Memory.get?, h1, h2, ih]

/-- A store leaves every other byte alone. -/
theorem Memory.get?_set_of_ne (m : Memory) {a x : Nat} (b : Byte) (h : x ≠ a) : (m.set a b).get? x = m.get? x := by
  induction m with
  | nil => simp [Memory.set, Memory.get?, h]
  | cons y rest ih =>
    obtain ⟨k, c⟩ := y
    simp only [Memory.set]
    split
    · rename_i h1
      simp only [Memory.get?, h, if_false]
      by_cases hxa : x < a
      · have : x ≠ k := by omega
        have : x < k := by omega
        simp [*]
      · simp [hxa]
    · split
      · rename_i h1 h2
        subst h2
        simp [Memory.get?, h]
      · rename_i h1 h2
        simp [Memory.get?, ih]

/-- What a buffer lists after a byte string is stored: the stored bytes where they went, the old bytes elsewhere. -/
theorem Memory.get?_write (m : Memory) (a : Nat) (bs : Bytes) (x : Nat) :
    (m.write a bs).get? x = if a ≤ x ∧ x < a + bs.length then bs[x - a]? else m.get? x := by
  induction bs generalizing m a with
  | nil => simp
  | cons b bs ih =>
    rw [Memory.write_cons, ih]
    by_cases hx : x = a
    · subst hx; simp
    · rw [Memory.get?_set_of_ne m b hx]
      by_cases hle : a + 1 ≤ x ∧ x < a + 1 + bs.length
      · have h2 : a ≤ x ∧ x < a + (b :: bs).length := by simp; omega
        rw [if_pos hle, if_pos h2]
        obtain ⟨d, rfl⟩ : ∃ d, x = a + 1 + d := ⟨x - (a + 1), by omega⟩
        have : a + 1 + d - a = d + 1 := by omega
        simp [this]
      · have h2 : ¬(a ≤ x ∧ x < a + (b :: bs).length) := by simp; omega
        rw [if_neg hle, if_neg h2]

/-- In a canonical list every later offset is above the first. -/
theorem Memory.lt_of_wf {x : Host.Cell} {m : Memory} (h : Memory.wf (x :: m) = true) : ∀ y ∈ m, x.1 < y.1 := by
  induction m generalizing x with
  | nil => simp
  | cons z rest ih =>
    simp only [Memory.wf, Bool.and_eq_true, decide_eq_true_eq] at h
    intro y hy
    rcases List.mem_cons.mp hy with rfl | hy
    · exact h.1
    · exact Nat.lt_trans h.1 (ih h.2 y hy)

theorem Memory.wf_tail {x : Host.Cell} {m : Memory} (h : Memory.wf (x :: m) = true) : m.wf = true := by
  cases m with
  | nil => rfl
  | cons y rest =>
    simp only [Memory.wf, Bool.and_eq_true] at h
    exact h.2

theorem Memory.wf_cons {x : Host.Cell} {m : Memory} (hm : m.wf = true) (h : ∀ y ∈ m, x.1 < y.1) :
    Memory.wf (x :: m) = true := by
  cases m with
  | nil => rfl
  | cons y rest => simp [Memory.wf, h y (by simp), hm]

/-- The offsets listed after a store: the one stored to, and the old ones. -/
theorem Memory.mem_set {m : Memory} {a : Nat} {b : Byte} {y : Host.Cell} (h : y ∈ m.set a b) : y.1 = a ∨ y ∈ m := by
  induction m with
  | nil => simp only [Memory.set, List.mem_singleton] at h; simp [h]
  | cons x rest ih =>
    obtain ⟨k, c⟩ := x
    simp only [Memory.set] at h
    split at h
    · rcases List.mem_cons.mp h with rfl | h <;> simp_all
    · split at h
      · rcases List.mem_cons.mp h with rfl | h <;> simp_all
      · rcases List.mem_cons.mp h with rfl | h
        · simp
        · rcases ih h with h | h <;> simp [h]

/-- A store keeps the canonical form. -/
theorem Memory.wf_set {m : Memory} (h : m.wf = true) (a : Nat) (b : Byte) : (m.set a b).wf = true := by
  induction m with
  | nil => rfl
  | cons x rest ih =>
    obtain ⟨k, c⟩ := x
    simp only [Memory.set]
    split
    · rename_i hlt
      exact Memory.wf_cons h (fun y hy => by
        rcases List.mem_cons.mp hy with rfl | hy
        · exact hlt
        · exact Nat.lt_trans hlt (Memory.lt_of_wf h y hy))
    · split
      · rename_i h1 h2
        subst h2
        exact Memory.wf_cons (Memory.wf_tail h) (fun y hy => Memory.lt_of_wf (x := (a, c)) h y hy)
      · rename_i h1 h2
        refine Memory.wf_cons (ih (Memory.wf_tail h)) (fun y hy => ?_)
        rcases Memory.mem_set hy with hy | hy
        · simp only [hy]; omega
        · exact Memory.lt_of_wf h y hy

/-- Storing a byte string keeps the canonical form. -/
theorem Memory.wf_write {m : Memory} (h : m.wf = true) (a : Nat) (bs : Bytes) : (m.write a bs).wf = true := by
  induction bs generalizing m a with
  | nil => exact h
  | cons b bs ih => exact ih (Memory.wf_set h a b) (a + 1)

/-- A store within the capacity keeps every offset within it. -/
theorem Memory.within_set {cap : Nat} {m : Memory} (h : m.within cap = true) {a : Nat} (b : Byte) (ha : a < cap) :
    (m.set a b).within cap = true := by
  simp only [Memory.within, List.all_eq_true, decide_eq_true_eq] at *
  intro y hy
  rcases Memory.mem_set hy with hy | hy
  · omega
  · exact h y hy

/-- Storing a byte string that fits keeps every offset within the capacity. -/
theorem Memory.within_write {cap : Nat} {m : Memory} (h : m.within cap = true) {a : Nat} {bs : Bytes}
    (ha : a + bs.length ≤ cap) : (m.write a bs).within cap = true := by
  induction bs generalizing m a with
  | nil => exact h
  | cons b bs ih =>
    simp only [List.length_cons] at ha
    exact ih (Memory.within_set h b (by omega)) (by omega)

@[simp] theorem bufferBytes_length (s : State) (id : BufferId) (a n : Nat) : (bufferBytes s id a n).length = n := by
  simp [bufferBytes]

@[simp] theorem input_length (s : State) : (input s).length = s.ilen.toNat := bufferBytes_length ..

@[simp] theorem output_length (s : State) : (output s).length = s.olen.toNat := bufferBytes_length ..

@[simp] theorem keyBytes_length (s : State) : (keyBytes s).length = s.klen.toNat := bufferBytes_length ..

/-- Two states with the same input buffer, ILEN and count of resets have the same input. -/
theorem input_congr {s t : State} (h1 : t.ibuf = s.ibuf) (h2 : t.ilen = s.ilen) (h3 : t.resets = s.resets) :
    input t = input s := by
  simp [input, bufferBytes, bufferByte, buffer, h1, h2, h3]

@[simp] theorem input_clearResults (s : State) : input (clearResults s) = input s := input_congr rfl rfl rfl

@[simp] theorem keyBytes_clearResults (s : State) : keyBytes (clearResults s) = keyBytes s := rfl

end Sys2Proof.Machine
end

