-- ==== Sys2Proof/Laws/Ops.lean ====
section
/-! SUPPORT. One lemma per shared operation that says once everything it can do: `emit`, `runCommand`, the slots, the host's
reads and writes, and the step. -/

namespace Sys2Proof.Machine

/-- A computation in two parts succeeds when both do. -/
theorem bind_ok {α β : Type} {x : Except CmdError α} {f : α → Except CmdError β} {r : β} :
    x >>= f = .ok r ↔ ∃ a, x = .ok a ∧ f a = .ok r := by
  cases x <;> simp [bind, Except.bind]

/-- A computation in two parts fails when the first does, or when the first succeeds and the second fails. -/
theorem bind_error {α β : Type} {x : Except CmdError α} {f : α → Except CmdError β} {e : CmdError} :
    x >>= f = .error e ↔ x = .error e ∨ ∃ a, x = .ok a ∧ f a = .error e := by
  cases x <;> simp [bind, Except.bind]

@[simp] theorem ok_bind {α β : Type} (a : α) (f : α → Except CmdError β) : (Except.ok a : Except CmdError α) >>= f = f a :=
  rfl

@[simp] theorem error_bind {α β : Type} (e : CmdError) (f : α → Except CmdError β) :
    (Except.error e : Except CmdError α) >>= f = .error e := rfl

@[simp] theorem pure_ok {α : Type} (a : α) : (pure a : Except CmdError α) = .ok a := rfl

/-- All that `emit` can do: raise Capacity, or append and advance OLEN. -/
theorem emit_cases (field : Nat) (v : Bytes) (s : State) :
    (s.cfg.bufCap < s.olen.toNat + v.length ∧ emit field v s = .error (capacityError field)) ∨
    (s.olen.toNat + v.length ≤ s.cfg.bufCap ∧
      emit field v s = .ok { memWrite s s.olen.toNat v with olen := BitVec.ofNat 32 (s.olen.toNat + v.length) }) := by
  unfold emit
  split
  · exact .inl ⟨by omega, rfl⟩
  · exact .inr ⟨by omega, rfl⟩

/-- `emit` at the start of a command, where OLEN is 0. -/
theorem emit_clearResults (field : Nat) {v : Bytes} {s : State} (h : v.length ≤ s.cfg.bufCap) :
    emit field v (clearResults s) =
      .ok { clearResults s with obuf := s.obuf.write 0 v, olen := BitVec.ofNat 32 v.length } := by
  rcases emit_cases field v (clearResults s) with ⟨h', -⟩ | ⟨-, h'⟩
  · simp at h'; omega
  · rw [h']; simp [memWrite, clearResults]

/-- The valid output after a byte string was emitted from offset 0. -/
theorem output_of_write {t : State} {m : Memory} {v : Bytes} (ho : t.obuf = m.write 0 v)
    (hl : t.olen = BitVec.ofNat 32 v.length) (hv : v.length < 2 ^ 32) : output t = v := by
  have hlen : t.olen.toNat = v.length := by rw [hl, BitVec.toNat_ofNat, Nat.mod_eq_of_lt hv]
  apply List.ext_getElem
  · simp [hlen]
  · intro k h1 h2
    simp [output, bufferBytes, bufferByte, buffer, ho, Memory.get?_write, h2]

/-- All that a command can do (R39, R256): complete, or end in the error it raised with its destination invalidated. -/
theorem runCommand_cases (inv : State → State) (body : State → Except CmdError State) (s : State) :
    (∃ t, body (clearResults s) = .ok t ∧ runCommand inv body s = .next (finish t)) ∨
    (∃ e, body (clearResults s) = .error e ∧
      runCommand inv body s = .next (raiseError e (invalidated inv e (clearResults s)))) := by
  unfold runCommand
  cases body (clearResults s) with
  | ok t => exact .inl ⟨t, rfl, rfl⟩
  | error e => exact .inr ⟨e, rfl, rfl⟩

theorem runCommand_ok {inv : State → State} {body : State → Except CmdError State} {s t : State}
    (h : body (clearResults s) = .ok t) : runCommand inv body s = .next (finish t) := by
  simp [runCommand, h]

theorem runCommand_error {inv : State → State} {body : State → Except CmdError State} {s : State} {e : CmdError}
    (h : body (clearResults s) = .error e) :
    runCommand inv body s = .next (raiseError e (invalidated inv e (clearResults s))) := by
  simp [runCommand, h]

@[simp] theorem invalidated_id (e : CmdError) (s : State) : invalidated id e s = s := by
  simp [invalidated]

@[simp] theorem clearResults_idem (s : State) : clearResults (clearResults s) = clearResults s := rfl

/-- Slot 1 is hardwired to Empty (R24). -/
@[simp] theorem Slots.get_one (g : Slots) : g.get 1 = none := by simp [Slots.get]

/-- A slot that was just written reads back, for every index a write reaches. -/
theorem Slots.get_put_self (g : Slots) {i : Nat} (x : Option FieldValue) (h : 2 ≤ i ∧ i ≤ 128) :
    (g.put i x).get i = x := by
  simp [Slots.get, Slots.put, h]

/-- A write of one slot leaves every other slot alone. -/
theorem Slots.get_put_of_ne (g : Slots) {i j : Nat} (x : Option FieldValue) (h : j ≠ i) :
    (g.put i x).get j = g.get j := by
  unfold Slots.get Slots.put
  split
  · split
    · rw [Vector.getElem_set_ne]; omega
    · rfl
  · rfl

/-- A write outside 2 to 128 changes nothing. -/
theorem Slots.put_out (g : Slots) {i : Nat} (x : Option FieldValue) (h : ¬(2 ≤ i ∧ i ≤ 128)) : g.put i x = g := by
  simp [Slots.put, h]

@[simp] theorem Slots.get_empty (i : Nat) : Slots.get Message.empty.slots i = none := by
  simp [Slots.get, Message.empty]

/-- All that a write move can do (R37, R262): take effect, or be dropped with PROTO. -/
theorem hostWrite_cases (allowed : Bool) (effect : State → State) (s : State) :
    (s.busy = false ∧ allowed = true ∧ hostWrite allowed effect s = effect s) ∨
    ((s.busy = true ∨ allowed = false) ∧ hostWrite allowed effect s = setProto s) := by
  unfold hostWrite
  cases hb : s.busy <;> cases allowed <;> simp

/-- All that a read move can do (R37): answer the register, or while BUSY a free value. -/
theorem hostRead_cases (idle : Reply) (free : Nat → Reply) (s : State) :
    (s.busy = false ∧ hostRead idle free s = { s with reply := idle }) ∨
    (s.busy = true ∧ hostRead idle free s =
      { s with reply := free s.freeReads, freeReads := s.freeReads + 1 }) := by
  unfold hostRead
  cases hb : s.busy <;> simp

/-- All that a step can do: refuse a configuration outside the spec, take the next event, or give the block its turn. -/
theorem step_cases (s : State) :
    (configWf s.cfg = false ∧ step s = .refused .configurationOutsideSpec) ∨
    (configWf s.cfg = true ∧ s.pending = [] ∧ step s = blockTurn s) ∨
    (∃ e rest, configWf s.cfg = true ∧ s.pending = e :: rest ∧ step s = act e (withPending rest s)) := by
  unfold step advance
  cases hc : configWf s.cfg with
  | false => exact .inl ⟨rfl, by simp⟩
  | true =>
    cases hp : s.pending with
    | nil => exact .inr (.inl ⟨rfl, rfl, by simp⟩)
    | cons e rest => exact .inr (.inr ⟨e, rest, rfl, rfl, by simp⟩)

/-- All that the block's turn can do. -/
theorem blockTurn_cases (s : State) :
    (s.busy = false ∧ blockTurn s = .next s) ∨
    (∃ i, s.busy = true ∧ decode (fetch s) = .ok i ∧ blockTurn s = exec i s) ∨
    (∃ e, s.busy = true ∧ decode (fetch s) = .error e ∧ blockTurn s = illegalWord e s) := by
  unfold blockTurn complete
  cases hb : s.busy with
  | false => exact .inl ⟨rfl, by simp⟩
  | true =>
    cases hd : decode (fetch s) with
    | ok i => exact .inr (.inl ⟨i, rfl, rfl, by simp⟩)
    | error e => exact .inr (.inr ⟨e, rfl, rfl, by simp⟩)

/-! ## The commands, all of one form -/

/-- The pseudocode of a command, run between its start and its completion. -/
def commandBody : Instr → State → Except CmdError State
  | .packLbcd => packLbcdBody
  | .packRbcd => packRbcdBody
  | .unpackL n => unpackLBody n
  | .unpackR n => unpackRBody n
  | .encLen kind len => encLenBody kind len
  | .decLen kind => decLenBody kind
  | .fieldEnc i => fieldEncBody i
  | .fieldDec i => fieldDecBody i
  | .bmpBuild => bmpBuildBody
  | .bmpParse => bmpParseBody
  | .msgEnc => msgEncBody
  | .msgDec => msgDecBody
  | .mac => macBody

/-- How an error invalidates the destination of a command (R256). -/
def commandInvalidate : Instr → State → State
  | .fieldDec i => setFieldSlot i.toNat none
  | .bmpParse => clearBitmapRegs
  | .msgDec => clearMessage
  | _ => id

/-- Every command is `runCommand` of its pseudocode. -/
theorem exec_eq_runCommand (i : Instr) (s : State) :
    exec i s = runCommand (commandInvalidate i) (commandBody i) s := by
  cases i <;> rfl

/-- The commands whose destination is OBUF (the access table after R25). -/
def emits : Instr → Bool
  | .decLen _ => false
  | .fieldDec _ => false
  | .bmpParse => false
  | .msgDec => false
  | _ => true

/-- An emitting command has nothing to invalidate but OLEN. -/
theorem commandInvalidate_of_emits {i : Instr} (h : emits i = true) : commandInvalidate i = id := by
  cases i <;> first | rfl | simp [emits] at h

/-- What a command writes when its pseudocode succeeds: output at OBUF and OLEN, or its destination registers. -/
inductive CommandWrites (s : State) : Instr → State → Prop
  | output {i : Instr} (v : Bytes) (h : v.length ≤ s.cfg.bufCap) (hi : emits i = true) :
      CommandWrites s i { clearResults s with obuf := s.obuf.write 0 v, olen := BitVec.ofNat 32 v.length }
  | length (k : BitVec 8) (n c : Nat) :
      CommandWrites s (.decLen k) { clearResults s with res := BitVec.ofNat 16 n, consumed := BitVec.ofNat 32 c }
  | slot (x : BitVec 8) (v : FieldValue) (c : Nat) (hx : 2 ≤ x.toNat ∧ x.toNat ≤ 128) :
      CommandWrites s (.fieldDec x)
        { setFieldSlot x.toNat (some v) (clearResults s) with consumed := BitVec.ofNat 32 c }
  | bitmap (sec : Bool) (indices : List Nat) (c : Nat) :
      CommandWrites s .bmpParse { clearResults s with
        msg := { s.msg with sec := sec }, pres := presOf indices, consumed := BitVec.ofNat 32 c }
  | message (m : Message) (c : Nat) :
      CommandWrites s .msgDec { clearResults s with msg := m, consumed := BitVec.ofNat 32 c }

/-- The emitting commands: whatever they computed, `emit` from OLEN 0 is their only write. -/
theorem commandWrites_emit {s t : State} {i : Instr} {field : Nat} {v : Bytes} (hi : emits i = true)
    (h : emit field v (clearResults s) = .ok t) : CommandWrites s i t := by
  rcases emit_cases field v (clearResults s) with ⟨-, h'⟩ | ⟨hc, -⟩
  · simp [h'] at h
  · simp only [clearResults_olen, clearResults_cfg] at hc
    have hv : v.length ≤ s.cfg.bufCap := by simpa using hc
    rw [emit_clearResults field hv] at h
    cases h
    exact .output v hv hi

/-- All that the pseudocode of a command can write, over every command. -/
theorem commandBody_writes {i : Instr} {s t : State} (h : commandBody i (clearResults s) = .ok t) :
    CommandWrites s i t := by
  cases i with
  | packLbcd =>
    simp only [commandBody, packLbcdBody] at h
    split at h
    · exact commandWrites_emit rfl h
    · simp at h
  | packRbcd =>
    simp only [commandBody, packRbcdBody] at h
    split at h
    · exact commandWrites_emit rfl h
    · simp at h
  | unpackL n =>
    obtain ⟨_, -, h⟩ := bind_ok.mp h
    exact commandWrites_emit rfl h
  | unpackR n =>
    obtain ⟨_, -, h⟩ := bind_ok.mp h
    exact commandWrites_emit rfl h
  | encLen kind len =>
    obtain ⟨_, -, h⟩ := bind_ok.mp h
    obtain ⟨_, -, h⟩ := bind_ok.mp h
    exact commandWrites_emit rfl h
  | decLen kind =>
    obtain ⟨k, -, h⟩ := bind_ok.mp h
    obtain ⟨n, -, h⟩ := bind_ok.mp h
    cases h
    exact .length kind n (hdrSize k)
  | fieldEnc x =>
    obtain ⟨_, -, h⟩ := bind_ok.mp h
    obtain ⟨_, -, h⟩ := bind_ok.mp h
    obtain ⟨_, -, h⟩ := bind_ok.mp h
    obtain ⟨_, -, h⟩ := bind_ok.mp h
    exact commandWrites_emit rfl h
  | fieldDec x =>
    obtain ⟨j, hj, h⟩ := bind_ok.mp h
    obtain ⟨_, -, h⟩ := bind_ok.mp h
    obtain ⟨⟨v, c⟩, -, h⟩ := bind_ok.mp h
    cases h
    unfold indexOperand at hj
    split at hj
    · rename_i hl
      cases hj
      exact .slot x v c (by simpa using hl)
    · simp at hj
  | bmpBuild => exact commandWrites_emit rfl h
  | bmpParse =>
    obtain ⟨⟨sec, indices, n⟩, -, h⟩ := bind_ok.mp h
    cases h
    exact .bitmap sec indices n
  | msgEnc =>
    obtain ⟨_, -, h⟩ := bind_ok.mp h
    exact commandWrites_emit rfl h
  | msgDec =>
    obtain ⟨⟨m, c⟩, -, h⟩ := bind_ok.mp h
    cases h
    exact .message m c
  | mac =>
    simp only [commandBody, macBody] at h
    split at h
    · obtain ⟨_, -, h⟩ := bind_ok.mp h
      exact commandWrites_emit rfl h
    · simp at h

/-- All that a command can do: its writes and the end of the completion step, or an error with its destination
invalidated. -/
theorem exec_cases {i : Instr} {s t : State} (h : exec i s = .next t) :
    (∃ u, CommandWrites s i u ∧ t = finish u) ∨
    (∃ e, commandBody i (clearResults s) = .error e ∧
      t = raiseError e (invalidated (commandInvalidate i) e (clearResults s))) := by
  rw [exec_eq_runCommand] at h
  rcases runCommand_cases (commandInvalidate i) (commandBody i) s with ⟨u, hu, h'⟩ | ⟨e, he, h'⟩
  · rw [h'] at h
    cases h
    exact .inl ⟨u, commandBody_writes hu, rfl⟩
  · rw [h'] at h
    cases h
    exact .inr ⟨e, he, rfl⟩

end Sys2Proof.Machine
end

