-- ==== Sys2Proof/Laws/Nibbles.lean ====
section
/-! SUPPORT. Nibbles, digits and hex digits: what each of the small functions of spec/00_scope.md rule R8 and
spec/40_bcd.md gives back of another. -/

namespace Sys2Proof.Machine

theorem hi_lt (b : Byte) : hi b < 16 := by
  have := b.isLt
  unfold hi
  omega

theorem lo_lt (b : Byte) : lo b < 16 := by
  unfold lo
  omega

/-- A byte made of two nibbles has them (R6). -/
theorem hi_nibbles {h l : Nat} (hh : h < 16) (hl : l < 16) : hi (nibbles h l) = h := by
  have key : ∀ h : Fin 16, ∀ l : Fin 16, hi (nibbles h.val l.val) = h.val := by decide +kernel
  exact key ⟨h, hh⟩ ⟨l, hl⟩

theorem lo_nibbles {h l : Nat} (hh : h < 16) (hl : l < 16) : lo (nibbles h l) = l := by
  have key : ∀ h : Fin 16, ∀ l : Fin 16, lo (nibbles h.val l.val) = l.val := by decide +kernel
  exact key ⟨h, hh⟩ ⟨l, hl⟩

theorem nibbles_toNat {h l : Nat} (hh : h < 16) (hl : l < 16) : (nibbles h l).toNat = 16 * h + l := by
  have key : ∀ h : Fin 16, ∀ l : Fin 16, (nibbles h.val l.val).toNat = 16 * h.val + l.val := by decide +kernel
  exact key ⟨h, hh⟩ ⟨l, hl⟩

/-- A byte is made of its own two nibbles. -/
theorem nibbles_hi_lo (b : Byte) : nibbles (hi b) (lo b) = b := by
  apply BitVec.eq_of_toNat_eq
  rw [nibbles_toNat (hi_lt b) (lo_lt b)]
  unfold hi lo
  omega

theorem dval_le {c : Byte} (h : isDigit c = true) : dval c ≤ 9 := by
  simp [isDigit] at h
  unfold dval
  omega

theorem dchr_dval {c : Byte} (h : isDigit c = true) : dchr (dval c) = c := by
  simp [isDigit] at h
  apply BitVec.eq_of_toNat_eq
  have := c.isLt
  simp [dchr, dval]
  omega

theorem isDigit_dchr {v : Nat} (h : v ≤ 9) : isDigit (dchr v) = true := by
  have key : ∀ v : Fin 10, isDigit (dchr v.val) = true := by decide
  exact key ⟨v, by omega⟩

theorem dval_dchr {v : Nat} (h : v ≤ 9) : dval (dchr v) = v := by
  have key : ∀ v : Fin 10, dval (dchr v.val) = v.val := by decide
  exact key ⟨v, by omega⟩

theorem hval_lt {c : Byte} (h : isHex c = true) : hval c < 16 := by
  have key : ∀ c : Fin 256, isHex (BitVec.ofNat 8 c.val) = true → hval (BitVec.ofNat 8 c.val) < 16 := by decide +kernel
  have := key ⟨c.toNat, c.isLt⟩
  simp only [BitVec.ofNat_toNat, BitVec.setWidth_eq] at this
  exact this h

/-- An upper-case hex digit comes back from its value (R152). -/
theorem hexU_hval {c : Byte} (h : isHexUpper c = true) : hexU (hval c) = c := by
  have key : ∀ c : Fin 256, isHexUpper (BitVec.ofNat 8 c.val) = true →
      hexU (hval (BitVec.ofNat 8 c.val)) = BitVec.ofNat 8 c.val := by decide +kernel
  have := key ⟨c.toNat, c.isLt⟩
  simp only [BitVec.ofNat_toNat, BitVec.setWidth_eq] at this
  exact this h

theorem isHex_of_upper {c : Byte} (h : isHexUpper c = true) : isHex c = true := by
  simp [isHexUpper] at h
  rcases h with h | h <;> simp [isHex, h]

@[simp] theorem allDigits_nil : allDigits [] = true := rfl

@[simp] theorem allDigits_cons (c : Byte) (s : Bytes) : allDigits (c :: s) = (isDigit c && allDigits s) := rfl

@[simp] theorem allDigits_append (s t : Bytes) : allDigits (s ++ t) = (allDigits s && allDigits t) := by
  simp [allDigits]

/-! ## Nibbles of byte strings -/

@[simp] theorem nibblesOf_length (bs : Bytes) : (nibblesOf bs).length = 2 * bs.length := by
  induction bs with
  | nil => rfl
  | cons b bs ih => simp [nibblesOf, ih]; omega

theorem nibblesOf_append (a b : Bytes) : nibblesOf (a ++ b) = nibblesOf a ++ nibblesOf b := by
  induction a with
  | nil => rfl
  | cons x a ih => simp [nibblesOf, ih]

/-- Nibble `j` of a byte string is place `j` of its nibbles. -/
theorem nibblesOf_getD (bs : Bytes) (j : Nat) : (nibblesOf bs).getD j 0 = nibbleAt bs j := by
  induction bs generalizing j with
  | nil => simp [nibblesOf, nibbleAt, hi, lo]
  | cons b bs ih =>
    match j with
    | 0 => rfl
    | 1 => rfl
    | j + 2 =>
      have h1 : (j + 2) % 2 = j % 2 := by omega
      have h2 : (j + 2) / 2 = j / 2 + 1 := by omega
      have := ih j
      simp only [nibbleAt] at this ⊢
      rw [h1, h2]
      simpa [nibblesOf] using this

/-- The nibbles of the first bytes are the nibbles of the whole. -/
theorem nibbleAt_take (bs : Bytes) {m j : Nat} (h : j < 2 * m) : nibbleAt (bs.take m) j = nibbleAt bs j := by
  have hj : j / 2 < m := by omega
  simp [nibbleAt, List.getD_eq_getElem?_getD, hj]

/-- The test of decimal nibbles that the decoders make is `DecimalNibbles`. -/
theorem nibblesOf_all_le {bs : Bytes} {m : Nat} (hm : m ≤ bs.length) :
    (nibblesOf (bs.take m)).all (· ≤ 9) = true ↔ DecimalNibbles bs m := by
  have hlen : (nibblesOf (bs.take m)).length = 2 * m := by simp; omega
  rw [List.all_eq_true]
  constructor
  · intro h j hj
    have hj' : j < (nibblesOf (bs.take m)).length := by omega
    have := h _ (List.getElem_mem hj')
    rw [← nibbleAt_take bs hj, ← nibblesOf_getD, List.getD_eq_getElem _ _ hj']
    simpa using this
  · intro h x hx
    obtain ⟨j, hj, rfl⟩ := List.getElem_of_mem hx
    have hj' : j < 2 * m := by omega
    have := h j hj'
    rw [← nibbleAt_take bs hj', ← nibblesOf_getD, List.getD_eq_getElem _ _ hj] at this
    simpa using this

/-! ## Packing -/

theorem packPairs_length (d : Bytes) : (packPairs d).length = d.length / 2 := by
  induction d using packPairs.induct with
  | case1 a b rest ih => simp [packPairs, ih]; omega
  | case2 d h =>
    cases d with
    | nil => rfl
    | cons a d =>
      cases d with
      | nil => simp [packPairs]
      | cons b rest => exact absurd rfl (h a b rest)

/-- The nibbles of packed digits are the digits. -/
theorem nibblesOf_packPairs {d : Bytes} (hd : allDigits d = true) (he : d.length % 2 = 0) :
    nibblesOf (packPairs d) = d.map dval := by
  induction d using packPairs.induct with
  | case1 a b rest ih =>
    simp at hd
    have ha := dval_le hd.1
    have hb := dval_le hd.2.1
    simp only [packPairs, nibblesOf, List.map_cons, hi_nibbles (show dval a < 16 by omega) (show dval b < 16 by omega),
      lo_nibbles (show dval a < 16 by omega) (show dval b < 16 by omega)]
    rw [ih hd.2.2 (by simp at he; omega)]
  | case2 d h =>
    cases d with
    | nil => rfl
    | cons a d =>
      cases d with
      | nil => simp at he
      | cons b rest => exact absurd rfl (h a b rest)

theorem map_dchr_dval {d : Bytes} (hd : allDigits d = true) : (d.map dval).map dchr = d := by
  induction d with
  | nil => rfl
  | cons a d ih =>
    simp at hd
    simp only [List.map_cons, dchr_dval hd.1, ih hd.2]

/-- Unpacking packed digits gives them back, whatever follows the packed bytes. -/
theorem unpackNibbles_packPairs {d : Bytes} (hd : allDigits d = true) (he : d.length % 2 = 0) {n : Nat}
    (hn : ceil2 n = d.length / 2) (rest : Bytes) (field : Nat) :
    unpackNibbles (packPairs d ++ rest) n field = .ok d := by
  have hl := packPairs_length d
  have htake : (packPairs d ++ rest).take (ceil2 n) = packPairs d := by
    rw [hn, ← hl]
    simp
  have hge : ¬(packPairs d ++ rest).length < ceil2 n := by
    simp only [List.length_append, hl, hn]; omega
  unfold unpackNibbles
  rw [if_neg hge, htake, nibblesOf_packPairs hd he]
  have hall : (d.map dval).all (· ≤ 9) = true := by
    simp only [List.all_map, List.all_eq_true]
    intro x hx
    simpa using dval_le ((List.all_eq_true.mp hd) x hx)
  simp only [hall, if_true, map_dchr_dval hd]

/-- All that `unpack_nibbles` can do (R104). -/
theorem unpackNibbles_cases (bs : Bytes) (n field : Nat) :
    (bs.length < ceil2 n ∧ unpackNibbles bs n field = .error (truncated field)) ∨
    (ceil2 n ≤ bs.length ∧ DecimalNibbles bs (ceil2 n) ∧
      unpackNibbles bs n field = .ok ((nibblesOf (bs.take (ceil2 n))).map dchr)) ∨
    (ceil2 n ≤ bs.length ∧ ¬DecimalNibbles bs (ceil2 n) ∧ unpackNibbles bs n field = .error (badDigit field)) := by
  unfold unpackNibbles
  by_cases hl : bs.length < ceil2 n
  · exact .inl ⟨hl, if_pos hl⟩
  · rw [if_neg hl]
    by_cases hd : DecimalNibbles bs (ceil2 n)
    · have := (nibblesOf_all_le (by omega)).mpr hd
      exact .inr (.inl ⟨by omega, hd, by simp only [this, if_true]⟩)
    · have h : ¬(nibblesOf (bs.take (ceil2 n))).all (· ≤ 9) = true := fun h => hd ((nibblesOf_all_le (by omega)).mp h)
      exact .inr (.inr ⟨by omega, hd, by simp only [h]; rfl⟩)

/-- Digit `k` of what `unpack_nibbles` gives. -/
theorem unpacked_getD (bs : Bytes) {m k : Nat} (hm : m ≤ bs.length) (hk : k < 2 * m) :
    ((nibblesOf (bs.take m)).map dchr).getD k 0 = dchr (nibbleAt bs k) := by
  have hk' : k < (nibblesOf (bs.take m)).length := by simp; omega
  rw [← nibbleAt_take bs hk, ← nibblesOf_getD, List.getD_eq_getElem _ _ (by simpa using hk'),
    List.getD_eq_getElem _ _ hk', List.getElem_map]

end Sys2Proof.Machine
end

