-- ==== Sys2Proof/Laws/Codec.lean ====
section
/-! SUPPORT. How a command ends, from what its pseudocode computes; and what each codec function can do: unpacking, the
length header, the table, and the tests every field makes. -/

namespace Sys2Proof.Machine

/-! ## How a command ends -/

theorem configWf_bufCap {c : Config} (h : configWf c = true) : c.bufCap < 2 ^ 32 ∧ 18 ≤ c.bufCap := by
  simp [configWf] at h
  omega

theorem configWf_defs {c : Config} (h : configWf c = true) : defsWf c.bufCap c.subDepth 1 c.defs = true := by
  simp only [configWf, Bool.and_eq_true] at h
  exact h.2

/-- A command whose pseudocode comes down to emitting a byte string that fits succeeds with it as its valid output. -/
theorem exec_of_emit {i : Instr} {s : State} {field : Nat} {v : Bytes} (hc : configWf s.cfg = true)
    (hv : v.length ≤ s.cfg.bufCap) (hi : commandBody i (clearResults s) = emit field v (clearResults s)) :
    ∃ t, exec i s = .next t ∧ Succeeded t ∧ output t = v ∧ t.olen.toNat = v.length ∧ t.consumed = 0 ∧ t.res = 0 := by
  have hb := (configWf_bufCap hc).1
  rw [emit_clearResults field hv] at hi
  rw [exec_eq_runCommand, runCommand_ok hi]
  have hl : (BitVec.ofNat 32 v.length).toNat = v.length := by
    rw [BitVec.toNat_ofNat]
    exact Nat.mod_eq_of_lt (by omega)
  exact ⟨_, rfl, ⟨rfl, rfl, rfl, ⟨rfl, rfl, rfl, rfl, rfl⟩⟩, output_of_write (m := s.obuf) rfl rfl (by omega), hl, rfl, rfl⟩

/-- A command whose pseudocode raises an error fails with it, its destination invalidated. -/
theorem exec_of_error {i : Instr} {s : State} {e : CmdError} (hi : commandBody i (clearResults s) = .error e)
    (h1 : e.field < 256) (h2 : e.declared < 65536) (h3 : e.actual < 2 ^ 32) :
    ∃ t, exec i s = .next t ∧ Failed e t ∧ t = raiseError e (invalidated (commandInvalidate i) e (clearResults s)) := by
  rw [exec_eq_runCommand, runCommand_error hi]
  refine ⟨_, rfl, ?_, rfl⟩
  constructor <;> simp <;> omega

/-- An error leaves everything but the destination of the command, the result registers and STATUS as it was. -/
theorem keepsInputs_raiseError (i : Instr) (e : CmdError) (s : State) :
    KeepsInputs s (raiseError e (invalidated (commandInvalidate i) e (clearResults s))) := by
  unfold invalidated
  split
  · constructor <;> rfl
  · cases i <;> constructor <;> rfl

/-- So does a success. -/
theorem keepsInputs_writes {i : Instr} {s u : State} (h : CommandWrites s i u) : KeepsInputs s (finish u) := by
  cases h <;> constructor <;> rfl

theorem errNumber_ne_zero (e : ErrCode) : errNumber e ≠ 0#8 := by cases e <;> decide

/-! ## Operands -/

theorem kindOperand_named {operand : BitVec 8} {kind : FieldKind} (h : KindNamed operand kind) :
    kindOperand operand = .ok kind := by
  obtain ⟨h1, h2⟩ := h
  unfold kindOperand
  rw [h2]
  cases kind <;> first | rfl | exact absurd rfl h1

theorem indexOperand_ok {i : BitVec 8} (h1 : 2 ≤ i.toNat) (h2 : i.toNat ≤ 128) : indexOperand i = .ok i.toNat := by
  simp [indexOperand, h1, h2]

theorem indexOperand_illegal {i : BitVec 8} (h : ¬(2 ≤ i.toNat ∧ i.toNat ≤ 128)) :
    indexOperand i = .error badIndexError := by
  unfold indexOperand
  rw [if_neg (by simpa using h)]

/-! ## Unpacking (R104 to R106) -/

/-- What `unpack_l` gives when there are enough bytes and they hold decimal nibbles. -/
theorem unpackL_ok {pad : LbcdPad} {bs : Bytes} {n field : Nat} (h1 : ceil2 n ≤ bs.length)
    (h2 : DecimalNibbles bs (ceil2 n)) :
    ∃ v, unpackL pad bs n field = .ok v ∧ v.length = n ∧
      ∀ k, k < n → v.getD k 0 = dchr (nibbleAt bs (if pad = .trailing then k else 2 * ceil2 n - n + k)) := by
  rcases unpackNibbles_cases bs n field with ⟨h, -⟩ | ⟨-, -, h⟩ | ⟨-, h, -⟩
  · omega
  · unfold unpackL
    rw [h]
    have hn : n ≤ 2 * ceil2 n := by unfold ceil2; omega
    have hl : ((nibblesOf (bs.take (ceil2 n))).map dchr).length = 2 * ceil2 n := by simp; omega
    cases pad with
    | trailing =>
      refine ⟨_, rfl, by simp; omega, fun k hk => ?_⟩
      rw [if_pos rfl, ← unpacked_getD bs h1 (by omega)]
      simp [List.getD_eq_getElem?_getD, hk]
    | leading =>
      refine ⟨_, rfl, by simp [lastN]; omega, fun k hk => ?_⟩
      rw [if_neg (by simp), ← unpacked_getD bs h1 (by omega)]
      simp only [lastN, hl, List.getD_eq_getElem?_getD, List.getElem?_drop]
  · exact absurd h2 h

/-- `unpack_r` keeps the same nibbles as `unpack_l` under Leading (R106). -/
theorem unpackR_eq (bs : Bytes) (n field : Nat) : unpackR bs n field = unpackL .leading bs n field := rfl

/-! ## The length header (R121 to R125) -/

@[simp] theorem headerBytes_length (mode : Var2Byte0) (kind : FieldKind) (n : Nat) :
    (headerBytes mode kind n).length = hdrSize kind := by cases kind <;> rfl

/-- All that `dec_len` can do (R125). -/
theorem decLen_cases (kind : FieldKind) (bs : Bytes) (field : Nat) :
    (bs.length < hdrSize kind ∧ decLen kind bs field = .error (truncated field)) ∨
    (hdrSize kind ≤ bs.length ∧ DecimalNibbles bs (hdrSize kind) ∧ decLen kind bs field = .ok (headerNumber kind bs)) ∨
    (hdrSize kind ≤ bs.length ∧ ¬DecimalNibbles bs (hdrSize kind) ∧
      decLen kind bs field = .error (parseFailed field)) := by
  unfold decLen
  by_cases hl : bs.length < hdrSize kind
  · exact .inl ⟨hl, if_pos hl⟩
  · rw [if_neg hl]
    by_cases hd : DecimalNibbles bs (hdrSize kind)
    · refine .inr (.inl ⟨by omega, hd, ?_⟩)
      have hall := (nibblesOf_all_le (by omega)).mpr hd
      simp only [hall, if_true]
      congr 1
      cases kind with
      | fixed => simp [hdrSize, nibblesOf, decimal, headerNumber]
      | var1 =>
        match bs, hl with
        | b :: bs, _ => simp [hdrSize, nibblesOf, decimal, headerNumber, nibbleAt]; omega
        | [], hl => simp [hdrSize] at hl
      | var2 =>
        match bs, hl with
        | [], hl => simp [hdrSize] at hl
        | [b], hl => simp [hdrSize] at hl
        | a :: b :: bs, _ => simp [hdrSize, nibblesOf, decimal, headerNumber, nibbleAt]; omega
      | var2Wide =>
        match bs, hl with
        | [], hl => simp [hdrSize] at hl
        | [b], hl => simp [hdrSize] at hl
        | a :: b :: bs, _ => simp [hdrSize, nibblesOf, decimal, headerNumber, nibbleAt]; omega
    · have h : ¬(nibblesOf (bs.take (hdrSize kind))).all (· ≤ 9) = true :=
        fun h => hd ((nibblesOf_all_le (by omega)).mp h)
      exact .inr (.inr ⟨by omega, hd, by simp only [h]; rfl⟩)

/-- A header of decimal nibbles spells at most four digits. -/
theorem headerNumber_le {kind : FieldKind} {bs : Bytes} (h : DecimalNibbles bs (hdrSize kind)) :
    headerNumber kind bs ≤ 9999 := by
  cases kind with
  | fixed => simp [headerNumber]
  | var1 =>
    have h0 := h 0 (by simp [hdrSize])
    have h1 := h 1 (by simp [hdrSize])
    simp [headerNumber]
    omega
  | var2 =>
    have h0 := h 0 (by simp [hdrSize])
    have h1 := h 1 (by simp [hdrSize])
    have h2 := h 2 (by simp [hdrSize])
    have h3 := h 3 (by simp [hdrSize])
    simp [headerNumber]
    omega
  | var2Wide =>
    have h0 := h 0 (by simp [hdrSize])
    have h1 := h 1 (by simp [hdrSize])
    have h2 := h 2 (by simp [hdrSize])
    have h3 := h 3 (by simp [hdrSize])
    simp [headerNumber]
    omega

/-- Bytes after the header do not matter. -/
theorem decLen_append {kind : FieldKind} {header : Bytes} (rest : Bytes) (field : Nat)
    (h : header.length = hdrSize kind) : decLen kind (header ++ rest) field = decLen kind header field := by
  unfold decLen
  have h1 : ¬(header ++ rest).length < hdrSize kind := by simp; omega
  have h2 : ¬header.length < hdrSize kind := by omega
  rw [if_neg h1, if_neg h2]
  have : (header ++ rest).take (hdrSize kind) = header.take (hdrSize kind) := by rw [← h]; simp
  rw [this]

/-! ## The table (R30, R31) -/

/-- What R31 gives for an entry of the table of a configuration the spec speaks of. -/
theorem lookupDef_wf {cap depth : Nat} : ∀ {defs : List (Nat × FieldDef)} {last i : Nat} {d : FieldDef},
    defsWf cap depth last defs = true → lookupDef defs i = some d →
    last < i ∧ i ≤ 128 ∧ defWf depth d = true ∧ entryFits cap d = true
  | [], _, _, _, _, hl => by simp [lookupDef] at hl
  | (j, d) :: rest, last, i, d', h, hl => by
    simp only [defsWf, Bool.and_eq_true, decide_eq_true_eq] at h
    simp only [lookupDef] at hl
    split at hl
    · rename_i hij
      cases hl
      subst hij
      exact ⟨h.1.1.1.1, h.1.1.1.2, h.1.1.2, h.1.2⟩
    · have := lookupDef_wf h.2 hl
      have hj := h.1.1.1.1
      exact ⟨by omega, this.2⟩

theorem tableEntry_of_lookup {c : Config} {i : Nat} {d : FieldDef} (h : lookupDef c.defs i = some d) :
    tableEntry c i = .ok d := by
  simp [tableEntry, h]

theorem tableEntry_ok {c : Config} {i : Nat} {d : FieldDef} (h : tableEntry c i = .ok d) : lookupDef c.defs i = some d := by
  unfold tableEntry at h
  split at h
  · cases h; assumption
  · simp at h

theorem filledSlot_of_some {s : State} {i : Nat} {v : FieldValue} (h : fieldSlot s i = some v) :
    filledSlot s i = .ok v := by
  simp [filledSlot, h]

/-! ## Headers, numeric values and bitmaps -/

/-- A header in range goes on the wire before the body. -/
theorem withHeader_ok {c : Config} {i len : Nat} {kind : FieldKind} {body : Bytes} (h : len ≤ lenMax kind) :
    withHeader c i kind len body = .ok (wireHeader c kind len ++ body) := by
  unfold withHeader wireHeader
  split
  · rfl
  · have : ¬lenMax kind < len := by omega
    simp [encLen, this]

@[simp] theorem wireHeader_length (c : Config) (kind : FieldKind) (len : Nat) :
    (wireHeader c kind len).length = hdrSize kind := by
  unfold wireHeader
  split
  · subst_vars; rfl
  · simp

/-- The three outcomes of `fit_numeric` (R108). -/
theorem fitNumeric_eq (enc : ByteEncoding) (kind : FieldKind) (dl i : Nat) (v : Bytes) :
    fitNumeric enc kind dl i v =
      if enc = .rbcd ∧ v.length = dl + 1 ∧ v.head? = some 0x30 then .ok v.tail
      else if dl < v.length then .error (tooLong i dl v.length)
      else if kind = .fixed then .ok (List.replicate (dl - v.length) 0x30 ++ v) else .ok v := by
  unfold fitNumeric carveOut
  by_cases h : enc = .rbcd ∧ v.length = dl + 1 ∧ v.head? = some 0x30
  · rw [if_pos h, if_pos h]
    have : v.tail.length = dl := by simp; omega
    simp [this]
  · rw [if_neg h, if_neg h]

@[simp] theorem setBitmapBit_length (bm : Bytes) (i : Nat) : (setBitmapBit bm i).length = bm.length := by
  simp [setBitmapBit]

theorem bitMask_bit (i : Nat) {k : Nat} (hk : k < 8) : (bitMask i).getLsbD k = decide (k = 7 - (i - 1) % 8) := by
  have key : ∀ m : Fin 8, ∀ k : Fin 8, (1#8 <<< m.val).getLsbD k.val = decide (k.val = m.val) := by decide
  exact key ⟨7 - (i - 1) % 8, by omega⟩ ⟨k, hk⟩

/-- Setting a bit of a bitmap sets that bit and no other (R170, R171). -/
theorem bitmapBit_set {bm : Bytes} {i j : Nat} (hi : 1 ≤ i) (hi' : i ≤ 8 * bm.length) (hj : 1 ≤ j) :
    bitmapBit (setBitmapBit bm i) j = (decide (j = i) || bitmapBit bm j) := by
  unfold bitmapBit setBitmapBit
  by_cases hq : (i - 1) / 8 = (j - 1) / 8
  · rw [hq]
    have hlt : (j - 1) / 8 < bm.length := by omega
    have h : (bm.modify ((j - 1) / 8) (· ||| bitMask i)).getD ((j - 1) / 8) 0 =
        bm.getD ((j - 1) / 8) 0 ||| bitMask i := by
      rw [List.getD_eq_getElem _ _ (by simpa using hlt), List.getD_eq_getElem _ _ hlt]
      simp
    rw [h, BitVec.getLsbD_or, bitMask_bit i (by omega), Bool.or_comm]
    congr 1
    rw [decide_eq_decide]
    omega
  · have h : (bm.modify ((i - 1) / 8) (· ||| bitMask i)).getD ((j - 1) / 8) 0 = bm.getD ((j - 1) / 8) 0 := by
      simp [List.getD_eq_getElem?_getD, hq]
    rw [h]
    have : ¬j = i := by omega
    simp [this]

end Sys2Proof.Machine
end

