-- ==== Sys2Proof/Laws/Encoding.lean ====
section
/-! SUPPORT. The fields of a packed command word, as bits and as numbers. -/

namespace Sys2Proof

theorem packWord_toNat (b : BitVec 16) (a op : BitVec 8) :
    (packWord b a op).toNat = b.toNat * 65536 + a.toNat * 256 + op.toNat := by
  have h : packWord b a op = ((b ++ a ++ op : BitVec (16 + 8 + 8)) : BitVec (16 + 8 + 8)) := rfl
  have ha := a.isLt
  have ho := op.isLt
  rw [h, BitVec.toNat_append, BitVec.toNat_append, ← Nat.shiftLeft_add_eq_or_of_lt ho,
    ← Nat.shiftLeft_add_eq_or_of_lt ha]
  simp only [Nat.shiftLeft_eq]
  omega

theorem wordOp_toNat (w : Word) : (wordOp w).toNat = w.toNat % 256 := by simp [wordOp]

theorem wordA_toNat (w : Word) : (wordA w).toNat = w.toNat / 256 % 256 := by
  simp [wordA, Nat.shiftRight_eq_div_pow]

theorem wordB_toNat (w : Word) : (wordB w).toNat = w.toNat / 65536 := by
  have := w.isLt
  simp [wordB, Nat.shiftRight_eq_div_pow]
  omega

@[simp] theorem wordOp_packWord (b : BitVec 16) (a op : BitVec 8) : wordOp (packWord b a op) = op := by
  have := op.isLt
  have := a.isLt
  apply BitVec.eq_of_toNat_eq
  rw [wordOp_toNat, packWord_toNat]
  omega

@[simp] theorem wordA_packWord (b : BitVec 16) (a op : BitVec 8) : wordA (packWord b a op) = a := by
  have := op.isLt
  have := a.isLt
  apply BitVec.eq_of_toNat_eq
  rw [wordA_toNat, packWord_toNat]
  omega

@[simp] theorem wordB_packWord (b : BitVec 16) (a op : BitVec 8) : wordB (packWord b a op) = b := by
  have := op.isLt
  have := a.isLt
  apply BitVec.eq_of_toNat_eq
  rw [wordB_toNat, packWord_toNat]
  omega

/-- A word is packed from its own three fields. -/
theorem packWord_fields (w : Word) : packWord (wordB w) (wordA w) (wordOp w) = w := by
  apply BitVec.eq_of_toNat_eq
  rw [packWord_toNat, wordB_toNat, wordA_toNat, wordOp_toNat]
  omega

end Sys2Proof
end

