-- ==== Sys2Proof/Laws/PerInstr.lean ====
section
/-! SUPPORT. The family TableRow of statements about every command as syntax: its word matches its own row of
spec/30_encoding.md rule R72 under that row's mask. -/

namespace Sys2Proof.Laws.TableRow

/-- The word of the command, masked, is its row's match. -/
def Statement (i : Instr) : Prop := encode i &&& i.rowMask = i.rowMatch

/-- Each mask keeps a field of the word whole or drops it, so the fields can be masked one by one. -/
theorem packWord_and (b1 b2 : BitVec 16) (a1 a2 o1 o2 : BitVec 8) :
    packWord b1 a1 o1 &&& packWord b2 a2 o2 = packWord (b1 &&& b2) (a1 &&& a2) (o1 &&& o2) := by
  change (b1 ++ a1 ++ o1 : BitVec (16 + 8 + 8)) &&& (b2 ++ a2 ++ o2) = (b1 &&& b2) ++ (a1 &&& a2) ++ (o1 &&& o2)
  rw [BitVec.and_append, BitVec.and_append]

theorem packLbcd : Statement .packLbcd := rfl
theorem packRbcd : Statement .packRbcd := rfl
theorem unpackL (n : BitVec 16) : Statement (.unpackL n) := by
  simpa [Statement, encode, Instr.rowMask, Instr.rowMatch, packWord] using packWord_and n 0 0 0xFF 0x03 0xFF
theorem unpackR (n : BitVec 16) : Statement (.unpackR n) := by
  simpa [Statement, encode, Instr.rowMask, Instr.rowMatch, packWord] using packWord_and n 0 0 0xFF 0x04 0xFF
theorem encLen (kind : BitVec 8) (len : BitVec 16) : Statement (.encLen kind len) := by
  simpa [Statement, encode, Instr.rowMask, Instr.rowMatch, packWord] using packWord_and len 0 kind 0 0x10 0xFF
theorem decLen (kind : BitVec 8) : Statement (.decLen kind) := by
  simpa [Statement, encode, Instr.rowMask, Instr.rowMatch, packWord] using packWord_and 0 0xFFFF kind 0 0x11 0xFF
theorem fieldEnc (i : BitVec 8) : Statement (.fieldEnc i) := by
  simpa [Statement, encode, Instr.rowMask, Instr.rowMatch, packWord] using packWord_and 0 0xFFFF i 0 0x20 0xFF
theorem fieldDec (i : BitVec 8) : Statement (.fieldDec i) := by
  simpa [Statement, encode, Instr.rowMask, Instr.rowMatch, packWord] using packWord_and 0 0xFFFF i 0 0x21 0xFF
theorem bmpBuild : Statement .bmpBuild := rfl
theorem bmpParse : Statement .bmpParse := rfl
theorem msgEnc : Statement .msgEnc := rfl
theorem msgDec : Statement .msgDec := rfl
theorem mac : Statement .mac := rfl

end Sys2Proof.Laws.TableRow
end

