-- ==== Sys2Proof/Tests/Slice0.lean ====
section
/-! SUPPORT. The model's own tests: each expected result is a vector of spec/95_test_vectors.md (V-numbers) or worked by hand
from the rule named; and for every obligation with hypotheses a concrete state and operands that meet them together. -/

namespace Sys2Proof.Tests

set_option Elab.async false

open Sys2Proof Sys2Proof.Machine

/-! ## Helpers -/

/-- The reset state with a byte string in IBUF, as after HostWriteIBUF. -/
def withInput (c : Config) (bs : Bytes) : State := hostMove (.writeIBUF bs) (State.resetWith c)

/-- The reset state with one slot populated, as after HostSetField. -/
def withSlot (c : Config) (i : Nat) (v : FieldValue) : State := hostMove (.setField i (some v)) (State.resetWith c)

/-- The state an outcome leads to. -/
def after (o : Outcome) : State :=
  match o with
  | .next t => t
  | _ => State.reset

/-- The outcome is a next state. -/
def isNext (o : Outcome) : Bool :=
  match o with
  | .next _ => true
  | _ => false

theorem next_after {o : Outcome} (h : isNext o = true) : o = .next (after o) := by
  cases o <;> first | rfl | cases h

/-- The characters of a string of digits, given as numbers. -/
def digits (ds : List Nat) : Bytes := ds.map fun d => BitVec.ofNat 8 (0x30 + d)

/-- A composite of scalars. -/
def children : List Bytes → FieldValues
  | [] => .nil
  | s :: rest => .cons (.scalar s) (children rest)

/-- V87's message: TPDU "6000030000", no HDR, MTI "0800", F[3] = "990000", F[70] = "301". -/
def v87 : State :=
  hostMove (.setField 70 (some (.scalar (digits [3, 0, 1]))))
    (hostMove (.setField 3 (some (.scalar (digits [9, 9, 0, 0, 0, 0]))))
      (hostMove (.setMTI (digits [0, 8, 0, 0])) (hostMove (.setTPDU (digits [6, 0, 0, 0, 0, 3, 0, 0, 0, 0])) State.reset)))

/-- The TPDU, MTI, bitmap and payload bytes of V87. -/
def v87Tpdu : Bytes := [0x60, 0x00, 0x03, 0x00, 0x00]
def v87Bitmap : Bytes := [0xA0, 0, 0, 0, 0, 0, 0, 0, 0x04, 0, 0, 0, 0, 0, 0, 0]
def v87Frame : Bytes := v87Tpdu ++ [] ++ [0x08, 0x00] ++ v87Bitmap ++ [0x99, 0x00, 0x00, 0x30, 0x10]

/-- The payload of each field of V87, and its decoded value. -/
def v87Payload (i : Nat) : Bytes := if i = 3 then [0x99, 0x00, 0x00] else [0x30, 0x10]
def v87Value (i : Nat) : FieldValue := if i = 3 then .scalar (digits [9, 9, 0, 0, 0, 0]) else .scalar (digits [3, 0, 1])

/-- V94's input and the MAC key of section 2.7. -/
def v94Key : State := hostMove (.writeKEY [1, 2, 3, 4, 5, 6, 7, 8])
  (withInput ex1 [0x99, 0, 0, 0, 0x06, 0x22, 0, 0, 0x01, 0, 0x30])

/-- The composite value of V50 and the one V61 decodes. -/
def v50Value : FieldValue := .composite (children [digits [2, 2], digits [1], digits [3]])
def v61Value : FieldValue := .composite (children [digits [2, 2], digits [0, 0, 0, 0, 0, 1], digits [0, 0, 3]])

/-! ## WellFormed: an ill-formed term for each check -/

theorem test_illformed_encLen_kind0 : (Instr.encLen 0 5).wellFormed = false := by decide
theorem test_illformed_encLen_kind4 : (Instr.encLen 4 5).wellFormed = false := by decide
theorem test_illformed_decLen_kind0 : (Instr.decLen 0).wellFormed = false := by decide
theorem test_illformed_fieldEnc_index1 : (Instr.fieldEnc 1).wellFormed = false := by decide
theorem test_illformed_fieldEnc_index129 : (Instr.fieldEnc 129).wellFormed = false := by decide
theorem test_illformed_fieldDec_index0 : (Instr.fieldDec 0).wellFormed = false := by decide
theorem test_wellformed_bounds : (Instr.encLen 1 0).wellFormed = true ∧ (Instr.decLen 3).wellFormed = true ∧
    (Instr.fieldEnc 2).wellFormed = true ∧ (Instr.fieldDec 128).wellFormed = true := by decide

/-! ## The configuration: one broken condition of R4 and R31 each -/

theorem test_config_odd_tpdu : configWf { ex1 with tpduDigits := 9 } = false := by decide +kernel
theorem test_config_small_buffer : configWf { ex1 with bufCap := 28 } = false := by decide +kernel
theorem test_config_least_buffer : configWf { ex1 with bufCap := 29, defs := [] } = true := by decide +kernel
theorem test_config_entry_one : configWf { ex1 with defs := [(1, .scalar .fixed 0 1)] } = false := by decide +kernel
theorem test_config_length_over_kind : configWf { ex1 with defs := [(2, .scalar .var1 0 100)] } = false := by
  decide +kernel
theorem test_config_variable_subfield :
    configWf { ex1 with defs := [(2, .composite .var1 0 9 (.cons (.scalar .var1 0 3) .nil))] } = false := by decide +kernel
theorem test_config_bcd_composite :
    configWf { ex1 with defs := [(2, .composite .var1 2 9 (.cons (.scalar .fixed 0 3) .nil))] } = false := by decide +kernel
theorem test_config_fixed_composite_sum :
    configWf { ex1 with defs := [(2, .composite .fixed 0 9 (.cons (.scalar .fixed 0 3) .nil))] } = false := by
  decide +kernel
theorem test_config_over_buffer : configWf { ex1 with defs := [(2, .scalar .var2Wide 0 2047)] } = false := by
  decide +kernel

/-! ## Decoding: a word of each row, written out from its encoding (R70 to R72): B, then A, then OP -/

theorem test_word_packLbcd : decode 0b00000000000000000000000000000001 = .ok .packLbcd := by decide
theorem test_word_packRbcd : decode 0b00000000000000000000000000000010 = .ok .packRbcd := by decide
theorem test_word_unpackL : decode 0b00000000000000110000000000000011 = .ok (.unpackL 3) := by decide
theorem test_word_unpackR : decode 0b10000000000000010000000000000100 = .ok (.unpackR 0x8001) := by decide
theorem test_word_encLen : decode 0b00000100110100100000001100010000 = .ok (.encLen 3 1234) := by decide
theorem test_word_decLen : decode 0b00000000000000000000001000010001 = .ok (.decLen 2) := by decide
theorem test_word_fieldEnc : decode 0b00000000000000000000010000100000 = .ok (.fieldEnc 4) := by decide
theorem test_word_fieldDec : decode 0b00000000000000001000000000100001 = .ok (.fieldDec 128) := by decide
theorem test_word_bmpBuild : decode 0b00000000000000000000000000110000 = .ok .bmpBuild := by decide
theorem test_word_bmpParse : decode 0b00000000000000000000000000110001 = .ok .bmpParse := by decide
theorem test_word_msgEnc : decode 0b00000000000000000000000001000000 = .ok .msgEnc := by decide
theorem test_word_msgDec : decode 0b00000000000000000000000001000001 = .ok .msgDec := by decide
theorem test_word_mac : decode 0b00000000000000000000000001010000 = .ok .mac := by decide

/-- V99 and V100: unknown opcodes and reserved bits. -/
theorem test_words_refused :
    [0x00000000, 0x000000FF, 0x00000005].map decode = List.replicate 3 (.error .unknownOpcode) ∧
    [0x00000101, 0x00010220, 0x00000103].map decode = List.replicate 3 (.error .reservedBits) := by decide

theorem test_table_word : decodeTableWord 32 0x00030003 = some (.unpackL 3) ∧ decodeTableWord 32 5 = none := by decide

/-! ## Reset and the fetch -/

theorem test_reset_memory_canonical :
    State.reset.ibuf.wf = true ∧ State.reset.obuf.wf = true ∧ State.reset.key.wf = true := by decide +kernel

/-- The first step after reset runs the word placed for it: MSG_ENC on the empty message fails on its TPDU (R191). -/
theorem test_fetch_word_runs_first :
    (after (step (State.reset.withFetchWord 32 0x40))).err = 1 ∧
    (after (step (State.reset.withFetchWord 32 0x40))).pending = [] := by decide +kernel

/-- Memory keeps its offsets rising, and the last write wins. -/
theorem test_memory_write : Memory.write (Memory.write [] 2 [7, 8]) 1 [5, 6] = [(1, 5), (2, 6), (3, 8)] := by decide

/-! ## One step of each command -/

/-- V2 and its form under Leading. -/
theorem test_packLbcd_odd : output (after (exec .packLbcd (withInput ex1 (digits [1, 2, 3])))) = [0x12, 0x30] ∧
    output (after (exec .packLbcd (withInput { ex1 with lbcdPad := .leading } (digits [1, 2, 3])))) = [0x01, 0x23] := by
  decide +kernel

/-- V4. -/
theorem test_packLbcd_bad : (after (exec .packLbcd (withInput ex1 [0x31, 0x32, 0x41, 0x34]))).err = 5 := by decide +kernel

/-- V5 and V7. -/
theorem test_packRbcd_odd : output (after (exec .packRbcd (withInput ex1 (digits [1, 2, 3])))) = [0x01, 0x23] ∧
    output (after (exec .packRbcd (withInput ex1 (digits [7])))) = [0x07] := by decide +kernel

/-- V9 and V10: the pad nibble is dropped and tested. -/
theorem test_unpackL_pad : output (after (exec (.unpackL 3) (withInput ex1 [0x12, 0x39]))) = digits [1, 2, 3] ∧
    (after (exec (.unpackL 3) (withInput ex1 [0x12, 0x3F]))).err = 5 := by decide +kernel

/-- V14. -/
theorem test_unpackL_truncated : (after (exec (.unpackL 4) (withInput ex1 [0x12]))).err = 7 := by decide +kernel

/-- V12 and V13. -/
theorem test_unpackR_takes_last : output (after (exec (.unpackR 3) (withInput ex1 [0x12, 0x30]))) = digits [2, 3, 0] ∧
    (after (exec (.unpackR 3) (withInput ex1 [0xA0, 0x21]))).err = 5 := by decide +kernel

/-- V23 and V18. -/
theorem test_encLen_var2 : output (after (exec (.encLen 2 305) State.reset)) = [0x07, 0x05] ∧
    output (after (exec (.encLen 3 1234) State.reset)) = [0x12, 0x34] := by decide +kernel

/-- V17: ValueTooLong(0, 99, 100). -/
theorem test_encLen_too_long :
    let t := after (exec (.encLen 1 100) State.reset)
    t.err = 4 ∧ t.errDecl = 99 ∧ t.errAct = 100 ∧ t.olen = 0 := by decide +kernel

/-- V30 and V31. -/
theorem test_decLen_reads :
    let t := after (exec (.decLen 3) (withInput ex1 [0x12, 0x34, 0xFF]))
    t.res = 1234 ∧ t.consumed = 2 ∧ (after (exec (.decLen 2) (withInput ex1 [0x99, 0x99]))).res = 9999 := by
  decide +kernel

/-- V29: a nibble above 9. -/
theorem test_decLen_bad :
    let t := after (exec (.decLen 1) (withInput ex1 [0x0A]))
    t.err = 6 ∧ t.res = 0 ∧ t.consumed = 0 ∧ t.errf = true := by decide +kernel

/-- V39 and V50: the carve-out, and a composite. -/
theorem test_fieldEnc_values :
    output (after (exec (.fieldEnc 22) (withSlot ex1 22 (.scalar (digits [0, 0, 2, 1]))))) = [0x00, 0x21] ∧
    output (after (exec (.fieldEnc 60) (withSlot ex1 60 v50Value))) = [0x00, 0x06, 0x22, 0x00, 0x00, 0x01, 0x00, 0x30] := by
  decide +kernel

/-- V45: InternalCodecError(41, 8, 6, cause 6). -/
theorem test_fieldEnc_short :
    let t := after (exec (.fieldEnc 41) (withSlot ex1 41 (.scalar [0x54, 0x45, 0x52, 0x4D, 0x30, 0x31])))
    t.err = 12 ∧ t.errField = 41 ∧ t.errDecl = 8 ∧ t.errAct = 6 ∧ t.errCause = 6 := by decide +kernel

/-- V63: the surplus body byte is skipped and consumed. -/
theorem test_fieldDec_composite :
    let t := after (exec (.fieldDec 60) (withInput ex1 [0x00, 0x07, 0x22, 0x00, 0x00, 0x01, 0x00, 0x30, 0xAA]))
    fieldSlot t 60 = some v61Value ∧ t.consumed = 9 := by decide +kernel

/-- S3: one byte short, the slot is left Empty. -/
theorem test_fieldDec_truncated :
    let t := after (exec (.fieldDec 4) (hostMove (.writeIBUF [0, 0, 0, 0, 0]) (withSlot ex1 4 (.scalar [0x39]))))
    t.err = 7 ∧ t.errField = 4 ∧ fieldSlot t 4 = none := by decide +kernel

/-- V73: indices 2, 64 and 128. -/
theorem test_bmpBuild_secondary :
    output (after (exec .bmpBuild { State.reset with pres := 0x40000000000000010000000000000001 })) =
      [0xC0, 0, 0, 0, 0, 0, 0, 1, 0, 0, 0, 0, 0, 0, 0, 1] := by decide +kernel

/-- V74: PRES[1] is ignored. -/
theorem test_bmpBuild_first_bit :
    output (after (exec .bmpBuild { State.reset with pres := 0xC0000000000000000000000000000000 })) =
      [0x40, 0, 0, 0, 0, 0, 0, 0] := by decide +kernel

/-- V77. -/
theorem test_bmpParse_secondary :
    let t := after (exec .bmpParse (withInput ex1 [0xC0, 0, 0, 0, 0, 0, 0, 1, 0, 0, 0, 0, 0, 0, 0, 1]))
    t.msg.sec = true ∧ t.pres = 0x40000000000000010000000000000001 ∧ t.consumed = 16 := by decide +kernel

/-- V79: seven bytes. -/
theorem test_bmpParse_truncated :
    let t := after (exec .bmpParse { withInput ex1 [0x80, 0, 0, 0, 0, 0, 0] with pres := 5 })
    t.err = 7 ∧ t.pres = 0 ∧ t.msg.sec = false := by decide +kernel

/-- V87. -/
theorem test_msgEnc_v87 : output (after (exec .msgEnc v87)) = v87Frame := by decide +kernel

/-- V90: a TPDU of the wrong width. -/
theorem test_msgEnc_tpdu : (after (exec .msgEnc { v87 with msg := { v87.msg with tpdu := digits [6, 0] } })).err = 1 := by
  decide +kernel

/-- V88. -/
theorem test_msgDec_v87 :
    let t := after (exec .msgDec (withInput ex1 v87Frame))
    t.msg.mti = digits [0, 8, 0, 0] ∧ t.msg.sec = true ∧ fieldSlot t 70 = some (.scalar (digits [3, 0, 1])) ∧
      t.consumed = 28 := by decide +kernel

/-- V60: UndefinedField(99), the message register file cleared. -/
theorem test_msgDec_undefined :
    let t := after (exec .msgDec (withInput ex1 (v87Tpdu ++ [0x08, 0x00] ++
      [0xA0, 0, 0, 0, 0, 0, 0, 0, 0, 0, 0, 0, 0x20, 0, 0, 0] ++ [0x99, 0, 0, 0, 0, 0])))
    t.err = 8 ∧ t.errField = 99 ∧ t.msg.tpdu = [] ∧ fieldSlot t 3 = none := by decide +kernel

/-- V94, over the spec's stand-in cipher `E(k, p)[j] = k[j] ^ p[j]`. -/
theorem test_mac_v94 :
    macComputeWith xorBlock [1, 2, 3, 4, 5, 6, 7, 8] (input v94Key) =
      .ok [0x30, 0x39, 0x30, 0x45, 0x30, 0x32, 0x30, 0x32] := by decide +kernel

/-- V98: a key of 7 bytes, and no MAC unit. -/
theorem test_mac_refuses :
    (after (exec .mac (hostMove (.writeKEY [1, 2, 3, 4, 5, 6, 7]) State.reset))).err = 11 ∧
    (after (exec .mac (State.resetWith { ex1 with hasMac := false }))).errCause = 10 := by decide +kernel

/-- P4: a dropped ILEN write sets PROTO and changes nothing else. -/
theorem test_ilen_over_capacity : hostMove (.writeReg 0x09 3000) State.reset = setProto State.reset := by decide +kernel

/-- STATUS after a success and after an error (95_test_vectors.md section 0), after P4's last command, and while BUSY. -/
theorem test_status_values :
    statusByte (after (exec .bmpBuild State.reset)) = 0x02 ∧ statusByte (after (exec .msgEnc State.reset)) = 0x06 ∧
    statusByte (after (exec .bmpBuild (hostMove (.writeReg 0x09 3000) State.reset))) = 0x0A ∧
    statusByte (startCommand 0x30 State.reset) = 0x01 := by decide +kernel

/-- InvalidHeader, InvalidMti (V90), InvalidEncoder (V53), InvalidHex (V49) and UndefinedField (V54) by their numbers. -/
theorem test_error_numbers :
    (after (exec .msgEnc { v87 with msg := { v87.msg with hdr := some (digits [6, 0, 3, 1]) } })).err = 2 ∧
    (after (exec .msgEnc { v87 with msg := { v87.msg with mti := [0x30, 0x38, 0x41, 0x30] } })).err = 3 ∧
    (after (exec (.fieldEnc 7) (withSlot ex1 7 (.scalar (digits [1, 2, 3, 4]))))).err = 9 ∧
    (after (exec (.fieldEnc 52) (withSlot ex1 52 (.scalar (digits [1]))))).err = 10 ∧
    (after (exec (.fieldEnc 99) (withSlot ex1 99 (.scalar (digits [1]))))).err = 8 := by decide +kernel

/-- The causes of V99 to V102, of V54 with its slot Empty, of V51's scalar, and of a text over `BUF_CAP` (R105). -/
theorem test_cause_numbers :
    ([0x00, 0x00010220, 0x00000010, 0x00000120].map fun w => (after (step (State.reset.withFetchWord 32 w))).errCause) =
      [1, 2, 3, 4] ∧
    (after (exec (.fieldEnc 99) State.reset)).errCause = 5 ∧
    (after (exec (.fieldEnc 60) (withSlot ex1 60 (.scalar (digits [2, 2]))))).errCause = 7 ∧
    (after (exec (.unpackL 30) (withInput { ex1 with bufCap := 29, defs := [] } (List.replicate 15 0)))).errCause = 8 := by
  decide +kernel

/-! ## Witnesses: a concrete state and operands that meet the hypotheses of each obligation, clause by clause -/

/-- EX1 is a configuration the spec speaks of. -/
theorem ex1_wf : configWf ex1 = true := by decide +kernel

/-- A state in which a command runs and the reset comes first. -/
theorem witness_ResetEventAbandonsCommand :
    let s := withPending [.reset] (startCommand 0x40 (withInput ex1 [1, 2]))
    configWf s.cfg = true ∧ s.pending = .reset :: [] ∧ s.busy = true := ⟨ex1_wf, rfl, rfl⟩

theorem witness_InvariantHoldsAtReset : configWf ex1 = true := ex1_wf

/-- A state in which MSG_ENC runs, reached from reset by a host move, meets the invariant and has a next step. -/
theorem witness_StepKeepsInvariant :
    (startCommand 0x40 State.reset).Inv ∧ ∃ t, step (startCommand 0x40 State.reset) = .next t := by
  refine ⟨?_, _, next_after (by decide +kernel)⟩
  constructor <;> simp [State.reset, State.resetWith, ex1_wf, Memory.wf, Memory.within, stringFits, headerFits,
    Message.empty, fieldSlot, Slots.get, slotFits]
  exact ⟨rfl, rfl, rfl, rfl, rfl⟩

theorem witness_StepRefusesOnlyBadConfiguration :
    configWf State.reset.cfg = true ∧ configWf (State.resetWith { ex1 with tpduDigits := 9 }).cfg = false := by
  decide +kernel

/-- A running command on an empty schedule and on one naming the block; an IDLE block on both; and a host move next, to an
IDLE block and to a BUSY one. -/
theorem witness_StepRunsCommandInCmd :
    let s := startCommand 0x00030003 State.reset
    let t := withPending [.block] s
    configWf s.cfg = true ∧ s.busy = true ∧ decode s.cmd = .ok (.unpackL 3) ∧ s.pending = [] ∧
      configWf t.cfg = true ∧ t.busy = true ∧ decode t.cmd = .ok (.unpackL 3) ∧ t.pending = .block :: [] := by
  decide +kernel

theorem witness_StepRunsCommandInCmd_others :
    (let s := State.reset
     configWf s.cfg = true ∧ s.busy = false ∧ s.pending = []) ∧
    (let s := withPending [.block] State.reset
     configWf s.cfg = true ∧ s.busy = false ∧ s.pending = .block :: []) ∧
    (let s := withPending [.host .clearMsg] State.reset
     configWf s.cfg = true ∧ s.busy = false ∧ s.pending = .host .clearMsg :: []) ∧
    (let s := withPending [.host .clearMsg] (startCommand 0x40 State.reset)
     configWf s.cfg = true ∧ s.busy = true ∧ s.pending = .host .clearMsg :: []) :=
  ⟨⟨ex1_wf, rfl, rfl⟩, ⟨ex1_wf, rfl, rfl⟩, ⟨ex1_wf, rfl, rfl⟩, ex1_wf, rfl, rfl⟩

/-- One word for each of the five causes, the last in a block without the MAC unit; and the words next to the bounds of the
kinds and the indices. -/
theorem witness_IllegalWordsAreRefusedInOrder :
    (∀ p ∈ [((0x00 : Word), ErrCause.unknownOpcode), (0x00010220, .reservedBits), (0x00000101, .reservedBits),
        (0x00000103, .reservedBits), (0x00050010, .badKind), (0x00000411, .badKind), (0x00000120, .badIndex),
        (0x00008121, .badIndex), (0x00000050, .macAbsent)],
      let s := startCommand p.1 (State.resetWith { ex1 with hasMac := false })
      configWf s.cfg = true ∧ s.busy = true ∧ s.pending = [] ∧
      let op := s.cmd.toNat % 256
      let a := s.cmd.toNat / 256 % 256
      let b := s.cmd.toNat / 65536
      (p.2 =
        if op ∉ [0x01, 0x02, 0x03, 0x04, 0x10, 0x11, 0x20, 0x21, 0x30, 0x31, 0x40, 0x41, 0x50] then .unknownOpcode
        else if (op ∈ [0x01, 0x02, 0x30, 0x31, 0x40, 0x41, 0x50] ∧ ¬(a = 0 ∧ b = 0)) ∨ (op ∈ [0x03, 0x04] ∧ a ≠ 0) ∨
          (op ∈ [0x11, 0x20, 0x21] ∧ b ≠ 0) then .reservedBits
        else if op ∈ [0x10, 0x11] ∧ ¬(1 ≤ a ∧ a ≤ 3) then .badKind
        else if op ∈ [0x20, 0x21] ∧ ¬(2 ≤ a ∧ a ≤ 128) then .badIndex
        else if op = 0x50 ∧ s.cfg.hasMac = false then .macAbsent
        else .none) ∧ p.2 ≠ .none) := by decide +kernel

/-- A legal word, and one that spells no command. -/
theorem witness_TwoStepLifeCycleIsAtomic :
    (decode 0x40 = .ok .msgEnc ∧ decode 0x00010220 = .error .reservedBits) ∧
    ∀ w ∈ [(0x40 : Word), 0x00010220],
      let s := withPending [.host (.writeCMD w), .block] v87
      configWf s.cfg = true ∧ s.busy = false ∧ s.pending = .host (.writeCMD w) :: .block :: [] := by
  have hc : configWf v87.cfg = true := by decide +kernel
  have hb : v87.busy = false := by decide +kernel
  exact ⟨by decide, fun w _ => ⟨hc, hb, rfl⟩⟩

theorem witness_DecodeAndEncodeAgree : decode 0x80010004 = .ok (.unpackR 0x8001) := by decide

/-- The values next to the legal kinds 1 to 3 and indices 2 to 128. -/
theorem witness_IllegalOperandsChangeNothing :
    (∀ x ∈ [0, 4, 255], ¬(1 ≤ (x : BitVec 8).toNat ∧ x.toNat ≤ 3)) ∧
    (∀ x ∈ [0, 1, 129, 255], ¬(2 ≤ (x : BitVec 8).toNat ∧ x.toNat ≤ 128)) := by decide

/-- An even count, an odd count under each pad mode, and no digits at all. -/
theorem witness_PackLbcdWritesDigits :
    ∀ s ∈ [withInput ex1 (digits [1, 2, 3, 4]), withInput ex1 (digits [1, 2, 3]), withInput ex1 [],
        withInput { ex1 with lbcdPad := .leading } (digits [1, 2, 3])],
      configWf s.cfg = true ∧ s.ilen.toNat ≤ s.cfg.bufCap ∧ allDigits (input s) = true := by decide +kernel

theorem witness_PackRbcdWritesDigits :
    ∀ s ∈ [withInput ex1 (digits [1, 2, 3, 4]), withInput ex1 (digits [7])],
      configWf s.cfg = true ∧ s.ilen.toNat ≤ s.cfg.bufCap ∧ allDigits (input s) = true := by decide +kernel

/-- The last clause of both packing statements: the byte above 9 and the byte below 0, at the last place. -/
theorem witness_PackLbcdWritesDigits_bad :
    ∀ b ∈ [(0x3A : Byte), 0x2F],
      let s := withInput ex1 [0x31, b]
      1 < s.ilen.toNat ∧ isDigit ((input s).getD 1 0) = false := by decide +kernel

theorem witness_UnpackLeftTakesDigits :
    let s := withInput ex1 [0x12, 0x39]
    configWf s.cfg = true ∧
    ∀ n : BitVec 16, n = 0 ∨ n = 3 ∨ n = 4 →
      ceil2 n.toNat ≤ s.ilen.toNat ∧ n.toNat ≤ s.cfg.bufCap ∧ DecimalNibbles (input s) (ceil2 n.toNat) := by
  refine ⟨ex1_wf, ?_⟩
  rintro n (rfl | rfl | rfl) <;> decide +kernel

theorem witness_UnpackRightTakesDigits :
    let s := withInput ex1 [0x90, 0x21]
    configWf s.cfg = true ∧ ceil2 3 ≤ s.ilen.toNat ∧ 3 ≤ s.cfg.bufCap ∧ DecimalNibbles (input s) (ceil2 3) := by
  decide +kernel

/-- The error clauses of both unpacking statements: one byte short; the pad nibble bad; and, with the least buffer, one digit
more than it holds. -/
theorem witness_UnpackLeftTakesDigits_errors :
    (withInput ex1 [0x12]).ilen.toNat < ceil2 3 ∧
    (ceil2 3 ≤ (withInput ex1 [0x12, 0x3F]).ilen.toNat ∧ ¬DecimalNibbles (input (withInput ex1 [0x12, 0x3F])) (ceil2 3)) ∧
    let s := withInput { ex1 with bufCap := 29, defs := [] } (List.replicate 15 0)
    ceil2 30 ≤ s.ilen.toNat ∧ DecimalNibbles (input s) (ceil2 30) ∧ s.cfg.bufCap < 30 := by
  decide +kernel

theorem witness_UnpackInvertsPack : allDigits (digits [1, 2, 3]) = true := by decide

/-- The three cases of `fit_numeric` (V39, V40, V38). -/
theorem witness_FitNumericSteps :
    ((digits [0, 0, 2, 1]).length = 3 + 1 ∧ (digits [0, 0, 2, 1]).head? = some 0x30) ∧
    ((digits [1, 0, 2, 1]).head? ≠ some 0x30 ∧ 3 < (digits [1, 0, 2, 1]).length) ∧
    ((digits [2, 1]).length ≤ 3 ∧ (digits [0, 2, 1]).length ≤ 3) := by decide

/-- Each kind at the greatest length its header carries and at the next one, and the two bad kinds next to them. -/
theorem witness_EncLenWritesHeader :
    configWf State.reset.cfg = true ∧ (∀ x ∈ [0, 4], ¬(1 ≤ (x : BitVec 8).toNat ∧ x.toNat ≤ 3)) ∧
    ∀ p ∈ [((1 : BitVec 8), FieldKind.var1, (99 : BitVec 16)), (2, .var2, 999), (3, .var2Wide, 9999)],
      (p.2.1 ≠ .fixed ∧ p.1.toNat = kindCode p.2.1) ∧ p.2.2.toNat ≤ lenMax p.2.1 ∧ lenMax p.2.1 < (p.2.2 + 1).toNat := by
  decide +kernel

theorem witness_DecLenReadsDigits :
    ¬(1 ≤ (4 : BitVec 8).toNat ∧ (4 : BitVec 8).toNat ≤ 3) ∧ KindNamed 3 .var2Wide ∧
    (let s := withInput ex1 [0x12, 0x34]
     hdrSize .var2Wide ≤ s.ilen.toNat ∧ DecimalNibbles (input s) (hdrSize .var2Wide)) ∧
    (withInput ex1 [0x12]).ilen.toNat < hdrSize .var2Wide ∧
    (let s := withInput ex1 [0x12, 0x3A]
     hdrSize .var2Wide ≤ s.ilen.toNat ∧ ¬DecimalNibbles (input s) (hdrSize .var2Wide)) := by
  decide +kernel

theorem witness_LengthHeaderRoundTrip :
    FieldKind.var2 ≠ .fixed ∧ 999 ≤ lenMax .var2 ∧ (FieldKind.var2 = .var2 → Var2Byte0.composed = .composed) ∧
    999 ≤ 999 := by decide

/-- A text at its declared length in a `Fixed` field (V44), an empty one in a variable field (V47), one too long (V46) and
one too short (V45). -/
theorem witness_FieldEncAscii :
    (∀ n ∈ [8, 9, 7], let v : Bytes := List.replicate n 0x41
     let s := withSlot ex1 41 (.scalar v)
     configWf s.cfg = true ∧ lookupDef s.cfg.defs (41 : BitVec 8).toNat = some (.scalar .fixed 0 8) ∧
       fieldSlot s (41 : BitVec 8).toNat = some (.scalar v) ∧ v.length ≤ s.cfg.valCap ∧ v.length = n) ∧
    (let s := withSlot ex1 44 (.scalar [])
     lookupDef s.cfg.defs (44 : BitVec 8).toNat = some (.scalar .var1 0 25) ∧
       fieldSlot s (44 : BitVec 8).toNat = some (.scalar []) ∧ ([] : Bytes).length ≤ 25) := by decide +kernel

/-- Hex text with both letter cases in field 52; odd hex text (V49); one byte too many, and one too few. -/
theorem witness_FieldEncBinary :
    let v : Bytes := [0x30, 0x31, 0x32, 0x33, 0x34, 0x35, 0x36, 0x37, 0x38, 0x39, 0x61, 0x62, 0x63, 0x44, 0x45, 0x46]
    lookupDef ex1.defs (52 : BitVec 8).toNat = some (.scalar .fixed 1 8) ∧
    (∀ x ∈ [v, v.take 15, v ++ [0x30, 0x30], v.take 14],
      let s := withSlot ex1 52 (.scalar x)
      configWf s.cfg = true ∧ s.cfg = ex1 ∧ fieldSlot s (52 : BitVec 8).toNat = some (.scalar x) ∧
        x.length ≤ s.cfg.valCap) ∧
    (∀ x ∈ [v, v ++ [0x30, 0x30], v.take 14], x.length % 2 = 0 ∧ ∀ k, k < x.length → isHex (x.getD k 0) = true) ∧
    ¬((v.take 15).length % 2 = 0) := by decide +kernel

/-- V32 in a `Bcd` field and V37's letter among digits; V38 and, by the carve-out, V39 in an `RBcd` field; V40, too long. -/
theorem witness_FieldEncNumeric :
    (∀ v ∈ [digits [1], [0x31, 0x32, 0x41, 0x34]],
      let s := withSlot ex1 4 (.scalar v)
      configWf s.cfg = true ∧ lookupDef s.cfg.defs (4 : BitVec 8).toNat = some (.scalar .fixed 2 12) ∧
        fieldSlot s (4 : BitVec 8).toNat = some (.scalar v) ∧ v.length ≤ s.cfg.valCap ∧ v.length ≤ 12) ∧
    (allDigits (digits [1]) = true ∧ allDigits ([0x31, 0x32, 0x41, 0x34] : Bytes) = false) ∧
    (∀ v ∈ [digits [0, 2, 1], digits [0, 0, 2, 1]],
      let s := withSlot ex1 22 (.scalar v)
      lookupDef s.cfg.defs (22 : BitVec 8).toNat = some (.scalar .fixed 3 3) ∧
        fieldSlot s (22 : BitVec 8).toNat = some (.scalar v) ∧ allDigits v = true ∧
        (v.length ≤ 3 ∨ (v.length = 3 + 1 ∧ v.head? = some 0x30))) ∧
    (let v := digits [1, 0, 2, 1]
     fieldSlot (withSlot ex1 22 (.scalar v)) (22 : BitVec 8).toNat = some (.scalar v) ∧ v.head? ≠ some 0x30 ∧
       3 < v.length) := by decide +kernel

/-- V50: the three children and their encodings. -/
theorem witness_FieldEncComposite :
    let s := withSlot ex1 60 v50Value
    let vs := children [digits [2, 2], digits [1], digits [3]]
    let bodies : List Bytes := [[0x22], [0x00, 0x00, 0x01], [0x00, 0x30]]
    configWf s.cfg = true ∧ lookupDef s.cfg.defs (60 : BitVec 8).toNat = some (.composite .var2Wide 1 17 ex1Sub60) ∧
      fieldSlot s (60 : BitVec 8).toNat = some (.composite vs) ∧ (valuesList vs).length = (subsList ex1Sub60).length ∧
      bodies.length = (subsList ex1Sub60).length ∧
      ∀ (k : Nat) (d : FieldDef) (v : FieldValue) (b : Bytes), (subsList ex1Sub60)[k]? = some d →
        (valuesList vs)[k]? = some v → bodies[k]? = some b → encodeField s.cfg (60 : BitVec 8).toNat d v = .ok b := by
  refine ⟨ex1_wf, by decide +kernel, by decide +kernel, by decide, by decide, ?_⟩
  intro k d v b hd hv hb
  match k with
  | 0 => cases hd; cases hv; cases hb; decide +kernel
  | 1 => cases hd; cases hv; cases hb; decide +kernel
  | 2 => cases hd; cases hv; cases hb; decide +kernel
  | k + 3 => simp at hb

/-- As V51's third value, but the child with a digit too many is the second, behind one that encodes. -/
theorem witness_FieldEncComposite_child :
    let vs := children [digits [2, 2], digits [1, 2, 3, 4, 5, 6, 7], digits [3]]
    let s := withSlot ex1 60 (.composite vs)
    configWf s.cfg = true ∧ lookupDef s.cfg.defs (60 : BitVec 8).toNat = some (.composite .var2Wide 1 17 ex1Sub60) ∧
      fieldSlot s (60 : BitVec 8).toNat = some (.composite vs) ∧ (valuesList vs).length = (subsList ex1Sub60).length ∧
      slotFits s.cfg (fieldSlot s (60 : BitVec 8).toNat) = true ∧
      (subsList ex1Sub60)[1]? = some (.scalar .fixed 2 6) ∧
      (valuesList vs)[1]? = some (.scalar (digits [1, 2, 3, 4, 5, 6, 7])) ∧
      encodeField s.cfg (60 : BitVec 8).toNat (.scalar .fixed 2 6) (.scalar (digits [1, 2, 3, 4, 5, 6, 7])) =
        .error (tooLong 60 6 7) ∧
      ∀ (j : Nat) (d : FieldDef) (v : FieldValue), j < 1 → (subsList ex1Sub60)[j]? = some d →
        (valuesList vs)[j]? = some v → ∃ b, encodeField s.cfg (60 : BitVec 8).toNat d v = .ok b := by
  refine ⟨ex1_wf, by decide +kernel, by decide +kernel, by decide, by decide +kernel, rfl, rfl, by decide +kernel, ?_⟩
  intro j d v hj hd hv
  match j with
  | 0 => cases hd; cases hv; exact ⟨[0x22], by decide +kernel⟩
  | j + 1 => omega

/-- Each clause: an Empty slot at each end of the range, an index without an entry, an unsupported encoding, and the two
shapes. -/
theorem witness_FieldEncRefusesByTable :
    (2 ≤ (2 : BitVec 8).toNat ∧ (128 : BitVec 8).toNat ≤ 128 ∧ fieldSlot State.reset 2 = none ∧
      fieldSlot State.reset 128 = none) ∧
    (fieldSlot (withSlot ex1 99 (.scalar [0x31])) 99 = some (.scalar [0x31]) ∧ lookupDef ex1.defs 99 = none) ∧
    (fieldSlot (withSlot ex1 7 (.scalar [0x31])) 7 = some (.scalar [0x31]) ∧
      lookupDef ex1.defs 7 = some (.scalar .fixed 9 4) ∧ 3 < (defEnc (.scalar .fixed 9 4)).toNat) ∧
    (fieldSlot (withSlot ex1 4 v50Value) 4 = some v50Value ∧ lookupDef ex1.defs 4 = some (.scalar .fixed 2 12)) ∧
    (fieldSlot (withSlot ex1 60 (.scalar [0x31])) 60 = some (.scalar [0x31]) ∧
      lookupDef ex1.defs 60 = some (.composite .var2Wide 1 17 ex1Sub60)) := by decide +kernel

/-- V57 with its surplus byte (a variable `Bcd` field), V59 (`Binary`) and V58 (`RBcd`). -/
theorem witness_FieldDecScalar :
    (let s := withInput ex1 [0x03, 0x12, 0x39, 0xFF]
     lookupDef s.cfg.defs (2 : BitVec 8).toNat = some (.scalar .var1 2 19) ∧ encodingOf? 2 = some .bcd ∧
       DecimalNibbles (input s) (hdrSize .var1) ∧ headerNumber .var1 (input s) = 3 ∧
       hdrSize .var1 + bodySize 3 .bcd ≤ s.ilen.toNat ∧ 3 ≤ s.cfg.valCap ∧
       DecimalNibbles ((input s).drop (hdrSize .var1)) (ceil2 3)) ∧
    (let s := withInput ex1 [0x01, 0x23, 0x45, 0x67, 0x89, 0xAB, 0xCD, 0xEF]
     lookupDef s.cfg.defs (52 : BitVec 8).toNat = some (.scalar .fixed 1 8) ∧ encodingOf? 1 = some .binary ∧
       hdrSize .fixed + bodySize 8 .binary ≤ s.ilen.toNat ∧ 2 * 8 ≤ s.cfg.valCap) ∧
    (let s := withInput ex1 [0x90, 0x21]
     lookupDef s.cfg.defs (22 : BitVec 8).toNat = some (.scalar .fixed 3 3) ∧ encodingOf? 3 = some .rbcd ∧
       hdrSize .fixed + bodySize 3 .rbcd ≤ s.ilen.toNat ∧
       DecimalNibbles ((input s).drop (hdrSize .fixed)) (ceil2 3)) := by
  decide +kernel

/-- V63: three sub-fields, one surplus body byte. -/
theorem witness_FieldDecComposite :
    let s := withInput ex1 [0x00, 0x07, 0x22, 0x00, 0x00, 0x01, 0x00, 0x30, 0xAA]
    let vs := children [digits [2, 2], digits [0, 0, 0, 0, 0, 1], digits [0, 0, 3]]
    let bodies : List Bytes := [[0x22], [0x00, 0x00, 0x01], [0x00, 0x30]]
    lookupDef s.cfg.defs (60 : BitVec 8).toNat = some (.composite .var2Wide 1 17 ex1Sub60) ∧ (1 : BitVec 8).toNat ≤ 1 ∧
      (valuesList vs).length = (subsList ex1Sub60).length ∧ bodies.length = (subsList ex1Sub60).length ∧
      (∀ (k : Nat) (d : FieldDef) (v : FieldValue) (b : Bytes), (subsList ex1Sub60)[k]? = some d →
        (valuesList vs)[k]? = some v → bodies[k]? = some b →
        ∀ tail, decodeField s.cfg (60 : BitVec 8).toNat d (b ++ tail) = .ok (v, b.length)) ∧
      DecimalNibbles (input s) (hdrSize .var2Wide) ∧ headerNumber .var2Wide (input s) = 7 ∧
      (input s).drop (hdrSize .var2Wide) = bodies.flatten ++ [0xAA] ++ [] ∧ 7 = bodies.flatten.length + [(0xAA : Byte)].length ∧
      hdrSize .var2Wide ≤ s.ilen.toNat := by
  refine ⟨by decide +kernel, by decide, by decide, by decide, ?_, ?_, by decide +kernel, by decide +kernel, by decide,
    by decide +kernel⟩
  · intro k d v b hd hv hb tail
    match k with
    | 0 => cases hd; cases hv; cases hb; rfl
    | 1 => cases hd; cases hv; cases hb; rfl
    | 2 => cases hd; cases hv; cases hb; rfl
    | k + 3 => simp at hb
  · decide +kernel

/-- An index without an entry, the unsupported entry 7, no header (S3), a header nibble above 9 and a body that is short (of a
variable entry), and a body nibble above 9. -/
theorem witness_FieldDecErrorsEmptySlot :
    lookupDef ex1.defs 99 = none ∧ (lookupDef ex1.defs 7 = some (.scalar .fixed 9 4) ∧ 3 < (9 : BitVec 8).toNat) ∧
    (lookupDef ex1.defs 2 = some (.scalar .var1 2 19) ∧ encodingOf? 2 = some .bcd ∧
      (withInput ex1 []).ilen.toNat < hdrSize .var1) ∧
    (hdrSize .var1 ≤ (withInput ex1 [0x0A]).ilen.toNat ∧ ¬DecimalNibbles (input (withInput ex1 [0x0A])) (hdrSize .var1)) ∧
    (DecimalNibbles (input (withInput ex1 [0x02])) (hdrSize .var1) ∧ (withInput ex1 [0x02]).ilen.toNat <
      hdrSize .var1 + bodySize (headerNumber .var1 (input (withInput ex1 [0x02]))) .bcd) ∧
    (let s := withInput ex1 [0x03, 0x12, 0x3F]
     DecimalNibbles (input s) (hdrSize .var1) ∧ headerNumber .var1 (input s) = 3 ∧
       hdrSize .var1 + bodySize 3 .bcd ≤ s.ilen.toNat ∧
       ¬DecimalNibbles ((input s).drop (hdrSize .var1)) (ceil2 3)) := by
  decide +kernel

/-- The other clauses: a text of 33 bytes where `VAL_CAP` is 32; a composite whose second sub-field has a bad digit; and a
FIELD_DEC that fails. -/
theorem witness_FieldDecErrorsEmptySlot_late :
    (let c := { ex1 with valCap := 32, defs := [(2, .scalar .fixed 0 33)] }
     let s := withInput c (List.replicate 33 0x41)
     lookupDef c.defs (2 : BitVec 8).toNat = some (.scalar .fixed 0 33) ∧ encodingOf? 0 = some .ascii ∧
       hdrSize .fixed + bodySize 33 .ascii ≤ s.ilen.toNat ∧ s.cfg.valCap < 33) ∧
    (let s := withInput ex1 [0x00, 0x06, 0x22, 0x00, 0x0A, 0x01, 0x00, 0x30]
     lookupDef s.cfg.defs (60 : BitVec 8).toNat = some (.composite .var2Wide 1 17 ex1Sub60) ∧
       encodingOf? 1 = some .binary ∧ DecimalNibbles (input s) (hdrSize .var2Wide) ∧
       headerNumber .var2Wide (input s) = 6 ∧ hdrSize .var2Wide + bodySize 6 .binary ≤ s.ilen.toNat ∧
       ((input s).drop (hdrSize .var2Wide)).take (bodySize 6 .binary) =
         ([[0x22]] : List Bytes).flatten ++ [0x00, 0x0A, 0x01, 0x00, 0x30] ∧
       (subsList ex1Sub60)[([[0x22]] : List Bytes).length]? = some (.scalar .fixed 2 6) ∧
       (∀ (k : Nat) (d : FieldDef) (b : Bytes), (subsList ex1Sub60)[k]? = some d → ([[0x22]] : List Bytes)[k]? = some b →
         ∃ v, ∀ tail, decodeField s.cfg (60 : BitVec 8).toNat d (b ++ tail) = .ok (v, b.length)) ∧
       decodeField s.cfg (60 : BitVec 8).toNat (.scalar .fixed 2 6) [0x00, 0x0A, 0x01, 0x00, 0x30] =
         .error (badDigit 60)) ∧
    ∃ t, exec (.fieldDec 4) (withInput ex1 []) = .next t ∧ t.err ≠ 0 := by
  refine ⟨by decide +kernel, ⟨by decide +kernel, by decide, by decide +kernel, by decide +kernel, by decide +kernel,
    by decide +kernel, by decide, ?_, by decide +kernel⟩, _, next_after (by decide +kernel), by decide +kernel⟩
  intro k d b hd hb
  match k with
  | 0 => cases hd; cases hb; exact ⟨.scalar (digits [2, 2]), fun tail => rfl⟩
  | k + 1 => simp at hb

/-- Entry 60 of EX1 with the value of V61, and entry 62 with a text of 100 bytes, whose `Var2` header survives. -/
theorem witness_FieldRoundTrip :
    defWf 1 (.composite .var2Wide 1 17 ex1Sub60) = true ∧
    roundTrips ex1 (.composite .var2Wide 1 17 ex1Sub60) v61Value = true ∧
    defWf 0 (.scalar .var2 0 512) = true ∧ roundTrips ex1 (.scalar .var2 0 512) (.scalar (List.replicate 100 0x41)) = true := by
  decide +kernel

/-- PRES with index 64 the highest, and with index 65. -/
theorem witness_BmpBuildWritesPresence :
    configWf State.reset.cfg = true ∧ (64 < 65 ∧ 65 ≤ 128 ∧ presBit (presOf [65]) 65 = true) ∧
    (∀ i ∈ List.range' 65 64, presBit (presOf [2, 64]) i = false) := by decide +kernel

/-- V76, V77, and V79's two short inputs. -/
theorem witness_BmpParseReadsPresence :
    (let s := withInput ex1 [0x70, 0x20, 0x04, 0, 0, 0xC0, 0, 0]
     8 = (if bitmapBit (input s) 1 then 16 else 8) ∧ 8 ≤ s.ilen.toNat) ∧
    (let s := withInput ex1 (0xC0 :: List.replicate 15 1)
     16 = (if bitmapBit (input s) 1 then 16 else 8) ∧ 16 ≤ s.ilen.toNat) ∧
    (withInput ex1 (List.replicate 7 0)).ilen.toNat < 8 ∧
    (let s := withInput ex1 (0x80 :: List.replicate 14 0)
     bitmapBit (input s) 1 = true ∧ s.ilen.toNat < 16) := by decide +kernel

/-- Indices of both halves; and the parse of 16 bytes with nothing above 64, with something, and of 8 bytes. -/
theorem witness_BitmapRoundTrip :
    (∀ i ∈ [128, 2, 64, 65], 2 ≤ i ∧ i ≤ 128) ∧
    bmpParse (0x80 :: List.replicate 15 0) = .ok (true, [], 16) ∧
    bmpParse (0xC0 :: (List.replicate 14 0 ++ [1])) = .ok (true, [2, 128], 16) ∧
    bmpParse (0x40 :: List.replicate 7 0) = .ok (false, [2], 8) := by decide +kernel

/-- V90's three messages. -/
theorem witness_MsgEncHeaderErrorsInOrder :
    (let m := { v87.msg with tpdu := digits [6, 0, 0, 0, 0, 3, 0, 0] }
     ¬DigitString m.tpdu 10) ∧
    (let m := { v87.msg with hdr := some (digits [6, 0, 3, 1]) }
     DigitString m.tpdu 10 ∧ ¬∀ h, m.hdr = some h → DigitString h 12) ∧
    (let m := { v87.msg with mti := [0x30, 0x38, 0x41, 0x30] }
     DigitString m.tpdu 10 ∧ (∀ h, m.hdr = some h → DigitString h 12) ∧ ¬DigitString m.mti 4) ∧
    ∃ t, Instr.msgDec ≠ .msgEnc ∧ exec .msgDec v87 = .next t := by
  refine ⟨by decide +kernel, ⟨by decide +kernel, fun h => ?_⟩, ⟨by decide +kernel, fun h hh => ?_, by decide +kernel⟩,
    _, by decide, next_after (by decide +kernel)⟩
  · have := h (digits [6, 0, 3, 1]) rfl
    revert this
    decide
  · cases hh

theorem v87_headers : HeadersReady v87.cfg v87.msg := by
  refine ⟨?_, fun h hh => ?_, ?_⟩
  · decide +kernel
  · cases hh
  · decide +kernel

/-- The slots of V87's message. -/
theorem v87_slot {i : Nat} {v : FieldValue} (h : fieldSlot v87 i = some v) : (i = 3 ∨ i = 70) ∧ v = v87Value i := by
  have hs : v87.msg.slots = Slots.put (Slots.put Message.empty.slots 3 (some (v87Value 3))) 70 (some (v87Value 70)) := by
    decide +kernel
  simp only [fieldSlot, hs] at h
  by_cases h70 : i = 70
  · subst h70
    rw [Slots.get_put_self _ _ (by omega)] at h
    exact ⟨.inr rfl, (Option.some.inj h).symm⟩
  · rw [Slots.get_put_of_ne _ _ h70] at h
    by_cases h3 : i = 3
    · subst h3
      rw [Slots.get_put_self _ _ (by omega)] at h
      exact ⟨.inl rfl, (Option.some.inj h).symm⟩
    · rw [Slots.get_put_of_ne _ _ h3, Slots.get_empty] at h
      cases h

/-- V87. -/
theorem witness_MsgEncWritesFrame :
    configWf v87.cfg = true ∧ HeadersReady v87.cfg v87.msg ∧
    (∀ i v, fieldSlot v87 i = some v → ∃ d, lookupDef v87.cfg.defs i = some d ∧
      encodeField v87.cfg i d v = .ok (v87Payload i)) ∧
    v87.cfg.lenPfxEn = false ∧
    (wirePrefix v87.cfg v87Frame.length ++ v87Frame).length ≤ v87.cfg.bufCap := by
  refine ⟨ex1_wf, v87_headers, fun i v h => ?_, by decide +kernel, by decide +kernel⟩
  obtain ⟨hi, rfl⟩ := v87_slot h
  rcases hi with rfl | rfl
  · exact ⟨.scalar .fixed 2 6, by decide +kernel, by decide +kernel⟩
  · exact ⟨.scalar .fixed 2 3, by decide +kernel, by decide +kernel⟩

/-- V87's frame of 28 bytes behind a prefix where `BUF_CAP` is 29. -/
theorem witness_MsgEncWritesFrame_capacity :
    let c := { ex1 with lenPfxEn := true, bufCap := 29, defs := [(3, .scalar .fixed 2 6), (70, .scalar .fixed 2 3)] }
    let s := { v87 with cfg := c }
    configWf s.cfg = true ∧ HeadersReady s.cfg s.msg ∧
    (∀ i v, fieldSlot s i = some v → ∃ d, lookupDef s.cfg.defs i = some d ∧
      encodeField s.cfg i d v = .ok (v87Payload i)) ∧
    v87Frame.length ≤ 65535 ∧ s.cfg.bufCap < (wirePrefix s.cfg v87Frame.length ++ v87Frame).length := by
  refine ⟨by decide +kernel, ⟨by decide +kernel, v87_headers.hdr, by decide +kernel⟩, fun i v h => ?_, by decide,
    by decide +kernel⟩
  obtain ⟨hi, rfl⟩ := v87_slot h
  rcases hi with rfl | rfl
  · exact ⟨.scalar .fixed 2 6, by decide +kernel, by decide +kernel⟩
  · exact ⟨.scalar .fixed 2 3, by decide +kernel, by decide +kernel⟩

/-- A block whose seven entries each take 9999 bytes of text, and a message that fills them all. -/
def longConfig : Config :=
  { ex1 with
    lenPfxEn := true, bufCap := 80000, valCap := 9999,
    defs := (List.range' 2 7).map fun i => (i, .scalar .fixed 0 9999) }
def longText : Bytes := List.replicate 9999 0x41
def longState : State :=
  { State.resetWith longConfig with
    msg := { v87.msg with
      slots := Vector.ofFn fun k : Fin 128 => if 1 ≤ k.val ∧ k.val ≤ 7 then some (.scalar longText) else none } }

theorem longState_slot {i : Nat} {v : FieldValue} (h : fieldSlot longState i = some v) :
    (2 ≤ i ∧ i ≤ 8) ∧ v = .scalar longText := by
  simp only [fieldSlot, longState, Slots.get] at h
  split at h
  · simp only [Vector.getElem_ofFn] at h
    split at h
    · exact ⟨by omega, (Option.some.inj h).symm⟩
    · cases h
  · cases h

/-- Its payloads alone, of 69993 bytes, pass what the prefix can count. -/
theorem witness_MsgEncWritesFrame_prefix :
    configWf longState.cfg = true ∧ HeadersReady longState.cfg longState.msg ∧
    (∀ i v, fieldSlot longState i = some v → ∃ d, lookupDef longState.cfg.defs i = some d ∧
      encodeField longState.cfg i d v = .ok longText) ∧
    longState.cfg.lenPfxEn = true ∧
    65535 < ((fieldIndices.filter fun i => (fieldSlot longState i).isSome).flatMap fun _ => longText).length := by
  refine ⟨by decide +kernel, ⟨v87_headers.tpdu, v87_headers.hdr, v87_headers.mti⟩, fun i v h => ?_, rfl, ?_⟩
  · obtain ⟨hi, rfl⟩ := longState_slot h
    refine ⟨.scalar .fixed 0 9999, ?_, ?_⟩
    · have hall : ∀ i ∈ List.range' 2 7, lookupDef longConfig.defs i = some (.scalar .fixed 0 9999) := by decide +kernel
      exact hall i (List.mem_range'_1.mpr (by omega))
    · have hl : longText.length = 9999 := List.length_replicate
      simp [encodeField, supportedEncoding, encodingOf?, encodeScalar, encodeAscii, checkByteCount, hl, withHeader]
  · have hp : (fieldIndices.filter fun i => (fieldSlot longState i).isSome) = [2, 3, 4, 5, 6, 7, 8] := by decide +kernel
    have hl : longText.length = 9999 := List.length_replicate
    rw [hp]
    simp [hl]

/-- V91: the populated slot 99 has no entry, and the slots below it encode; and slot 60 holds a scalar where its entry is
composite. -/
theorem witness_MsgEncUndefinedField :
    (∀ p ∈ [(99, FieldValue.scalar [0x31]), (60, .scalar (digits [2, 2]))],
      let s := setFieldSlot p.1 (some p.2) v87
      HeadersReady s.cfg s.msg ∧ fieldSlot s p.1 = some p.2 ∧
      ∀ j w, j < p.1 → fieldSlot s j = some w →
        ∃ d bs, lookupDef s.cfg.defs j = some d ∧ encodeField s.cfg j d w = .ok bs) ∧
    lookupDef v87.cfg.defs 99 = none ∧
    (configWf v87.cfg = true ∧ slotFits v87.cfg (some (.scalar (digits [2, 2]))) = true ∧
      lookupDef v87.cfg.defs 60 = some (.composite .var2Wide 1 17 ex1Sub60) ∧
      encodeField v87.cfg 60 (.composite .var2Wide 1 17 ex1Sub60) (.scalar (digits [2, 2])) = .error (shapeError 60)) := by
  have h3 : lookupDef v87.cfg.defs 3 = some (.scalar .fixed 2 6) ∧
      encodeField v87.cfg 3 (.scalar .fixed 2 6) (v87Value 3) = .ok [0x99, 0x00, 0x00] := by decide +kernel
  have h70 : lookupDef v87.cfg.defs 70 = some (.scalar .fixed 2 3) ∧
      encodeField v87.cfg 70 (.scalar .fixed 2 3) (v87Value 70) = .ok [0x30, 0x10] := by decide +kernel
  refine ⟨fun p hp => ⟨⟨v87_headers.tpdu, v87_headers.hdr, v87_headers.mti⟩, ?_, fun j w hj h => ?_⟩,
    by decide +kernel, ex1_wf, by decide +kernel, by decide +kernel, by decide +kernel⟩
  · revert p
    decide +kernel
  · have h' : fieldSlot v87 j = some w := by
      rw [← h]
      exact (Slots.get_put_of_ne _ _ (by omega)).symm
    obtain ⟨hi, rfl⟩ := v87_slot h'
    rcases hi with rfl | rfl
    · exact ⟨.scalar .fixed 2 6, [0x99, 0x00, 0x00], h3⟩
    · exact ⟨.scalar .fixed 2 3, [0x30, 0x10], h70⟩

/-- V88, with one surplus byte. -/
theorem witness_MsgDecReadsFrame :
    let s := withInput ex1 (v87Frame ++ [0xAA])
    configWf s.cfg = true ∧
    ReceivedFrame s v87Tpdu [] [0x08, 0x00] v87Bitmap ((indicated v87Bitmap).flatMap v87Payload ++ [0xAA]) [] ∧
    ∀ i ∈ indicated v87Bitmap, ∃ d, lookupDef s.cfg.defs i = some d ∧
      ∀ more, decodeField s.cfg i d (v87Payload i ++ more) = .ok (v87Value i, (v87Payload i).length) := by
  refine ⟨ex1_wf, ⟨by decide +kernel, by decide +kernel, fun _ => rfl, by decide +kernel, ?_, by decide +kernel,
    by decide +kernel, ?_, by decide +kernel, by decide +kernel, ?_, by decide +kernel⟩, fun i hi => ?_⟩
  · decide +kernel
  · decide +kernel
  · decide +kernel
  · have hl : indicated v87Bitmap = [3, 70] := by decide +kernel
    rw [hl] at hi
    rcases List.mem_cons.mp hi with rfl | hi
    · exact ⟨.scalar .fixed 2 6, by decide +kernel, fun more => rfl⟩
    · rcases List.mem_cons.mp hi with rfl | hi
      · exact ⟨.scalar .fixed 2 3, by decide +kernel, fun more => rfl⟩
      · cases hi

/-- V60: field 3 decodes, index 99 has no entry. -/
theorem witness_MsgDecUndefinedFieldClears :
    let bm : Bytes := [0xA0, 0, 0, 0, 0, 0, 0, 0, 0, 0, 0, 0, 0x20, 0, 0, 0]
    let s := withInput ex1 (v87Tpdu ++ [0x08, 0x00] ++ bm ++ [0x99, 0, 0, 0, 0, 0])
    configWf s.cfg = true ∧
    ReceivedFrame s v87Tpdu [] [0x08, 0x00] bm (((indicated bm).filter (· < 99)).flatMap v87Payload ++ [0, 0, 0]) [] ∧
    99 ∈ indicated bm ∧ lookupDef s.cfg.defs 99 = none ∧
    ∀ j ∈ indicated bm, j < 99 → ∃ d v, lookupDef s.cfg.defs j = some d ∧
      ∀ more, decodeField s.cfg j d (v87Payload j ++ more) = .ok (v, (v87Payload j).length) := by
  refine ⟨ex1_wf, ⟨by decide +kernel, by decide +kernel, fun _ => rfl, by decide +kernel, ?_, by decide +kernel,
    by decide +kernel, ?_, by decide +kernel, by decide +kernel, ?_, by decide +kernel⟩, by decide +kernel,
    by decide +kernel, fun i hi hlt => ?_⟩
  · decide +kernel
  · decide +kernel
  · decide +kernel
  · have hl : indicated [0xA0, 0, 0, 0, 0, 0, 0, 0, 0, 0, 0, 0, 0x20, 0, 0, 0] = [3, 99] := by decide +kernel
    rw [hl] at hi
    rcases List.mem_cons.mp hi with rfl | hi
    · exact ⟨.scalar .fixed 2 6, v87Value 3, by decide +kernel, fun more => rfl⟩
    · rcases List.mem_cons.mp hi with rfl | hi
      · omega
      · cases hi

/-- The same frame as in V87 with its last byte missing (field 70 is short), and with a bad digit in field 70. -/
theorem witness_MsgDecUndefinedFieldClears_field :
    ∀ rest ∈ [([0x30] : Bytes), [0x3A, 0x10]],
      let s := withInput ex1 (v87Tpdu ++ [0x08, 0x00] ++ v87Bitmap ++ ([0x99, 0, 0] ++ rest))
      configWf s.cfg = true ∧
      ReceivedFrame s v87Tpdu [] [0x08, 0x00] v87Bitmap
        (((indicated v87Bitmap).filter (· < 70)).flatMap v87Payload ++ rest) [] ∧
      70 ∈ indicated v87Bitmap ∧ lookupDef s.cfg.defs 70 = some (.scalar .fixed 2 3) ∧ encodingOf? 2 = some .bcd ∧
      (rest = [0x30] → rest.length < hdrSize .fixed + bodySize 3 .bcd) ∧
      (rest = [0x3A, 0x10] → decodeField s.cfg 70 (.scalar .fixed 2 3) rest = .error (badDigit 70)) ∧
      ∀ j ∈ indicated v87Bitmap, j < 70 → ∃ d v, lookupDef s.cfg.defs j = some d ∧
        ∀ more, decodeField s.cfg j d (v87Payload j ++ more) = .ok (v, (v87Payload j).length) := by
  have hl : indicated v87Bitmap = [3, 70] := by decide +kernel
  have h3 : ∀ c, c = ex1 → ∀ j ∈ indicated v87Bitmap, j < 70 → ∃ d v, lookupDef c.defs j = some d ∧
      ∀ more, decodeField c j d (v87Payload j ++ more) = .ok (v, (v87Payload j).length) := by
    rintro _ rfl j hj hlt
    rw [hl] at hj
    rcases List.mem_cons.mp hj with rfl | hj
    · exact ⟨.scalar .fixed 2 6, v87Value 3, by decide +kernel, fun more => rfl⟩
    · rcases List.mem_cons.mp hj with rfl | hj
      · omega
      · cases hj
  intro rest hr
  rcases List.mem_cons.mp hr with rfl | hr
  · refine ⟨ex1_wf, ⟨by decide +kernel, by decide +kernel, fun _ => rfl, by decide +kernel, by decide +kernel,
      by decide +kernel, by decide +kernel, by decide +kernel, by decide +kernel, by decide +kernel, by decide +kernel,
      by decide +kernel⟩, by decide +kernel, by decide +kernel, by decide, fun _ => by decide, fun h => ?_, h3 _ rfl⟩
    cases h
  · rcases List.mem_cons.mp hr with rfl | hr
    · refine ⟨ex1_wf, ⟨by decide +kernel, by decide +kernel, fun _ => rfl, by decide +kernel, by decide +kernel,
        by decide +kernel, by decide +kernel, by decide +kernel, by decide +kernel, by decide +kernel, by decide +kernel,
        by decide +kernel⟩, by decide +kernel, by decide +kernel, by decide, fun h => ?_, fun _ => by decide +kernel,
        h3 _ rfl⟩
      cases h
    · cases hr

/-- One byte of a prefix, and a prefix that announces one byte more than there is; then each part of V87's frame cut by a byte:
TPDU (also behind a prefix that announces fewer bytes than it needs), MTI, bitmap; and V93, a nibble above 9 in TPDU. -/
theorem witness_MsgDecRefusesShortFrames :
    (withInput { ex1 with lenPfxEn := true } [0x01]).ilen.toNat < 2 ∧
    (let s := withInput { ex1 with lenPfxEn := true } [0x01, 0x00, 0x60]
     s.ilen.toNat < 2 + (256 * ((input s).getD 0 0).toNat + ((input s).getD 1 0).toNat)) ∧
    (let s := withInput { ex1 with lenPfxEn := true } [0x00, 0x04, 0x60, 0x00, 0x03, 0x00, 0x00]
     2 + (256 * ((input s).getD 0 0).toNat + ((input s).getD 1 0).toNat) ≤ s.ilen.toNat ∧
       ((input s).drop 2).take (256 * ((input s).getD 0 0).toNat + ((input s).getD 1 0).toNat) = v87Tpdu.take 4) ∧
    DigitsFail ex1 (v87Tpdu.take 4) 10 { code := .truncatedMessage } ∧
    DigitsFail ex1 [0x60, 0x6A, 0x03, 0x00, 0x00] 10 { code := .badBcdDigit } ∧
    DigitsReady ex1 (v87Frame.take 6) 10 ∧ DigitsFail ex1 ((v87Frame.take 6).drop 5) 4 { code := .truncatedMessage } ∧
    (DigitsReady ex1 (v87Frame.drop 5) 4 ∧ (v87Bitmap.take 7).length < 8 ∧
      bitmapBit (v87Bitmap.take 15) 1 = true ∧ (v87Bitmap.take 15).length < 16) :=
  ⟨by decide +kernel, by decide +kernel, by decide +kernel, .short (by decide), .digit (by decide) (by decide),
    ⟨by decide, by decide, by decide⟩, .short (by decide), ⟨by decide, by decide, by decide⟩, by decide, by decide,
    by decide⟩

/-- The same for an expected protocol header, of 12 digits; and a TPDU and a header of 34 digits where `VAL_CAP` is 32. -/
theorem witness_MsgDecRefusesShortFrames_header :
    let c := { ex1 with headerEn := true, tpduDigits := 34, headerDigits := 34, valCap := 32 }
    configWf c = true ∧ DigitsFail c (List.replicate 17 0) 34 { code := .internalCodecError, cause := .capacity } ∧
    DigitsReady { c with valCap := 34 } (List.replicate 17 0) 34 ∧
    DigitsFail { ex1 with headerEn := true } [0x60, 0x03, 0x1F, 0x00, 0x00, 0x00] 12 { code := .badBcdDigit } ∧
    DigitsFail { ex1 with headerEn := true } [0x60, 0x03, 0x1F, 0x00, 0x00] 12 { code := .truncatedMessage } :=
  ⟨by decide +kernel, .capacity (by decide) (by decide) (by decide), ⟨by decide, by decide, by decide⟩,
    .digit (by decide) (by decide), .short (by decide)⟩

/-- V87's message, which encodes, and whose values have the form R152 asks for. -/
theorem witness_MessageRoundTrip :
    configWf ex1 = true ∧ (ex1.headerEn = true ↔ v87.msg.hdr.isSome = true) ∧ stringFits ex1 v87.msg.tpdu = true ∧
    headerFits ex1 v87.msg.hdr = true ∧
    (∀ i d v, v87.msg.slots.get i = some v → lookupDef ex1.defs i = some d → roundTrips ex1 d v = true) ∧
    msgEncode ex1 v87.msg = .ok v87Frame := by
  refine ⟨ex1_wf, by decide +kernel, by decide +kernel, by decide +kernel, fun i d v h hd => ?_, by decide +kernel⟩
  obtain ⟨hi, rfl⟩ := v87_slot h
  rcases hi with rfl | rfl
  · have h3 : lookupDef ex1.defs 3 = some (.scalar .fixed 2 6) := by decide +kernel
    rw [h3] at hd
    cases hd
    decide +kernel
  · have h70 : lookupDef ex1.defs 70 = some (.scalar .fixed 2 3) := by decide +kernel
    rw [h70] at hd
    cases hd
    decide +kernel

theorem witness_MacComputesHexOfCipher :
    configWf v94Key.cfg = true ∧ v94Key.cfg.hasMac = true ∧ v94Key.klen = 8 := by decide +kernel

/-- The other two clauses: no unit; and keys of 7 and 9 bytes. -/
theorem witness_MacComputesHexOfCipher_refusals :
    (State.resetWith { ex1 with hasMac := false }).cfg.hasMac = false ∧
    ∀ n ∈ [7, 9], let s := hostMove (.writeKEY (List.replicate n 1)) State.reset
      s.cfg.hasMac = true ∧ s.klen ≠ 8 := by decide +kernel

theorem witness_MacIgnoresTrailingZero : ([1, 2, 3] : Bytes).length % 8 ≠ 0 := by decide

/-- MSG_ENC of V87, MAC of V94 and BMP_BUILD have a next state. -/
theorem witness_OutputCommandsFrame :
    configWf v87.cfg = true ∧ ∀ i ∈ [Instr.msgEnc, .bmpBuild, .fieldEnc 3], ∃ t, exec i v87 = .next t := by
  refine ⟨ex1_wf, fun i hi => ⟨_, next_after ?_⟩⟩
  revert i
  decide +kernel

theorem witness_DecodingCommandsFrame :
    ∀ i ∈ [Instr.msgDec, .fieldDec 4, .decLen 1], ∃ t, exec i (withInput ex1 v87Frame) = .next t := by
  refine fun i hi => ⟨_, next_after ?_⟩
  revert i
  decide +kernel

/-- A failed MSG_DEC (TruncatedMessage) and an IllegalCommand. -/
theorem witness_ErrorInvalidatesDestination :
    (∃ t, exec .msgDec v87 = .next t ∧ t.err ≠ 0 ∧ t.err ≠ 13) ∧
    ∃ t, exec (.fieldDec 1) v87 = .next t ∧ t.err ≠ 0 ∧ t.err = 13 :=
  ⟨⟨_, next_after (by decide +kernel), by decide +kernel⟩, ⟨_, next_after (by decide +kernel), by decide +kernel⟩⟩

theorem witness_FailedCommandsArePrecise : ∃ t, exec (.fieldDec 3) v87 = .next t ∧ t.err ≠ 0 :=
  ⟨_, next_after (by decide +kernel), by decide +kernel⟩

/-- An error of the first and of the last code. -/
theorem witness_ErrorsComeFromTheirCommands :
    configWf State.reset.cfg = true ∧ State.reset.ilen.toNat ≤ State.reset.cfg.bufCap ∧
    (∃ t, exec .msgEnc State.reset = .next t ∧ t.err = 1) ∧ ∃ t, exec (.fieldEnc 2) State.reset = .next t ∧ t.err = 13 :=
  ⟨ex1_wf, by decide +kernel, ⟨_, next_after (by decide +kernel), by decide +kernel⟩,
    ⟨_, next_after (by decide +kernel), by decide +kernel⟩⟩

/-- The bounds of the kinds, of the lengths they carry and of the indices; a variable entry and a `Fixed` one. -/
theorem witness_CommandsAfterReset :
    configWf ex1 = true ∧ (1 : BitVec 16) ≠ 0 ∧ ex1.hasMac = true ∧
    (∀ x ∈ [1, 3], 1 ≤ (x : BitVec 8).toNat ∧ x.toNat ≤ 3) ∧ (∀ x ∈ [2, 128], 2 ≤ (x : BitVec 8).toNat ∧ x.toNat ≤ 128) ∧
    (KindNamed 2 .var2 ∧ (999 : BitVec 16).toNat ≤ lenMax .var2) ∧
    (lookupDef ex1.defs (2 : BitVec 8).toNat = some (.scalar .var1 2 19) ∧ FieldKind.var1 ≠ .fixed) ∧
    (lookupDef ex1.defs (4 : BitVec 8).toNat = some (.scalar .fixed 2 12) ∧ encodingOf? 2 = some .bcd ∧ 0 < 12) := by
  decide +kernel

theorem witness_WriteCmdStartsCommand : v87.busy = false := by decide +kernel

/-- A running command and a move of each group. -/
theorem witness_BusyHostAccessIsDropped :
    (startCommand 0x40 v87).busy = true ∧ HostMove.getTPDU ∈ [HostMove.readOBUF, .getTPDU, .getHDR, .getMTI] ∧
    HostMove.writeIBUF [1] ∈ [HostMove.writeIBUF [1], .writeKEY [1], .setTPDU [1], .setMTI [1]] ∧ 9 ≠ 1 := by
  decide +kernel

/-- The lengths where the clauses meet: `BUF_CAP` and one more, 255 and one more, with and without the unit. -/
theorem witness_HostBufferWrites :
    configWf State.reset.cfg = true ∧ State.reset.busy = false ∧ (List.replicate 2048 (1 : Byte)).length ≤ ex1.bufCap ∧
    ex1.bufCap < (List.replicate 2049 (1 : Byte)).length ∧ ex1.hasMac = true ∧
    (List.replicate 255 (1 : Byte)).length ≤ 255 ∧ 255 < (List.replicate 256 (1 : Byte)).length := by
  simp only [List.length_replicate]
  decide +kernel

/-- The indices where the clauses meet, and a value over `VAL_CAP` and one nested too deep. -/
theorem witness_HostSlotWrites :
    State.reset.busy = false ∧ (∀ i ∈ [2, 128], 2 ≤ i ∧ i ≤ 128 ∧ slotFits ex1 (some v50Value) = true) ∧
    (∀ i ∈ [0, 1, 129], i < 2 ∨ 128 < i) ∧
    slotFits ex1 (some (.composite (.cons v50Value .nil))) = false := by decide +kernel

theorem witness_HostMessageMoves :
    State.reset.busy = false ∧ (List.replicate 1024 (0x30 : Byte)).length ≤ ex1.valCap ∧
    ex1.valCap < (List.replicate 1025 (0x30 : Byte)).length := by
  simp only [List.length_replicate]
  decide +kernel

theorem witness_ProtoIsSticky :
    let s := withPending [.host .clearMsg] (setProto v87)
    s.proto = true ∧ (∀ rest, s.pending ≠ .reset :: rest) ∧ ∃ t, step s = .next t :=
  ⟨rfl, fun rest h => by simp at h, _, next_after (by decide +kernel)⟩

theorem witness_ConfigurationNeverChanges : ∃ t, step v87 = .next t := ⟨_, next_after (by decide +kernel)⟩

/-- Word 3 and its last index, and the bytes of PRES in bitmap order. -/
theorem witness_PresWordLayout :
    State.reset.busy = false ∧ 3 < 4 ∧ 1 ≤ 128 ∧ 128 ≤ 128 ∧
    ∀ b, b < 16 → (List.replicate 16 (0 : Byte)).getD b 0 = State.reset.pres.extractLsb' (120 - 8 * b) 8 := by
  decide +kernel

/-- An unlisted number, and the two sides of `BUF_CAP`. -/
theorem witness_RegisterMap :
    State.reset.busy = false ∧ 0x0D ∉ List.range 0x0D ++ [0x10, 0x11, 0x12, 0x13] ∧
    (2048 : Word).toNat ≤ State.reset.cfg.bufCap ∧ State.reset.cfg.bufCap < (2049 : Word).toNat ∧
    State.reset.cfg.hasMac = true ∧ (255 : Word).toNat ≤ 255 ∧ (1 : Word).toNat ≤ 1 ∧
    (State.resetWith { ex1 with hasMac := false }).cfg.hasMac = false ∧
    (State.resetWith { ex1 with hasMac := false }).busy = false := by decide +kernel

end Sys2Proof.Tests
end

section
/-! PROOFS. The Digit/BCD Codec (spec/40_bcd.md): what padding and packing give nibble by nibble, how an emitting command
ends and what it keeps, and the obligations O14 to O19. -/

namespace Sys2Proof.Machine

/-! ## Padding and packing (R101 to R103) -/

theorem padEven_of_even {d : Bytes} (pad : LbcdPad) (h : d.length % 2 = 0) : padEven pad d = d := if_pos h

theorem padEven_trailing_of_odd {d : Bytes} (h : d.length % 2 ≠ 0) : padEven .trailing d = d ++ [0x30] := if_neg h

theorem padEven_leading_of_odd {d : Bytes} (h : d.length % 2 ≠ 0) : padEven .leading d = 0x30 :: d := if_neg h

/-- `pad_even` leaves a string of even length, as long as its nibbles need. -/
theorem padEven_length (pad : LbcdPad) (d : Bytes) : (padEven pad d).length = 2 * ceil2 d.length := by
  unfold padEven ceil2
  split
  · omega
  · cases pad <;> simp <;> omega

/-- The pad character is a digit, so a padded decimal string is one. -/
theorem allDigits_padEven (pad : LbcdPad) {d : Bytes} (hd : allDigits d = true) : allDigits (padEven pad d) = true := by
  have hzero : isDigit 0x30#8 = true := by decide
  unfold padEven
  split
  · exact hd
  · cases pad <;> simp [hd, hzero]

/-- Packing right-justified is packing left-justified with the pad digit in front (R103). -/
theorem packRbcd_eq_packLbcd (d : Bytes) : packRbcd d = packLbcd .leading d := by
  unfold packRbcd packLbcd padEven
  split <;> rfl

theorem packLbcd_length (pad : LbcdPad) (d : Bytes) : (packLbcd pad d).length = ceil2 d.length := by
  rw [packLbcd, packPairs_length, padEven_length]
  omega

theorem ceil2_le (n : Nat) : ceil2 n ≤ n := by
  unfold ceil2
  omega

/-- Nibble `j` of a packed string is digit `j` of the padded one. -/
theorem nibbleAt_packLbcd (pad : LbcdPad) {d : Bytes} (hd : allDigits d = true) (j : Nat) :
    nibbleAt (packLbcd pad d) j = dval ((padEven pad d).getD j 0) := by
  have heven : (padEven pad d).length % 2 = 0 := by rw [padEven_length]; omega
  rw [← nibblesOf_getD, packLbcd, nibblesOf_packPairs (allDigits_padEven pad hd) heven]
  exact List.getD_map _ 0 dval

/-- An even count packs to its own digits, whatever the pad side. -/
theorem nibbleAt_packLbcd_of_even (pad : LbcdPad) {d : Bytes} (hd : allDigits d = true) (h : d.length % 2 = 0) (j : Nat) :
    nibbleAt (packLbcd pad d) j = dval (d.getD j 0) := by
  rw [nibbleAt_packLbcd pad hd, padEven_of_even pad h]

/-- Under Trailing the digits come first, and a nibble 0 stands after them: the pad digit or no nibble at all. -/
theorem nibbleAt_packLbcd_trailing {d : Bytes} (hd : allDigits d = true) :
    (∀ j, j < d.length → nibbleAt (packLbcd .trailing d) j = dval (d.getD j 0)) ∧
    nibbleAt (packLbcd .trailing d) d.length = 0 := by
  by_cases h : d.length % 2 = 0
  · exact ⟨fun j _ => nibbleAt_packLbcd_of_even _ hd h j, by simp [nibbleAt_packLbcd_of_even _ hd h, dval]⟩
  · simp only [nibbleAt_packLbcd _ hd, padEven_trailing_of_odd h]
    exact ⟨fun j hj => by rw [List.getD_append _ _ _ _ hj], by simp [dval]⟩

/-- Under Leading an odd count of digits comes after one nibble 0. -/
theorem nibbleAt_packLbcd_leading_of_odd {d : Bytes} (hd : allDigits d = true) (h : d.length % 2 ≠ 0) :
    nibbleAt (packLbcd .leading d) 0 = 0 ∧ ∀ j, nibbleAt (packLbcd .leading d) (j + 1) = dval (d.getD j 0) := by
  simp only [nibbleAt_packLbcd _ hd, padEven_leading_of_odd h]
  exact ⟨rfl, fun _ => rfl⟩

/-! ## Unpacking after packing (R107) -/

theorem take_padEven_trailing (d : Bytes) : (padEven .trailing d).take d.length = d := by
  unfold padEven
  split <;> simp

theorem lastN_padEven_leading (d : Bytes) : lastN d.length (padEven .leading d) = d := by
  unfold padEven
  split <;> simp [lastN]

/-- The packed bytes unpack to the padded string. -/
theorem unpackNibbles_packLbcd (pad : LbcdPad) {d : Bytes} (hd : allDigits d = true) (field : Nat) :
    unpackNibbles (packLbcd pad d) d.length field = .ok (padEven pad d) := by
  have hlen := padEven_length pad d
  have h := unpackNibbles_packPairs (n := d.length) (allDigits_padEven pad hd) (by omega) (by omega) [] field
  rwa [List.append_nil] at h

theorem unpackL_packLbcd (pad : LbcdPad) {d : Bytes} (hd : allDigits d = true) (field : Nat) :
    unpackL pad (packLbcd pad d) d.length field = .ok d := by
  rw [unpackL, unpackNibbles_packLbcd pad hd]
  cases pad with
  | trailing => exact congrArg Except.ok (take_padEven_trailing d)
  | leading => exact congrArg Except.ok (lastN_padEven_leading d)

theorem unpackR_packRbcd {d : Bytes} (hd : allDigits d = true) (field : Nat) :
    unpackR (packRbcd d) d.length field = .ok d := by
  rw [unpackR_eq, packRbcd_eq_packLbcd, unpackL_packLbcd .leading hd]

/-! ## The errors of `unpack_l` (R105) -/

theorem unpackL_of_short (pad : LbcdPad) {bs : Bytes} {n : Nat} (field : Nat) (h : bs.length < ceil2 n) :
    unpackL pad bs n field = .error (truncated field) := by
  rcases unpackNibbles_cases bs n field with ⟨-, h'⟩ | ⟨hlen, -⟩ | ⟨hlen, -⟩
  · rw [unpackL, h']
  · omega
  · omega

theorem unpackL_of_badNibble (pad : LbcdPad) {bs : Bytes} {n : Nat} (field : Nat) (hlen : ceil2 n ≤ bs.length)
    (hd : ¬DecimalNibbles bs (ceil2 n)) : unpackL pad bs n field = .error (badDigit field) := by
  rcases unpackNibbles_cases bs n field with ⟨hshort, -⟩ | ⟨-, hdec, -⟩ | ⟨-, -, h'⟩
  · omega
  · exact absurd hdec hd
  · rw [unpackL, h']

/-! ## How an emitting command ends, and what it keeps -/

/-- Whatever its outcome, a command keeps everything but its destination, the result registers and STATUS (R257). -/
theorem keepsInputs_exec {i : Instr} {s t : State} (h : exec i s = .next t) : KeepsInputs s t := by
  rcases exec_cases h with ⟨u, hu, rfl⟩ | ⟨e, -, rfl⟩
  · exact keepsInputs_writes hu
  · exact keepsInputs_raiseError i e s

/-- An error of an emitting command leaves the message, PRES and every output byte as they were (R256). -/
theorem exec_of_error_of_emits {i : Instr} {s : State} {e : CmdError} (hemits : emits i = true)
    (hi : commandBody i (clearResults s) = .error e) (h1 : e.field < 256) (h2 : e.declared < 65536)
    (h3 : e.actual < 2 ^ 32) :
    ∃ t, exec i s = .next t ∧ Failed e t ∧ KeepsInputs s t ∧ KeepsMessage s t ∧ KeepsBytes .obuf 0 s t := by
  obtain ⟨t, ht, hfail, heq⟩ := exec_of_error hi h1 h2 h3
  rw [commandInvalidate_of_emits hemits, invalidated_id] at heq
  subst heq
  exact ⟨_, ht, hfail, keepsInputs_exec ht, ⟨rfl, rfl⟩, fun _ _ => rfl⟩

/-! ## The packing commands (R102, R103) -/

/-- The command packs its input left-justified with the given pad side, or raises BadBcdDigit. -/
def PacksInput (i : Instr) (pad : LbcdPad) (s : State) : Prop :=
  emits i = true ∧ commandBody i (clearResults s) =
    if allDigits (input s) then emit 0 (packLbcd pad (input s)) (clearResults s) else .error (badDigit 0)

theorem packsInput_packLbcd (s : State) : PacksInput .packLbcd s.cfg.lbcdPad s :=
  ⟨rfl, by simp [commandBody, packLbcdBody]⟩

theorem packsInput_packRbcd (s : State) : PacksInput .packRbcd .leading s :=
  ⟨rfl, by simp [commandBody, packRbcdBody, packRbcd_eq_packLbcd]⟩

/-- On decimal text a packing command succeeds with the packed text as its valid output. -/
theorem PacksInput.succeeds {i : Instr} {pad : LbcdPad} {s : State} (hi : PacksInput i pad s)
    (hc : configWf s.cfg = true) (hcap : s.ilen.toNat ≤ s.cfg.bufCap) (hd : allDigits (input s) = true) :
    ∃ t, exec i s = .next t ∧ Succeeded t ∧ KeepsInputs s t ∧ t.olen.toNat = ceil2 s.ilen.toNat ∧
      output t = packLbcd pad (input s) := by
  obtain ⟨-, hbody⟩ := hi
  rw [if_pos hd] at hbody
  have hlen : (packLbcd pad (input s)).length = ceil2 s.ilen.toNat := by rw [packLbcd_length, input_length]
  have hfit := ceil2_le s.ilen.toNat
  obtain ⟨t, ht, hsucc, hout, holen, -, -⟩ := exec_of_emit hc (by omega) hbody
  exact ⟨t, ht, hsucc, keepsInputs_exec ht, holen.trans hlen, hout⟩

/-- One byte of the input that is no digit is enough for BadBcdDigit, and nothing is written. -/
theorem PacksInput.fails {i : Instr} {pad : LbcdPad} {s : State} (hi : PacksInput i pad s) {k : Nat}
    (hk : k < s.ilen.toNat) (hbad : isDigit ((input s).getD k 0) = false) :
    ∃ t, exec i s = .next t ∧ Failed (badDigit 0) t ∧ KeepsInputs s t ∧ KeepsMessage s t ∧ KeepsBytes .obuf 0 s t := by
  obtain ⟨hemits, hbody⟩ := hi
  have hk' : k < (input s).length := by rwa [input_length]
  have hd : ¬allDigits (input s) = true := fun h => by
    have hdigit := List.all_eq_true.mp h _ (List.getElem_mem hk')
    rw [← List.getD_eq_getElem _ 0 hk', hbad] at hdigit
    cases hdigit
  rw [if_neg hd] at hbody
  exact exec_of_error_of_emits hemits hbody (by decide) (by decide) (by decide)

/-- Settles O14: the output is the packed text, whose nibbles are the digits of the padded one. -/
theorem packLbcdWritesDigits : Obligations.PackLbcdWritesDigits := by
  intro s
  refine ⟨fun hc hcap hd => ?_, fun k hk hbad => (packsInput_packLbcd s).fails hk hbad⟩
  obtain ⟨t, ht, hsucc, hkeep, holen, hout⟩ := (packsInput_packLbcd s).succeeds hc hcap hd
  refine ⟨t, ht, hsucc, hkeep, holen, ?_⟩
  rw [hout, ← input_length s]
  cases hpad : s.cfg.lbcdPad with
  | trailing =>
    obtain ⟨hdigits, hend⟩ := nibbleAt_packLbcd_trailing hd
    rw [if_pos (.inr rfl)]
    exact ⟨hdigits, fun _ => hend⟩
  | leading =>
    by_cases heven : (input s).length % 2 = 0
    · rw [if_pos (.inl heven)]
      exact ⟨fun j _ => nibbleAt_packLbcd_of_even _ hd heven j, fun hodd => by omega⟩
    · obtain ⟨hpadNibble, hdigits⟩ := nibbleAt_packLbcd_leading_of_odd hd heven
      rw [if_neg (not_or.mpr ⟨heven, by decide⟩)]
      exact ⟨hpadNibble, fun j _ => hdigits j⟩

/-- Settles O15: packing right-justified is packing left-justified under Leading. -/
theorem packRbcdWritesDigits : Obligations.PackRbcdWritesDigits := by
  intro s
  refine ⟨fun hc hcap hd => ?_, fun k hk hbad => (packsInput_packRbcd s).fails hk hbad⟩
  obtain ⟨t, ht, hsucc, hkeep, holen, hout⟩ := (packsInput_packRbcd s).succeeds hc hcap hd
  refine ⟨t, ht, hsucc, hkeep, holen, ?_⟩
  rw [hout, ← input_length s]
  split
  next heven => exact fun j _ => nibbleAt_packLbcd_of_even _ hd heven j
  next hodd =>
    obtain ⟨hpadNibble, hdigits⟩ := nibbleAt_packLbcd_leading_of_odd hd hodd
    exact ⟨hpadNibble, fun j _ => hdigits j⟩

/-! ## The unpacking commands (R105, R106) -/

/-- The command emits what `unpack_l` with the given pad side gives of its input. -/
def UnpacksInput (i : Instr) (pad : LbcdPad) (n : Nat) (s : State) : Prop :=
  commandBody i (clearResults s) = unpackL pad (input s) n 0 >>= fun v => emit 0 v (clearResults s)

theorem unpacksInput_unpackL (n : BitVec 16) (s : State) : UnpacksInput (.unpackL n) s.cfg.lbcdPad n.toNat s := rfl

theorem unpacksInput_unpackR (n : BitVec 16) (s : State) : UnpacksInput (.unpackR n) .leading n.toNat s := rfl

section

variable {i : Instr} {pad : LbcdPad} {n : Nat} {s : State}

/-- With enough decimal nibbles and room for the digits, they are the valid output. -/
theorem UnpacksInput.succeeds (hi : UnpacksInput i pad n s) (hc : configWf s.cfg = true)
    (hlen : ceil2 n ≤ s.ilen.toNat) (hcap : n ≤ s.cfg.bufCap) (hd : DecimalNibbles (input s) (ceil2 n)) :
    ∃ t, exec i s = .next t ∧ Succeeded t ∧ t.olen.toNat = n ∧ t.consumed = 0 ∧
      ∀ k, k < n → (output t).getD k 0 =
        dchr (nibbleAt (input s) (if pad = .trailing then k else 2 * ceil2 n - n + k)) := by
  obtain ⟨v, hv, rfl, hdigits⟩ := unpackL_ok (pad := pad) (field := 0) (by rwa [input_length]) hd
  rw [UnpacksInput, hv] at hi
  obtain ⟨t, ht, hsucc, rfl, holen, hcons, -⟩ := exec_of_emit hc hcap hi
  exact ⟨t, ht, hsucc, holen, hcons, hdigits⟩

/-- An error of `unpack_l` is the command's error. -/
theorem UnpacksInput.fails {e : CmdError} (hi : UnpacksInput i pad n s) (he : unpackL pad (input s) n 0 = .error e)
    (h1 : e.field < 256) (h2 : e.declared < 65536) (h3 : e.actual < 2 ^ 32) :
    ∃ t, exec i s = .next t ∧ Failed e t := by
  rw [UnpacksInput, he] at hi
  obtain ⟨t, ht, hfail, -⟩ := exec_of_error hi h1 h2 h3
  exact ⟨t, ht, hfail⟩

theorem UnpacksInput.truncated (hi : UnpacksInput i pad n s) (hshort : s.ilen.toNat < ceil2 n) :
    ∃ t, exec i s = .next t ∧ Failed { code := .truncatedMessage } t :=
  hi.fails (unpackL_of_short pad 0 (by rwa [input_length])) (by decide) (by decide) (by decide)

theorem UnpacksInput.badDigit (hi : UnpacksInput i pad n s) (hlen : ceil2 n ≤ s.ilen.toNat)
    (hd : ¬DecimalNibbles (input s) (ceil2 n)) :
    ∃ t, exec i s = .next t ∧ Failed { code := .badBcdDigit } t :=
  hi.fails (unpackL_of_badNibble pad 0 (by rwa [input_length]) hd) (by decide) (by decide) (by decide)

/-- Digits that unpack but pass `BUF_CAP` are refused by `emit`. -/
theorem UnpacksInput.capacity (hi : UnpacksInput i pad n s) (hlen : ceil2 n ≤ s.ilen.toNat)
    (hd : DecimalNibbles (input s) (ceil2 n)) (hcap : s.cfg.bufCap < n) :
    ∃ t, exec i s = .next t ∧ Failed { code := .internalCodecError, cause := .capacity } t := by
  obtain ⟨v, hv, rfl, -⟩ := unpackL_ok (pad := pad) (field := 0) (by rwa [input_length]) hd
  rw [UnpacksInput, hv] at hi
  rcases emit_cases 0 v (clearResults s) with ⟨-, hemit⟩ | ⟨hroom, -⟩
  · obtain ⟨t, ht, hfail, -⟩ := exec_of_error (hi.trans hemit) (by decide) (by decide) (by decide)
    exact ⟨t, ht, hfail⟩
  · simp at hroom
    omega

end

/-- Settles O16, from the outcomes of an unpacking command with the pad side of the configuration. -/
theorem unpackLeftTakesDigits : Obligations.UnpackLeftTakesDigits := by
  intro s n
  have hi := unpacksInput_unpackL n s
  exact ⟨hi.succeeds, hi.truncated, hi.badDigit, hi.capacity⟩

/-- Settles O17: the same outcomes under Leading, whatever `LBCD_PAD` is. -/
theorem unpackRightTakesDigits : Obligations.UnpackRightTakesDigits := by
  intro s n
  have hi := unpacksInput_unpackR n s
  refine ⟨fun hc hlen hcap hd => ?_, hi.truncated, hi.badDigit, hi.capacity⟩
  obtain ⟨t, ht, hsucc, holen, -, hdigits⟩ := hi.succeeds hc hlen hcap hd
  exact ⟨t, ht, hsucc, holen, hdigits⟩

/-- Settles O18: packed bytes unpack to the padded string, of which the unpacker of the same side drops the pad digit. -/
theorem unpackInvertsPack : Obligations.UnpackInvertsPack := by
  refine ⟨fun pad d field hd => ?_, fun field => rfl⟩
  exact ⟨unpackL_packLbcd pad hd field, unpackR_packRbcd hd field, packLbcd_length pad d, by
    rw [packRbcd_eq_packLbcd, packLbcd_length]⟩

/-! ## Fitting a numeric value (R108) -/

/-- A value no longer than declared is neither carved nor too long. -/
theorem fitNumeric_of_le (enc : ByteEncoding) (kind : FieldKind) {declared : Nat} (field : Nat) {v : Bytes}
    (h : v.length ≤ declared) :
    fitNumeric enc kind declared field v =
      if kind = .fixed then .ok (List.replicate (declared - v.length) 0x30 ++ v) else .ok v := by
  rw [fitNumeric_eq, if_neg (by omega), if_neg (by omega)]

/-- Settles O19, from the three outcomes of `fit_numeric`. -/
theorem fitNumericSteps : Obligations.FitNumericSteps := by
  intro enc kind declared field v carved
  refine ⟨fun hcarved => ?_, fun hcarved hlong => ?_, fun hle => ?_⟩
  · rw [fitNumeric_eq, if_pos hcarved, List.drop_one]
  · rw [fitNumeric_eq, if_neg hcarved, if_pos hlong]
  · rw [fitNumeric_of_le enc kind field hle]
    split
    · refine ⟨_, rfl, by simp; omega, by simp, fun k hk => ?_⟩
      rw [List.getD_append _ _ _ _ (by simpa using hk)]
      simp [List.getD_eq_getElem?_getD, hk]
    · exact ⟨v, rfl, rfl⟩

end Sys2Proof.Machine
end

section
/-! PROOFS. The Length-Prefix Codec (spec/41_length_prefix.md): the header bytes by their nibbles and as numbers, what the
decoder reads of a header with given nibbles, how ENC_LEN and DEC_LEN end, and the obligations O20 to O22. -/

namespace Sys2Proof.Machine

/-! ## The header bytes (R120 to R123) -/

theorem hdrSize_le (kind : FieldKind) : hdrSize kind ≤ 2 := by cases kind <;> decide

theorem digit_or_digit_lt {a b : Nat} (ha : a ≤ 9) (hb : b ≤ 9) : a ||| b < 16 :=
  Nat.or_lt_two_pow (n := 4) (by omega) (by omega)

/-- The composed byte 0 has the hundreds digit as its low nibble. -/
theorem var2Byte0_composed (len : Nat) : var2Byte0 .composed len = nibbles 0 (len / 100) := by
  simp [var2Byte0, nibbles]

/-- The verbatim byte 0 has the tens digit as its high nibble and the OR of hundreds and units as its low one. -/
theorem var2Byte0_sourceVerbatim (len : Nat) :
    var2Byte0 .sourceVerbatim len = nibbles (len % 100 / 10) (len / 100 ||| len % 10) := by
  simp only [var2Byte0, nibbles, BitVec.ofNat_or]
  ac_rfl

/-- The OR of the verbatim formula as a sum: only hundreds and units share a nibble. -/
theorem var2Sum_eq_or {h t u : Nat} (hh : h ≤ 9) (hu : u ≤ 9) : 16 * t + (h ||| u) = h ||| t <<< 4 ||| u := by
  have hlow := digit_or_digit_lt hh hu
  calc 16 * t + (h ||| u) = t <<< 4 + (h ||| u) := by rw [Nat.shiftLeft_eq, Nat.mul_comm]
    _ = t <<< 4 ||| (h ||| u) := Nat.shiftLeft_add_eq_or_of_lt hlow t
    _ = h ||| t <<< 4 ||| u := by ac_rfl

theorem headerBytes_var1_toNat (mode : Var2Byte0) {len : Nat} (h : len ≤ 99) :
    (headerBytes mode .var1 len).map (·.toNat) = [16 * (len / 10) + len % 10] := by
  simp only [headerBytes, List.map_cons, List.map_nil]
  rw [nibbles_toNat (by omega) (by omega)]

theorem headerBytes_var2_toNat (mode : Var2Byte0) {len : Nat} (h : len ≤ 999) :
    (headerBytes mode .var2 len).map (·.toNat) =
      [if mode = .composed then len / 100 else len / 100 ||| (len % 100 / 10) <<< 4 ||| len % 10,
       16 * (len % 100 / 10) + len % 10] := by
  have hlow : len / 100 ||| len % 10 < 16 := digit_or_digit_lt (by omega) (by omega)
  simp only [headerBytes, List.map_cons, List.map_nil]
  rw [nibbles_toNat (h := len % 100 / 10) (l := len % 10) (by omega) (by omega)]
  cases mode with
  | composed => rw [var2Byte0_composed, nibbles_toNat (by omega) (by omega)]; simp
  | sourceVerbatim =>
    rw [var2Byte0_sourceVerbatim, nibbles_toNat (by omega) hlow, var2Sum_eq_or (by omega) (by omega)]
    simp

theorem headerBytes_var2Wide_toNat (mode : Var2Byte0) {len : Nat} (h : len ≤ 9999) :
    (headerBytes mode .var2Wide len).map (·.toNat) =
      [16 * (len / 1000) + len / 100 % 10, 16 * (len / 10 % 10) + len % 10] := by
  simp only [headerBytes, List.map_cons, List.map_nil]
  rw [nibbles_toNat (by omega) (by omega), nibbles_toNat (by omega) (by omega)]

/-! ## `enc_len` and `dec_len` by cases (R125, R128) -/

theorem encLen_of_le (mode : Var2Byte0) {kind : FieldKind} {len : Nat} (field : Nat) (h : len ≤ lenMax kind) :
    encLen mode kind len field = .ok (headerBytes mode kind len) := if_neg (by omega)

theorem encLen_of_gt (mode : Var2Byte0) {kind : FieldKind} {len : Nat} (field : Nat) (h : lenMax kind < len) :
    encLen mode kind len field = .error (tooLong field (lenMax kind) len) := if_pos h

theorem decLen_of_short {kind : FieldKind} {bs : Bytes} (field : Nat) (h : bs.length < hdrSize kind) :
    decLen kind bs field = .error (truncated field) := if_pos h

theorem decLen_of_decimal {kind : FieldKind} {bs : Bytes} (field : Nat) (hlen : hdrSize kind ≤ bs.length)
    (hd : DecimalNibbles bs (hdrSize kind)) : decLen kind bs field = .ok (headerNumber kind bs) := by
  rcases decLen_cases kind bs field with ⟨hshort, -⟩ | ⟨-, -, h⟩ | ⟨-, hbad, -⟩
  · omega
  · exact h
  · exact absurd hd hbad

theorem decLen_of_badNibble {kind : FieldKind} {bs : Bytes} (field : Nat) (hlen : hdrSize kind ≤ bs.length)
    (hd : ¬DecimalNibbles bs (hdrSize kind)) : decLen kind bs field = .error (parseFailed field) := by
  rcases decLen_cases kind bs field with ⟨hshort, -⟩ | ⟨-, hdec, -⟩ | ⟨-, -, h⟩
  · omega
  · exact absurd hdec hd
  · exact h

/-- A one-byte header is read as two decimal digits, if its nibbles are. -/
theorem decLen_nibbles {kind : FieldKind} (hk : hdrSize kind = 1) {a b : Nat} (ha : a < 16) (hb : b < 16) (field : Nat) :
    decLen kind [nibbles a b] field = if a ≤ 9 ∧ b ≤ 9 then .ok (10 * a + b) else .error (parseFailed field) := by
  simp [decLen, hk, nibblesOf, hi_nibbles ha hb, lo_nibbles ha hb, decimal, Nat.mul_comm]

/-- A two-byte header is read as four decimal digits, whatever its kind. -/
theorem decLen_nibbles_nibbles {kind : FieldKind} (hk : hdrSize kind = 2) {a b c d : Nat} (ha : a < 16) (hb : b < 16)
    (hc : c < 16) (hd : d < 16) (field : Nat) :
    decLen kind [nibbles a b, nibbles c d] field =
      if a ≤ 9 ∧ b ≤ 9 ∧ c ≤ 9 ∧ d ≤ 9 then .ok (1000 * a + 100 * b + 10 * c + d) else .error (parseFailed field) := by
  have hspelt : ((a * 10 + b) * 10 + c) * 10 + d = 1000 * a + 100 * b + 10 * c + d := by omega
  simp [decLen, hk, nibblesOf, hi_nibbles ha hb, lo_nibbles ha hb, hi_nibbles hc hd, lo_nibbles hc hd, decimal, hspelt]

/-! ## How the two commands end -/

/-- An error of a command's pseudocode is how the command fails. -/
theorem exec_failed_of_error {i : Instr} {s : State} {e : CmdError} (hi : commandBody i (clearResults s) = .error e)
    (h1 : e.field < 256) (h2 : e.declared < 65536) (h3 : e.actual < 2 ^ 32) :
    ∃ t, exec i s = .next t ∧ Failed e t := by
  obtain ⟨t, ht, hfail, -⟩ := exec_of_error hi h1 h2 h3
  exact ⟨t, ht, hfail⟩

/-- R73 test 3. -/
theorem kindOperand_illegal {operand : BitVec 8} (h : ¬(1 ≤ operand.toNat ∧ operand.toNat ≤ 3)) :
    kindOperand operand = .error { code := .illegalCommand, cause := .badKind } := by
  unfold kindOperand
  split
  · omega
  · omega
  · omega
  · rfl

/-- A command that starts with the kind test fails on a bad kind, whatever it would do next. -/
theorem exec_failed_of_badKind {i : Instr} {operand : BitVec 8} {s : State} {rest : FieldKind → Except CmdError State}
    (hi : commandBody i (clearResults s) = kindOperand operand >>= rest)
    (h : ¬(1 ≤ operand.toNat ∧ operand.toNat ≤ 3)) :
    ∃ t, exec i s = .next t ∧ Failed { code := .illegalCommand, cause := .badKind } t := by
  rw [kindOperand_illegal h, error_bind] at hi
  exact exec_failed_of_error hi (by decide) (by decide) (by decide)

section

variable {operand : BitVec 8} {kind : FieldKind}

/-- ENC_LEN with a legal kind emits what `enc_len` gives (R124). -/
theorem commandBody_encLen (hk : KindNamed operand kind) (len : BitVec 16) (s : State) :
    commandBody (.encLen operand len) (clearResults s) =
      encLen s.cfg.var2Byte0 kind len.toNat 0 >>= fun v => emit 0 v (clearResults s) := by
  simp [commandBody, encLenBody, kindOperand_named hk, countOperand]

/-- DEC_LEN with a legal kind puts what `dec_len` gives into RES (R126). -/
theorem commandBody_decLen (hk : KindNamed operand kind) (s : State) :
    commandBody (.decLen operand) (clearResults s) =
      decLen kind (input s) 0 >>= fun n =>
        .ok { clearResults s with res := BitVec.ofNat 16 n, consumed := BitVec.ofNat 32 (hdrSize kind) } := by
  simp [commandBody, decLenBody, kindOperand_named hk]

/-- ENC_LEN of a length in range leaves the header of its kind as the valid output. -/
theorem exec_encLen_ok (hk : KindNamed operand kind) {len : BitVec 16} {s : State} (hc : configWf s.cfg = true)
    (hlen : len.toNat ≤ lenMax kind) :
    ∃ t, exec (.encLen operand len) s = .next t ∧ Succeeded t ∧ t.olen.toNat = hdrSize kind ∧
      output t = headerBytes s.cfg.var2Byte0 kind len.toNat := by
  have hbody := commandBody_encLen hk len s
  rw [encLen_of_le _ _ hlen, ok_bind] at hbody
  have hsize := hdrSize_le kind
  have hcap := (configWf_bufCap hc).2
  obtain ⟨t, ht, hsucc, hout, holen, -, -⟩ := exec_of_emit hc (by rw [headerBytes_length]; omega) hbody
  exact ⟨t, ht, hsucc, by rw [holen, headerBytes_length], hout⟩

/-- DEC_LEN of a header that decodes writes RES and CONSUMED only. -/
theorem exec_decLen_ok (hk : KindNamed operand kind) {s : State} {n : Nat} (h : decLen kind (input s) 0 = .ok n)
    (hn : n < 65536) :
    ∃ t, exec (.decLen operand) s = .next t ∧ Succeeded t ∧ t.res.toNat = n ∧ t.consumed.toNat = hdrSize kind ∧
      t.olen = 0 ∧ KeepsBytes .obuf 0 s t := by
  have hbody := commandBody_decLen hk s
  rw [h, ok_bind] at hbody
  have hsize := hdrSize_le kind
  rw [exec_eq_runCommand, runCommand_ok hbody]
  refine ⟨_, rfl, ⟨rfl, rfl, rfl, ⟨rfl, rfl, rfl, rfl, rfl⟩⟩, ?_, ?_, rfl, fun _ _ => rfl⟩
  · exact Nat.mod_eq_of_lt hn
  · exact Nat.mod_eq_of_lt (by omega)

/-- An error of `dec_len` is DEC_LEN's error. -/
theorem exec_decLen_error (hk : KindNamed operand kind) {s : State} {e : CmdError}
    (h : decLen kind (input s) 0 = .error e) (h1 : e.field < 256) (h2 : e.declared < 65536) (h3 : e.actual < 2 ^ 32) :
    ∃ t, exec (.decLen operand) s = .next t ∧ Failed e t := by
  have hbody := commandBody_decLen hk s
  rw [h, error_bind] at hbody
  exact exec_failed_of_error hbody h1 h2 h3

end

/-- Settles O20, from the header bytes of each kind as numbers. -/
theorem encLenWritesHeader : Obligations.EncLenWritesHeader := by
  intro s operand len hc
  refine ⟨exec_failed_of_badKind rfl, fun kind hk => ⟨fun hlen => ?_, fun hlong => ?_⟩⟩
  · obtain ⟨t, ht, hsucc, holen, hout⟩ := exec_encLen_ok hk hc hlen
    refine ⟨t, ht, hsucc, holen, ?_⟩
    rw [hout]
    refine ⟨?_, ?_, ?_⟩ <;> rintro rfl
    · exact headerBytes_var1_toNat _ hlen
    · exact headerBytes_var2_toNat _ hlen
    · exact headerBytes_var2Wide_toNat _ hlen
  · have hbody := commandBody_encLen hk len s
    rw [encLen_of_gt _ _ hlong, error_bind] at hbody
    have hbits := len.isLt
    exact exec_failed_of_error hbody (Nat.zero_lt_succ _) (hlong.trans hbits) (hbits.trans (by decide))

/-- Settles O21, from the three outcomes of `dec_len`. -/
theorem decLenReadsDigits : Obligations.DecLenReadsDigits := by
  intro s operand
  refine ⟨exec_failed_of_badKind rfl, fun kind hk => ⟨fun hlen hd => ?_, fun hshort => ?_, fun hlen hbad => ?_⟩⟩
  · have hn := headerNumber_le hd
    exact exec_decLen_ok hk (decLen_of_decimal 0 (by rwa [input_length]) hd) (by omega)
  · exact exec_decLen_error hk (decLen_of_short 0 (by rwa [input_length])) (by decide) (by decide) (by decide)
  · exact exec_decLen_error hk (decLen_of_badNibble 0 (by rwa [input_length]) hbad) (by decide) (by decide) (by decide)

/-! ## Round trips of length headers (R127) -/

/-- The header of a variable kind is read back as the length, `Var2` only when byte 0 is composed. -/
theorem decLen_headerBytes {kind : FieldKind} {mode : Var2Byte0} {len : Nat} (field : Nat) (hkind : kind ≠ .fixed)
    (hlen : len ≤ lenMax kind) (hmode : kind = .var2 → mode = .composed) :
    decLen kind (headerBytes mode kind len) field = .ok len := by
  cases kind with
  | fixed => exact absurd rfl hkind
  | var1 =>
    simp only [lenMax] at hlen
    rw [headerBytes, decLen_nibbles rfl (by omega) (by omega), if_pos (by omega)]
    exact congrArg Except.ok (by omega)
  | var2 =>
    simp only [lenMax] at hlen
    rw [hmode rfl, headerBytes, var2Byte0_composed,
      decLen_nibbles_nibbles rfl (by omega) (by omega) (by omega) (by omega), if_pos (by omega)]
    exact congrArg Except.ok (by omega)
  | var2Wide =>
    simp only [lenMax] at hlen
    rw [headerBytes, decLen_nibbles_nibbles rfl (by omega) (by omega) (by omega) (by omega), if_pos (by omega)]
    exact congrArg Except.ok (by omega)

/-- Under SourceVerbatim a `Var2` header is read with tens, the OR of hundreds and units, tens, and units as its digits. -/
theorem decLen_headerBytes_sourceVerbatim {len : Nat} (field : Nat) (hlen : len ≤ 999) :
    decLen .var2 (headerBytes .sourceVerbatim .var2 len) field =
      if 9 < len / 100 ||| len % 10 then .error (parseFailed field)
      else .ok (1000 * (len % 100 / 10) + 100 * (len / 100 ||| len % 10) + 10 * (len % 100 / 10) + len % 10) := by
  have hlow : len / 100 ||| len % 10 < 16 := digit_or_digit_lt (by omega) (by omega)
  rw [headerBytes, var2Byte0_sourceVerbatim,
    decLen_nibbles_nibbles rfl (by omega) hlow (by omega) (by omega)]
  by_cases hbad : 9 < len / 100 ||| len % 10
  · rw [if_neg (by omega), if_pos hbad]
  · rw [if_pos (by omega), if_neg hbad]

/-- ORing the units into the hundreds digit never lowers it, so the number read is the length only if neither the tens nor
the units disturb byte 0. -/
theorem verbatimRead_eq_iff (len : Nat) :
    1000 * (len % 100 / 10) + 100 * (len / 100 ||| len % 10) + 10 * (len % 100 / 10) + len % 10 = len ↔
      len % 100 / 10 = 0 ∧ len / 100 ||| len % 10 = len / 100 := by
  have hle : len / 100 ≤ len / 100 ||| len % 10 := Nat.left_le_or
  omega

/-! R127 counts over the 1000 lengths of `Var2`: closed facts, so the kernel evaluates them. -/

theorem survivesVar2_lengths :
    (List.range 1000).filter survivesVar2 =
      [0, 100, 101, 200, 202, 300, 301, 302, 303, 400, 404, 500, 501, 504, 505, 600, 602, 604, 606] ++
      [700, 701, 702, 703, 704, 705, 706, 707, 800, 808, 900, 901, 908, 909] := by decide +kernel

theorem parseFailing_count :
    ((List.range 1000).filter fun len => 9 < (len / 100) ||| (len % 10)).length = 240 := by decide +kernel

theorem misread_count :
    ((List.range 1000).filter fun len => !survivesVar2 len && decide ((len / 100) ||| (len % 10) ≤ 9)).length = 727 := by
  decide +kernel

/-- Settles O22: the general laws of the four kinds of header, and the counts over the 1000 lengths of `Var2`. -/
theorem lengthHeaderRoundTrip : Obligations.LengthHeaderRoundTrip := by
  refine ⟨fun kind mode len field rest hkind hlen hmode => ?_,
    fun len field hlen => ⟨decLen_headerBytes_sourceVerbatim field hlen, verbatimRead_eq_iff len⟩,
    survivesVar2_lengths, parseFailing_count, misread_count⟩
  rw [decLen_append rest field (headerBytes_length mode kind len)]
  exact ⟨encLen_of_le mode field hlen, decLen_headerBytes field hkind hlen hmode⟩

end Sys2Proof.Machine
end

section
/-! PROOFS. Encoding a scalar field (spec/42_field_codec.md): how FIELD_ENC ends from what `encode_scalar` gives, the length
tests and the hex text of R141 and R142, the fitted digits of R143 and R144, and the obligations O23 to O25. -/

namespace Sys2Proof.Machine

/-! ## FIELD_ENC of a scalar value (R140, R147) -/

/-- FIELD_ENC finds an entry in the table and a value in the slot: it emits what `encode_field` gives. -/
theorem commandBody_fieldEnc {s : State} {index : BitVec 8} {d : FieldDef} {v : FieldValue} (hc : configWf s.cfg = true)
    (hd : lookupDef s.cfg.defs index.toNat = some d) (hv : fieldSlot s index.toNat = some v) :
    commandBody (.fieldEnc index) (clearResults s) =
      encodeField s.cfg index.toNat d v >>= fun bytes => emit index.toNat bytes (clearResults s) := by
  obtain ⟨hlow, hhigh, -, -⟩ := lookupDef_wf (configWf_defs hc) hd
  have hslot : filledSlot (clearResults s) index.toNat = .ok v := filledSlot_of_some hv
  simp only [commandBody, fieldEncBody, indexOperand_ok hlow hhigh, hslot, clearResults_cfg, tableEntry_of_lookup hd, ok_bind]

/-- A scalar value of a supported encoding: `encode_scalar`, then the length header (R140). -/
theorem encodeField_scalar {code : BitVec 8} {enc : ByteEncoding} (h : encodingOf? code = some enc) (c : Config) (i : Nat)
    (kind : FieldKind) (dl : Nat) (v : Bytes) :
    encodeField c i (.scalar kind code dl) (.scalar v) =
      encodeScalar c i kind enc dl v >>= fun r => withHeader c i kind r.1 r.2 := by
  simp only [encodeField, supportedEncoding, h, ok_bind]

theorem bodySize_mono (enc : ByteEncoding) {m n : Nat} (h : m ≤ n) : bodySize m enc ≤ bodySize n enc := by
  have hceil : ceil2 m ≤ ceil2 n := Nat.div_le_div_right (Nat.succ_le_succ h)
  cases enc with
  | ascii => exact h
  | binary => exact h
  | bcd => exact hceil
  | rbcd => exact hceil

theorem configWf_valCap {c : Config} (h : configWf c = true) : c.valCap < 2 ^ 32 := by
  simp only [configWf, Bool.and_eq_true, decide_eq_true_eq] at h
  omega

/-- R31 (f) for a scalar entry of a supported encoding. -/
theorem entryFits_scalar {cap dl : Nat} {kind : FieldKind} {code : BitVec 8} {enc : ByteEncoding}
    (h : encodingOf? code = some enc) :
    entryFits cap (.scalar kind code dl) = true ↔ hdrSize kind + bodySize dl enc ≤ cap := by
  have hsize : defSize? (.scalar kind code dl) = some (bodySize dl enc) := congrArg (Option.map (bodySize dl)) h
  rw [entryFits, hsize]
  exact decide_eq_true_iff

/-- The slot of FIELD_ENC holds a scalar value, and its entry is a scalar of a supported encoding, in a configuration the spec
speaks of. -/
structure ScalarField (s : State) (index : BitVec 8) (kind : FieldKind) (enc : ByteEncoding) (dl : Nat) (v : Bytes) :
    Prop where
  config : configWf s.cfg = true
  entry  : ∃ code, encodingOf? code = some enc ∧ lookupDef s.cfg.defs index.toNat = some (.scalar kind code dl)
  slot   : fieldSlot s index.toNat = some (.scalar v)
  cap    : v.length ≤ s.cfg.valCap

namespace ScalarField

variable {s : State} {index : BitVec 8} {kind : FieldKind} {enc : ByteEncoding} {dl : Nat} {v : Bytes}

/-- What R31 (b) and (f) give for the entry. -/
theorem entry_wf (hf : ScalarField s index kind enc dl v) :
    dl ≤ lenMax kind ∧ hdrSize kind + bodySize dl enc ≤ s.cfg.bufCap := by
  obtain ⟨code, henc, hd⟩ := hf.entry
  obtain ⟨-, -, hwf, hfits⟩ := lookupDef_wf (configWf_defs hf.config) hd
  exact ⟨by simpa [defWf] using hwf, (entryFits_scalar henc).mp hfits⟩

theorem declared_lt (hf : ScalarField s index kind enc dl v) : dl < 65536 := by
  obtain ⟨hdl, -⟩ := hf.entry_wf
  have hmax : lenMax kind < 65536 := by cases kind <;> decide
  exact hdl.trans_lt hmax

theorem length_lt (hf : ScalarField s index kind enc dl v) : v.length < 2 ^ 32 :=
  hf.cap.trans_lt (configWf_valCap hf.config)

theorem commandBody_eq (hf : ScalarField s index kind enc dl v) :
    commandBody (.fieldEnc index) (clearResults s) =
      (encodeScalar s.cfg index.toNat kind enc dl v >>= fun r => withHeader s.cfg index.toNat kind r.1 r.2) >>=
        fun bytes => emit index.toNat bytes (clearResults s) := by
  obtain ⟨code, henc, hd⟩ := hf.entry
  rw [commandBody_fieldEnc hf.config hd hf.slot, encodeField_scalar henc]

/-- A body within the declared length goes out behind its header: R31 (f) leaves room for both. -/
theorem succeeds (hf : ScalarField s index kind enc dl v) {n : Nat} {body : Bytes}
    (h : encodeScalar s.cfg index.toNat kind enc dl v = .ok (n, body)) (hn : n ≤ dl) (hbody : body.length = bodySize n enc) :
    ∃ t, exec (.fieldEnc index) s = .next t ∧ Succeeded t ∧ output t = wireHeader s.cfg kind n ++ body := by
  obtain ⟨hdl, hfits⟩ := hf.entry_wf
  have hcommand := hf.commandBody_eq
  rw [h, ok_bind, withHeader_ok (hn.trans hdl), ok_bind] at hcommand
  have hmono := bodySize_mono enc hn
  have hroom : (wireHeader s.cfg kind n ++ body).length ≤ s.cfg.bufCap := by
    rw [List.length_append, wireHeader_length, hbody]
    omega
  obtain ⟨t, ht, hsucc, hout, -⟩ := exec_of_emit hf.config hroom hcommand
  exact ⟨t, ht, hsucc, hout⟩

/-- An error of `encode_scalar` about the field is how FIELD_ENC fails. -/
theorem fails (hf : ScalarField s index kind enc dl v) {e : CmdError}
    (h : encodeScalar s.cfg index.toNat kind enc dl v = .error e) (h1 : e.field = index.toNat) (h2 : e.declared ≤ dl)
    (h3 : e.actual ≤ v.length) : ∃ t, exec (.fieldEnc index) s = .next t ∧ Failed e t := by
  have hcommand := hf.commandBody_eq
  rw [h, error_bind, error_bind] at hcommand
  exact exec_failed_of_error hcommand (h1 ▸ index.isLt) (h2.trans_lt hf.declared_lt) (h3.trans_lt hf.length_lt)

end ScalarField

/-! ## Values whose length is counted in bytes (R141, R142) -/

theorem checkByteCount_ok (i : Nat) {kind : FieldKind} {dl n : Nat} (h : if kind = .fixed then n = dl else n ≤ dl) :
    checkByteCount i kind dl n = .ok () := by
  unfold checkByteCount
  split at h
  next => rw [if_neg (by omega), if_neg (by omega)]
  next hkind => rw [if_neg (by omega), if_neg fun hshort => hkind hshort.1]

theorem checkByteCount_of_gt (i : Nat) (kind : FieldKind) {dl n : Nat} (h : dl < n) :
    checkByteCount i kind dl n = .error (tooLong i dl n) := if_pos h

theorem checkByteCount_of_lt (i : Nat) {dl n : Nat} (h : n < dl) :
    checkByteCount i .fixed dl n = .error (lengthError i dl n) := by
  rw [checkByteCount, if_neg (by omega), if_pos ⟨rfl, h⟩]

/-- The three outcomes of FIELD_ENC for a value that encodes to the `n` bytes `body` if they pass the length tests. -/
theorem ScalarField.exec_of_checkByteCount {s : State} {index : BitVec 8} {kind : FieldKind} {enc : ByteEncoding} {dl n : Nat}
    {v body : Bytes} (hf : ScalarField s index kind enc dl v)
    (h : encodeScalar s.cfg index.toNat kind enc dl v = checkByteCount index.toNat kind dl n >>= fun _ => .ok (n, body))
    (hbody : body.length = bodySize n enc) (hn : n ≤ v.length) :
    ((if kind = .fixed then n = dl else n ≤ dl) →
      ∃ t, exec (.fieldEnc index) s = .next t ∧ Succeeded t ∧ output t = wireHeader s.cfg kind n ++ body) ∧
    (dl < n → ∃ t, exec (.fieldEnc index) s = .next t ∧ Failed (tooLong index.toNat dl n) t) ∧
    (kind = .fixed → n < dl → ∃ t, exec (.fieldEnc index) s = .next t ∧ Failed (lengthError index.toNat dl n) t) := by
  refine ⟨fun hfit => ?_, fun hlong => ?_, fun hkind hshort => ?_⟩
  · have hle : n ≤ dl := by
      split at hfit
      · exact hfit.le
      · exact hfit
    rw [checkByteCount_ok _ hfit, ok_bind] at h
    exact hf.succeeds h hle hbody
  · rw [checkByteCount_of_gt _ _ hlong, error_bind] at h
    exact hf.fails h rfl le_rfl hn
  · subst hkind
    rw [checkByteCount_of_lt _ hshort, error_bind] at h
    exact hf.fails h rfl le_rfl hn

/-- Settles O23: a text is its own body, counted byte by byte. -/
theorem fieldEncAscii : Obligations.FieldEncAscii := by
  intro s index kind dl v hc hd hv hcap
  have hf : ScalarField s index kind .ascii dl v := ⟨hc, ⟨0, rfl, hd⟩, hv, hcap⟩
  exact hf.exec_of_checkByteCount rfl rfl le_rfl

/-! ## Hex text (R142) -/

/-- The hex text of a byte string: an even number of hex digits of either case. -/
abbrev HexText (v : Bytes) : Prop := v.length % 2 = 0 ∧ ∀ k, k < v.length → isHex (v.getD k 0) = true

theorem all_isHex_iff (v : Bytes) : v.all isHex = true ↔ ∀ k, k < v.length → isHex (v.getD k 0) = true := by
  rw [List.all_eq_true, List.forall_mem_iff_forall_getElem]
  exact forall₂_congr fun k hk => by rw [List.getD_eq_getElem _ _ hk]

theorem encodeBinary_of_hexText (i : Nat) (kind : FieldKind) (dl : Nat) {v : Bytes} (h : HexText v) :
    encodeBinary i kind dl v = checkByteCount i kind dl (v.length / 2) >>= fun _ => .ok (v.length / 2, hexdec v) := by
  obtain ⟨heven, hhex⟩ := h
  have hall := (all_isHex_iff v).mpr hhex
  exact if_neg (by simp [heven, hall])

theorem encodeBinary_of_not_hexText (i : Nat) (kind : FieldKind) (dl : Nat) {v : Bytes} (h : ¬HexText v) :
    encodeBinary i kind dl v = .error { code := .invalidHex, field := i } := by
  refine if_pos ?_
  by_contra hbad
  obtain ⟨heven, hall⟩ := not_or.mp hbad
  exact h ⟨by omega, (all_isHex_iff v).mp (by simpa using hall)⟩

theorem hexdec_length (v : Bytes) : (hexdec v).length = v.length / 2 := by
  induction v using hexdec.induct with
  | case1 a b rest ih => simp [hexdec, ih]; omega
  | case2 v h =>
    match v, h with
    | [], _ => rfl
    | [_], _ => simp [hexdec]
    | a :: b :: rest, h => exact absurd rfl (h a b rest)

/-- The nibbles of the bytes of a hex text are the values of its digits. -/
theorem nibblesOf_hexdec {v : Bytes} (heven : v.length % 2 = 0) (hall : v.all isHex = true) :
    nibblesOf (hexdec v) = v.map hval := by
  induction v using hexdec.induct with
  | case1 a b rest ih =>
    simp only [List.all_cons, Bool.and_eq_true] at hall
    obtain ⟨ha, hb, hrest⟩ := hall
    have hparity : rest.length % 2 = 0 := by simp only [List.length_cons] at heven; omega
    simp only [hexdec, nibblesOf, List.map_cons, hi_nibbles (hval_lt ha) (hval_lt hb), lo_nibbles (hval_lt ha) (hval_lt hb),
      ih hparity hrest]
  | case2 v h =>
    match v, h with
    | [], _ => rfl
    | [_], _ => simp at heven
    | a :: b :: rest, h => exact absurd rfl (h a b rest)

theorem nibbleAt_hexdec {v : Bytes} (h : HexText v) {j : Nat} (hj : j < v.length) :
    nibbleAt (hexdec v) j = hval (v.getD j 0) := by
  obtain ⟨heven, hhex⟩ := h
  rw [← nibblesOf_getD, nibblesOf_hexdec heven ((all_isHex_iff v).mpr hhex), List.getD_eq_getElem _ _ (by simpa using hj),
    List.getD_eq_getElem _ _ hj, List.getElem_map]

/-- Settles O24: hex text decodes to a body of one byte per two characters, counted byte by byte. -/
theorem fieldEncBinary : Obligations.FieldEncBinary := by
  intro s index kind dl v hc hd hv hcap n hex
  have hf : ScalarField s index kind .binary dl v := ⟨hc, ⟨1, rfl, hd⟩, hv, hcap⟩
  have hends (h : hex) := hf.exec_of_checkByteCount (encodeBinary_of_hexText _ _ _ h) (hexdec_length v)
    (Nat.div_le_self v.length 2)
  refine ⟨fun h hfit => ?_, fun h => ?_, fun h => ?_, fun h => ?_⟩
  · obtain ⟨hsucceeds, -, -⟩ := hends h
    obtain ⟨t, ht, hsucc, hout⟩ := hsucceeds hfit
    exact ⟨t, hexdec v, ht, hsucc, hout, hexdec_length v, fun j hj => nibbleAt_hexdec h (by omega)⟩
  · exact hf.fails (encodeBinary_of_not_hexText _ _ _ h) rfl (Nat.zero_le _) (Nat.zero_le _)
  · obtain ⟨-, hlong, -⟩ := hends h
    exact hlong
  · obtain ⟨-, -, hshort⟩ := hends h
    exact hshort

/-! ## Decimal values (R143, R144) -/

/-- The packed decimal encoding of a justification: `RBcd` is right-justified, `Bcd` left-justified (R143, R144). -/
def numericEncoding (right : Bool) : ByteEncoding := if right then .rbcd else .bcd

/-- The body of a numeric field: its fitted digits packed on the side of its encoding (R143, R144). -/
def packNumeric (c : Config) (right : Bool) (w : Bytes) : Bytes := if right then packRbcd w else packLbcd c.lbcdPad w

/-- The `RBcd` carve-out applies: one digit too long, and the first is 0 (R108 step 1). -/
abbrev Carved (right : Bool) (dl : Nat) (v : Bytes) : Prop := right = true ∧ v.length = dl + 1 ∧ v.head? = some 0x30

theorem encodingOf?_numeric (right : Bool) : encodingOf? (if right then 3 else 2) = some (numericEncoding right) := by
  cases right <;> rfl

theorem encodeScalar_numeric (c : Config) (i : Nat) (kind : FieldKind) (right : Bool) (dl : Nat) (v : Bytes) :
    encodeScalar c i kind (numericEncoding right) dl v =
      encodeNumeric (numericEncoding right) (packNumeric c right) i kind dl v := by
  cases right <;> rfl

theorem packNumeric_length (c : Config) (right : Bool) (w : Bytes) :
    (packNumeric c right w).length = bodySize w.length (numericEncoding right) := by
  cases right with
  | false => exact packLbcd_length c.lbcdPad w
  | true => exact (congrArg List.length (packRbcd_eq_packLbcd w)).trans (packLbcd_length .leading w)

/-- `fit_numeric` with the carve-out named by the justification. -/
theorem fitNumeric_numeric (right : Bool) (kind : FieldKind) (dl i : Nat) (v : Bytes) :
    fitNumeric (numericEncoding right) kind dl i v =
      if Carved right dl v then .ok v.tail
      else if dl < v.length then .error (tooLong i dl v.length)
      else if kind = .fixed then .ok (List.replicate (dl - v.length) 0x30 ++ v) else .ok v := by
  rw [fitNumeric_eq]
  cases right <;> simp [numericEncoding, Carved]

theorem allDigits_replicate_zero (n : Nat) : allDigits (List.replicate n 0x30#8) = true := by
  simp [allDigits, isDigit]

/-- A leading 0 is a digit, so without it the rest is all digits just when the whole was. -/
theorem allDigits_tail_of_head {v : Bytes} (h : v.head? = some 0x30#8) : allDigits v.tail = allDigits v := by
  obtain ⟨rest, rfl⟩ := List.head?_eq_some_iff.mp h
  simp [isDigit]

/-- A value that `fit_numeric` accepts fits the declared length, and only digits 0 were dropped or added. -/
theorem fitNumeric_fits {right : Bool} (kind : FieldKind) {dl : Nat} (i : Nat) {v : Bytes}
    (h : v.length ≤ dl ∨ Carved right dl v) :
    ∃ w, fitNumeric (numericEncoding right) kind dl i v = .ok w ∧ w.length ≤ dl ∧ allDigits w = allDigits v ∧
      (Carved right dl v → w = v.drop 1) ∧
      (¬Carved right dl v → w = if kind = .fixed then List.replicate (dl - v.length) 0x30 ++ v else v) := by
  rw [fitNumeric_numeric]
  by_cases hcarved : Carved right dl v
  · rw [if_pos hcarved]
    have ⟨_, hlen, hhead⟩ := hcarved
    exact ⟨v.tail, rfl, by simp; omega, allDigits_tail_of_head hhead, fun _ => List.drop_one.symm,
      fun hnot => absurd hcarved hnot⟩
  · have hle : v.length ≤ dl := h.resolve_right hcarved
    rw [if_neg hcarved, if_neg (by omega)]
    split
    · exact ⟨_, rfl, by simp; omega, by simp [allDigits_replicate_zero], fun hyes => absurd hyes hcarved, fun _ => rfl⟩
    · exact ⟨v, rfl, hle, rfl, fun hyes => absurd hyes hcarved, fun _ => rfl⟩

/-- Settles O25, from what `fit_numeric` accepts and what it refuses. -/
theorem fieldEncNumeric : Obligations.FieldEncNumeric := by
  intro s index kind dl v right hc hd hv hcap carved
  have hf : ScalarField s index kind (numericEncoding right) dl v := ⟨hc, ⟨_, encodingOf?_numeric right, hd⟩, hv, hcap⟩
  have hscalar := encodeScalar_numeric s.cfg index.toNat kind right dl v
  refine ⟨fun hdigits hfit => ?_, fun hnot hlong => ?_, fun hfit hbad => ?_⟩
  · obtain ⟨w, hw, hle, hall, hcarved, hpadded⟩ := fitNumeric_fits kind index.toNat hfit
    rw [encodeNumeric, hw, ok_bind, if_pos (hall.trans hdigits)] at hscalar
    obtain ⟨t, ht, hsucc, hout⟩ := hf.succeeds hscalar hle (packNumeric_length s.cfg right w)
    exact ⟨t, w, ht, hsucc, hcarved, hpadded, hout⟩
  · rw [encodeNumeric, fitNumeric_numeric, if_neg hnot, if_pos hlong, error_bind] at hscalar
    exact hf.fails hscalar rfl le_rfl le_rfl
  · obtain ⟨w, hw, -, hall, -, -⟩ := fitNumeric_fits kind index.toNat hfit
    rw [encodeNumeric, hw, ok_bind, if_neg (by simp [hall, hbad])] at hscalar
    exact hf.fails hscalar rfl (Nat.zero_le _) (Nat.zero_le _)

end Sys2Proof.Machine
end

section
/-! PROOFS. The Bitmap Codec (spec/43_bitmap.md): the bits of a built bitmap, what parsing gives of any bytes, PRES as a set of
indices, and the obligations O32 to O34. -/

namespace Sys2Proof.Machine

/-! ## Bitmaps as bit sequences (R170) -/

theorem bitmapBit_replicate_zero (n i : Nat) : bitmapBit (List.replicate n 0) i = false := by
  have hbyte : (List.replicate n (0 : Byte)).getD ((i - 1) / 8) 0 = 0 := by
    rw [List.getD_eq_getElem?_getD, List.getElem?_replicate]
    split <;> rfl
  rw [bitmapBit, hbyte]
  exact BitVec.getLsbD_zero

/-- A bit within the first `n` bytes does not depend on the bytes after them. -/
theorem bitmapBit_take (bm : Bytes) {n i : Nat} (hi : 1 ≤ i) (hin : i ≤ 8 * n) :
    bitmapBit (bm.take n) i = bitmapBit bm i := by
  have hbyte : (i - 1) / 8 < n := by omega
  simp [bitmapBit, List.getD_eq_getElem?_getD, hbyte]

theorem bitmapBit_append (bm rest : Bytes) {i : Nat} (hi : 1 ≤ i) (hin : i ≤ 8 * bm.length) :
    bitmapBit (bm ++ rest) i = bitmapBit bm i := by
  rw [bitmapBit, bitmapBit, List.getD_append _ _ _ _ (by omega)]

/-- A bitmap is determined by its size and its bits. -/
theorem bitmap_ext {a b : Bytes} (hlen : a.length = b.length)
    (h : ∀ i, 1 ≤ i → i ≤ 8 * a.length → bitmapBit a i = bitmapBit b i) : a = b := by
  refine List.ext_getElem hlen fun q ha hb => BitVec.eq_of_getLsbD_eq fun k hk => ?_
  have hbit := h (8 * q + (8 - k)) (by omega) (by omega)
  have hq : (8 * q + (8 - k) - 1) / 8 = q := by omega
  have hk' : 7 - (8 * q + (8 - k) - 1) % 8 = k := by omega
  rwa [bitmapBit, bitmapBit, hq, hk', List.getD_eq_getElem _ _ ha, List.getD_eq_getElem _ _ hb] at hbit

/-! ## Building (R171) -/

theorem foldl_setBitmapBit_length (indices : List Nat) (bm : Bytes) :
    (indices.foldl setBitmapBit bm).length = bm.length := by
  induction indices generalizing bm with
  | nil => rfl
  | cons i indices ih => rw [List.foldl_cons, ih, setBitmapBit_length]

theorem bitmapBit_foldl_setBitmapBit {indices : List Nat} {bm : Bytes} {j : Nat}
    (h : ∀ i ∈ indices, 1 ≤ i ∧ i ≤ 8 * bm.length) (hj : 1 ≤ j) :
    bitmapBit (indices.foldl setBitmapBit bm) j = (decide (j ∈ indices) || bitmapBit bm j) := by
  induction indices generalizing bm with
  | nil => simp
  | cons i indices ih =>
    obtain ⟨⟨hi, hin⟩, hrest⟩ := List.forall_mem_cons.mp h
    rw [List.foldl_cons, ih (by simpa using hrest), bitmapBit_set hi hin hj]
    simp [Bool.or_left_comm, Bool.or_assoc]

@[simp] theorem bmpBuild_length (indices : List Nat) : (bmpBuild indices).length = bitmapSize indices := by
  unfold bmpBuild
  split <;> simp [foldl_setBitmapBit_length]

/-- Sixteen bytes exactly when some index is above 64. -/
theorem bitmapSize_eq (indices : List Nat) :
    bitmapSize indices = if ∃ i ∈ indices, 64 < i then 16 else 8 := by
  simp [bitmapSize]

theorem bitmapSize_eq_or (indices : List Nat) : bitmapSize indices = 8 ∨ bitmapSize indices = 16 := by
  unfold bitmapSize
  split <;> simp

theorem bitmapSize_of_exists {indices : List Nat} (h : ∃ i ∈ indices, 64 < i) : bitmapSize indices = 16 := by
  rw [bitmapSize_eq, if_pos h]

theorem bitmapSize_of_forall {indices : List Nat} (h : ∀ i ∈ indices, i ≤ 64) : bitmapSize indices = 8 := by
  rw [bitmapSize_eq, if_neg (by simpa using h)]

section

variable {indices : List Nat} (h : ∀ i ∈ indices, 2 ≤ i ∧ i ≤ 128)
include h

/-- Every index has its place in the bitmap. -/
theorem index_le_bitmapSize {i : Nat} (hi : i ∈ indices) : i ≤ 8 * bitmapSize indices := by
  have ⟨_, hmax⟩ := h i hi
  by_cases hbig : 64 < i
  · rw [bitmapSize_of_exists ⟨i, hi, hbig⟩]
    omega
  · have hsize := bitmapSize_eq_or indices
    omega

/-- The bits set before bit 1 is forced on. -/
theorem bitmapBit_foldl_zero {j : Nat} (hj : 1 ≤ j) :
    bitmapBit (indices.foldl setBitmapBit (List.replicate (bitmapSize indices) 0)) j = decide (j ∈ indices) := by
  have hplace : ∀ i ∈ indices, 1 ≤ i ∧ i ≤ 8 * (List.replicate (bitmapSize indices) (0 : Byte)).length := fun i hi =>
    ⟨by have := h i hi; omega, by rw [List.length_replicate]; exact index_le_bitmapSize h hi⟩
  rw [bitmapBit_foldl_setBitmapBit hplace hj, bitmapBit_replicate_zero, Bool.or_false]

/-- Bit 1 of a built bitmap says that it is sixteen bytes. -/
theorem bitmapBit_bmpBuild_one : bitmapBit (bmpBuild indices) 1 = decide (∃ i ∈ indices, 64 < i) := by
  have hone : ¬1 ∈ indices := fun hi => by have := h 1 hi; omega
  unfold bmpBuild
  by_cases hbig : ∃ i ∈ indices, 64 < i
  · have hsize := bitmapSize_of_exists hbig
    rw [if_pos hsize, bitmapBit_set le_rfl (by rw [foldl_setBitmapBit_length]; simp [hsize]) le_rfl]
    simp [hbig]
  · have hsize : ¬bitmapSize indices = 16 := by rw [bitmapSize_eq, if_neg hbig]; decide
    rw [if_neg hsize, bitmapBit_foldl_zero h le_rfl]
    simp [hone, hbig]

/-- Every other bit of a built bitmap says whether its index is in the set. -/
theorem bitmapBit_bmpBuild {j : Nat} (hj : 2 ≤ j) : bitmapBit (bmpBuild indices) j = decide (j ∈ indices) := by
  have hj1 : 1 ≤ j := by omega
  unfold bmpBuild
  split
  next hsize =>
    rw [bitmapBit_set le_rfl (by rw [foldl_setBitmapBit_length]; simp [hsize]) hj1, bitmapBit_foldl_zero h hj1]
    have hne : ¬j = 1 := by omega
    simp [hne]
  next => exact bitmapBit_foldl_zero h hj1

end

/-! ## Parsing (R173) -/

/-- The size in bytes that the first bit of a bitmap announces (R173). -/
def announcedSize (bs : Bytes) : Nat := if bitmapBit bs 1 then 16 else 8

theorem announcedSize_bounds (bs : Bytes) : 8 ≤ announcedSize bs ∧ announcedSize bs ≤ 16 := by
  unfold announcedSize
  split <;> omega

theorem announcedSize_congr {a b : Bytes} (h : bitmapBit a 1 = bitmapBit b 1) : announcedSize a = announcedSize b := by
  rw [announcedSize, h, announcedSize]

/-- Too few bytes for the announced size, in the words of R174. -/
theorem length_lt_announcedSize (bs : Bytes) :
    bs.length < announcedSize bs ↔ bs.length < 8 ∨ (bitmapBit bs 1 = true ∧ bs.length < 16) := by
  unfold announcedSize
  cases bitmapBit bs 1 with
  | false => simp
  | true =>
    simp only [if_true, true_and]
    omega

/-- The announced bytes announce their own size. -/
theorem length_take_announcedSize {bs : Bytes} (h : announcedSize bs ≤ bs.length) :
    (bs.take (announcedSize bs)).length = announcedSize (bs.take (announcedSize bs)) := by
  have ⟨hmin, _⟩ := announcedSize_bounds bs
  have hfirst : bitmapBit (bs.take (announcedSize bs)) 1 = bitmapBit bs 1 := bitmapBit_take bs le_rfl (by omega)
  rw [List.length_take_of_le h, announcedSize_congr hfirst]

theorem bmpParse_of_short {bs : Bytes} (h : bs.length < announcedSize bs) : bmpParse bs = .error (truncated 0) := by
  unfold bmpParse
  split
  · rfl
  · exact if_pos h

theorem bmpParse_of_le {bs : Bytes} (h : announcedSize bs ≤ bs.length) :
    bmpParse bs = .ok (bitmapBit bs 1, indicated (bs.take (announcedSize bs)), announcedSize bs) := by
  have ⟨hmin, _⟩ := announcedSize_bounds bs
  have hlen : (bs.take (announcedSize bs)).length = announcedSize bs := List.length_take_of_le h
  rw [indicated, hlen, bmpParse, if_neg (by omega)]
  exact if_neg (by unfold announcedSize at h; omega)

/-- A bitmap that parses is its announced bytes; nothing after them counts. -/
theorem bmpParse_ok {bs : Bytes} {r : Bool × List Nat × Nat} (h : bmpParse bs = .ok r) :
    announcedSize bs ≤ bs.length ∧
      r = (bitmapBit bs 1, indicated (bs.take (announcedSize bs)), announcedSize bs) := by
  by_cases hlen : announcedSize bs ≤ bs.length
  · rw [bmpParse_of_le hlen] at h
    exact ⟨hlen, (Except.ok.inj h).symm⟩
  · rw [bmpParse_of_short (by omega)] at h
    cases h

theorem mem_indicated {bm : Bytes} {i : Nat} :
    i ∈ indicated bm ↔ 2 ≤ i ∧ i ≤ 8 * bm.length ∧ bitmapBit bm i = true := by
  rw [indicated, List.mem_filter, List.mem_range'_1, ← and_assoc]
  exact and_congr_left fun _ => by omega

/-- Within a bitmap, its indices from 2 on are its set bits. -/
theorem decide_mem_indicated {bm : Bytes} {i : Nat} (htwo : 2 ≤ i) (hin : i ≤ 8 * bm.length) :
    decide (i ∈ indicated bm) = bitmapBit bm i := by
  simp [mem_indicated, htwo, hin]

/-- The indices read from a bitmap of at most sixteen bytes are field indices. -/
theorem indicated_bounds {bm : Bytes} (hlen : bm.length ≤ 16) : ∀ i ∈ indicated bm, 2 ≤ i ∧ i ≤ 128 := fun i hi => by
  obtain ⟨hmin, hmax, -⟩ := mem_indicated.mp hi
  omega

theorem fieldIndices_filter_le {n : Nat} (h : n = 8 ∨ n = 16) :
    fieldIndices.filter (· ≤ 8 * n) = List.range' 2 (8 * n - 1) := by
  rcases h with rfl | rfl <;> decide

/-! ## The round trip (R175) -/

section

variable {indices : List Nat} (h : ∀ i ∈ indices, 2 ≤ i ∧ i ≤ 128)
include h

/-- The indices of a built bitmap are its set in ascending order. -/
theorem indicated_bmpBuild : indicated (bmpBuild indices) = fieldIndices.filter fun i => indices.contains i := by
  rw [indicated, bmpBuild_length, ← fieldIndices_filter_le (bitmapSize_eq_or indices), List.filter_filter]
  refine List.filter_congr fun i hi => ?_
  have htwo : 2 ≤ i := by
    rw [fieldIndices, List.mem_range'_1] at hi
    exact hi.1
  rw [bitmapBit_bmpBuild h htwo, List.contains_eq_mem, Bool.and_eq_left_iff_imp]
  exact fun hmem => decide_eq_true (index_le_bitmapSize h (of_decide_eq_true hmem))

/-- Parsing a built bitmap, whatever follows it. -/
theorem bmpParse_bmpBuild_append (rest : Bytes) :
    bmpParse (bmpBuild indices ++ rest) =
      .ok (indices.any (64 < ·), fieldIndices.filter (fun i => indices.contains i), (bmpBuild indices).length) := by
  have hlen := bitmapSize_eq_or indices
  have hfirst : bitmapBit (bmpBuild indices ++ rest) 1 = indices.any (64 < ·) := by
    rw [bitmapBit_append _ _ le_rfl (by rw [bmpBuild_length]; omega), bitmapBit_bmpBuild_one h]
    exact List.decide_exists_mem
  have hsize : announcedSize (bmpBuild indices ++ rest) = (bmpBuild indices).length := by
    rw [announcedSize, hfirst, bmpBuild_length, bitmapSize]
  rw [bmpParse_of_le (by rw [hsize, List.length_append]; omega), hfirst, hsize, List.take_left, indicated_bmpBuild h]

end

/-- Indices above 64 come from the second eight bytes, which bit 1 announces. -/
theorem bitmapBit_one_of_indicated {bm : Bytes} (hlen : bm.length = announcedSize bm) (h : ∃ i ∈ indicated bm, 64 < i) :
    bitmapBit bm 1 = true := by
  obtain ⟨i, hi, h64⟩ := h
  obtain ⟨-, hmax, -⟩ := mem_indicated.mp hi
  by_contra hnot
  rw [announcedSize, if_neg hnot] at hlen
  omega

/-- Rebuilding from the indices of a bitmap gives its bytes back, when bit 1 is set only for an index above 64. -/
theorem bmpBuild_indicated {bm : Bytes} (hlen : bm.length = announcedSize bm)
    (h : bitmapBit bm 1 = true → ∃ i ∈ indicated bm, 64 < i) : bmpBuild (indicated bm) = bm := by
  have hbounds := indicated_bounds (hlen.trans_le (announcedSize_bounds bm).2)
  have hone : (∃ i ∈ indicated bm, 64 < i) ↔ bitmapBit bm 1 = true := ⟨bitmapBit_one_of_indicated hlen, h⟩
  have hsize : (bmpBuild (indicated bm)).length = bm.length := by
    rw [bmpBuild_length, bitmapSize_eq, hlen, announcedSize]
    simp only [hone]
  refine bitmap_ext hsize fun i hi hin => ?_
  rcases Nat.eq_or_lt_of_le hi with rfl | htwo
  · rw [bitmapBit_bmpBuild_one hbounds]
    simp [hone]
  · rw [bitmapBit_bmpBuild hbounds htwo, decide_mem_indicated htwo (hsize ▸ hin)]

/-- Settles O34: both ways, the bitmaps have the same size and bits. -/
theorem bitmapRoundTrip : Obligations.BitmapRoundTrip := by
  refine ⟨fun indices rest h => bmpParse_bmpBuild_append h rest, fun bs sec indices n hparse => ?_⟩
  obtain ⟨hle, hr⟩ := bmpParse_ok hparse
  obtain ⟨rfl, rfl, rfl⟩ : sec = _ ∧ indices = _ ∧ n = _ := by simpa using hr
  have ⟨hmin, hmax⟩ := announcedSize_bounds bs
  have hlen : (bs.take (announcedSize bs)).length = announcedSize bs := List.length_take_of_le hle
  refine ⟨fun hsec => ?_, fun _ hsmall => ⟨?_, ?_, fun i htwo h64 => ?_⟩⟩
  · refine bmpBuild_indicated (length_take_announcedSize hle) fun hone => hsec.resolve_left ?_
    rw [bitmapBit_take bs le_rfl (by omega)] at hone
    simp [hone]
  · rw [bmpBuild_length, bitmapSize_of_forall hsmall]
  · rw [bitmapBit_bmpBuild_one (indicated_bounds (hlen.trans_le hmax))]
    simpa using hsmall
  · rw [bitmapBit_bmpBuild (indicated_bounds (hlen.trans_le hmax)) htwo, decide_mem_indicated htwo (by omega),
      bitmapBit_take bs (by omega) (by omega)]

/-! ## BMP_BUILD (R172) -/

/-- A command that emits writes no message register and no PRES. -/
theorem keepsMessage_exec_of_emits {i : Instr} {s t : State} (hemits : emits i = true) (h : exec i s = .next t) :
    KeepsMessage s t := by
  rcases exec_cases h with ⟨u, hu, rfl⟩ | ⟨e, -, rfl⟩
  · cases hu with
    | output v hv hi => exact ⟨rfl, rfl⟩
    | _ => cases hemits
  · rw [commandInvalidate_of_emits hemits, invalidated_id]
    exact ⟨rfl, rfl⟩

theorem mem_presIndices {p : BitVec 128} {i : Nat} : i ∈ presIndices p ↔ 2 ≤ i ∧ i ≤ 128 ∧ presBit p i = true := by
  rw [presIndices, List.mem_filter, fieldIndices, List.mem_range'_1, ← and_assoc]
  exact and_congr_left fun _ => by omega

/-- Settles O32: the output is the bitmap built from the indices of PRES. -/
theorem bmpBuildWritesPresence : Obligations.BmpBuildWritesPresence := by
  intro s hc
  have hbounds : ∀ i ∈ presIndices s.pres, 2 ≤ i ∧ i ≤ 128 := fun i hi =>
    have ⟨hmin, hmax, _⟩ := mem_presIndices.mp hi
    ⟨hmin, hmax⟩
  have hcap := (configWf_bufCap hc).2
  have hsize := bitmapSize_eq_or (presIndices s.pres)
  obtain ⟨t, ht, hsucc, hout, holen, -, -⟩ :=
    exec_of_emit (i := .bmpBuild) (v := bmpBuild (presIndices s.pres)) hc (by rw [bmpBuild_length]; omega) rfl
  rw [bmpBuild_length] at holen
  refine ⟨t, ht, hsucc, keepsMessage_exec_of_emits rfl ht, ?_, fun hsmall => ?_, ?_, fun i htwo hin => ?_⟩
  · rintro ⟨i, h64, hmax, hbit⟩
    rw [holen, bitmapSize_of_exists ⟨i, mem_presIndices.mpr ⟨by omega, hmax, hbit⟩, h64⟩]
  · refine holen.trans (bitmapSize_of_forall fun i hi => ?_)
    obtain ⟨-, hmax, hbit⟩ := mem_presIndices.mp hi
    by_contra h64
    rw [hsmall i (by omega) hmax] at hbit
    cases hbit
  · rw [hout, holen, bitmapBit_bmpBuild_one hbounds, bitmapSize_eq, decide_eq_true_iff]
    split <;> simp [*]
  · have h128 : i ≤ 128 := by omega
    rw [hout, bitmapBit_bmpBuild hbounds htwo]
    simp [mem_presIndices, htwo, h128]

/-! ## BMP_PARSE (R174) -/

theorem presBit_presMask {i j : Nat} (hi : 1 ≤ i ∧ i ≤ 128) (hj : 1 ≤ j ∧ j ≤ 128) :
    presBit (presMask i) j = decide (j = i) := by
  unfold presBit presMask
  rw [BitVec.getLsbD_shiftLeft, BitVec.getLsbD_one, Bool.eq_iff_iff]
  simp only [Bool.and_eq_true, Bool.not_eq_true', decide_eq_true_eq, decide_eq_false_iff_not]
  omega

theorem presBit_foldl_presMask {indices : List Nat} (h : ∀ i ∈ indices, 1 ≤ i ∧ i ≤ 128) (p : BitVec 128) {j : Nat}
    (hj : 1 ≤ j ∧ j ≤ 128) :
    presBit (indices.foldl (fun p i => p ||| presMask i) p) j = (presBit p j || decide (j ∈ indices)) := by
  induction indices generalizing p with
  | nil => simp
  | cons i indices ih =>
    obtain ⟨hi, hrest⟩ := List.forall_mem_cons.mp h
    have hor : presBit (p ||| presMask i) j = (presBit p j || decide (j = i)) := by
      rw [← presBit_presMask hi hj]
      exact BitVec.getLsbD_or
    rw [List.foldl_cons, ih hrest, hor]
    simp [Bool.or_assoc]

/-- PRES written from a list of indices holds exactly those (R174). -/
theorem presBit_presOf {indices : List Nat} (h : ∀ i ∈ indices, 1 ≤ i ∧ i ≤ 128) {j : Nat} (hj : 1 ≤ j ∧ j ≤ 128) :
    presBit (presOf indices) j = decide (j ∈ indices) := by
  have hzero : presBit 0 j = false := BitVec.getLsbD_zero
  rw [presOf, presBit_foldl_presMask h 0 hj, hzero, Bool.false_or]

/-- BMP_PARSE puts what `bmp_parse` gives of its input into SEC, PRES and CONSUMED. -/
theorem commandBody_bmpParse (s : State) :
    commandBody .bmpParse (clearResults s) = bmpParse (input s) >>= fun r =>
      .ok { clearResults s with
        msg := { s.msg with sec := r.1 }, pres := presOf r.2.1, consumed := BitVec.ofNat 32 r.2.2 } := rfl

/-- Settles O33, from the two outcomes of `bmp_parse`. -/
theorem bmpParseReadsPresence : Obligations.BmpParseReadsPresence := by
  intro s
  have hbody := commandBody_bmpParse s
  refine ⟨fun n hn hle => ?_, fun hshort => ?_⟩
  · obtain rfl : n = announcedSize (input s) := hn
    rw [← input_length s] at hle
    have ⟨_, hmax⟩ := announcedSize_bounds (input s)
    have hlen : ((input s).take (announcedSize (input s))).length = announcedSize (input s) := List.length_take_of_le hle
    have hbounds := indicated_bounds (hlen.trans_le hmax)
    have hpres {i : Nat} := presBit_presOf (fun i hi => ⟨one_le_two.trans (hbounds i hi).1, (hbounds i hi).2⟩) (j := i)
    rw [bmpParse_of_le hle, ok_bind] at hbody
    rw [exec_eq_runCommand, runCommand_ok hbody]
    refine ⟨_, rfl, ⟨rfl, rfl, rfl, ⟨rfl, rfl, rfl, rfl, rfl⟩⟩, rfl, ?_, ?_, fun _ _ => rfl, fun i htwo h128 => ?_⟩
    · exact Nat.mod_eq_of_lt (hmax.trans_lt (by decide))
    · exact (hpres (by decide)).trans (decide_eq_false fun hi => absurd (hbounds 1 hi).1 (by decide))
    · refine (hpres ⟨by omega, h128⟩).trans ?_
      by_cases hin : i ≤ 8 * announcedSize (input s)
      · rw [decide_mem_indicated htwo (by omega), bitmapBit_take _ (by omega) hin, decide_eq_true hin, Bool.true_and]
      · simp [mem_indicated, hlen, hin]
  · rw [← input_length s] at hshort
    rw [bmpParse_of_short ((length_lt_announcedSize _).mpr hshort), error_bind] at hbody
    obtain ⟨t, ht, hfail, rfl⟩ := exec_of_error hbody (by decide) (by decide) (by decide)
    exact ⟨_, ht, hfail, rfl, rfl⟩

end Sys2Proof.Machine
end

section
/-! PROOFS. Reading back what was encoded (spec/42_field_codec.md rule R152, spec/44_message.md rule R199): a scalar's body, a
field behind its length header, definitions nested to any depth, then the fixed strings, the payloads and the total length of a
frame, and the obligation O41. -/

namespace Sys2Proof.Machine

/-! ## Scalar bodies (R141 to R144, R149) -/

theorem hexenc_eq_map (bs : Bytes) : hexenc bs = (nibblesOf bs).map hexU := by
  induction bs with
  | nil => rfl
  | cons b bs ih => simp [hexenc, nibblesOf, ih]

/-- Upper-case hex text is the hex text of the bytes it spells. -/
theorem hexenc_hexdec {v : Bytes} (heven : v.length % 2 = 0) (hupper : v.all isHexUpper = true) : hexenc (hexdec v) = v := by
  have hdigit : ∀ x ∈ v, isHexUpper x = true := List.all_eq_true.mp hupper
  have hhex : v.all isHex = true := List.all_eq_true.mpr fun x hx => isHex_of_upper (hdigit x hx)
  rw [hexenc_eq_map, nibblesOf_hexdec heven hhex, List.map_map]
  exact (List.map_congr_left fun x hx => hexU_hval (hdigit x hx)).trans (List.map_id v)

/-- The value's logical length meets the declared one: equal for `Fixed`, at most that for a variable kind (R152). -/
abbrev LengthDeclared (kind : FieldKind) (dl len : Nat) : Prop := if kind = .fixed then len = dl else len ≤ dl

theorem LengthDeclared.le {kind : FieldKind} {dl len : Nat} (h : LengthDeclared kind dl len) : len ≤ dl := by
  unfold LengthDeclared at h
  split at h
  · exact h.le
  · exact h

/-- A scalar value encodes to a body of the size its logical length asks for, which decodes to the value. -/
def ScalarReadsBack (c : Config) (i : Nat) (kind : FieldKind) (enc : ByteEncoding) (dl : Nat) (v : Bytes) : Prop :=
  ∃ body, encodeScalar c i kind enc dl v = .ok (scalarLength enc v, body) ∧
    body.length = bodySize (scalarLength enc v) enc ∧ decodeBody c i enc (scalarLength enc v) body = .ok v

section

variable {c : Config} {kind : FieldKind} {dl : Nat} {v : Bytes}

theorem scalarReadsBack_ascii (i : Nat) (hlen : LengthDeclared kind dl v.length) : ScalarReadsBack c i kind .ascii dl v := by
  refine ⟨v, ?_, rfl, rfl⟩
  rw [encodeScalar, encodeAscii, checkByteCount_ok i hlen]
  rfl

theorem scalarReadsBack_binary (i : Nat) (heven : v.length % 2 = 0) (hupper : v.all isHexUpper = true)
    (hlen : LengthDeclared kind dl (v.length / 2)) : ScalarReadsBack c i kind .binary dl v := by
  have hhex : v.all isHex = true :=
    List.all_eq_true.mpr fun x hx => isHex_of_upper (List.all_eq_true.mp hupper x hx)
  refine ⟨hexdec v, ?_, hexdec_length v, congrArg Except.ok (hexenc_hexdec heven hupper)⟩
  rw [encodeScalar, encodeBinary_of_hexText i kind dl ⟨heven, (all_isHex_iff v).mp hhex⟩, checkByteCount_ok i hlen]
  rfl

/-- A value of a declared length is neither carved nor padded. -/
theorem fitNumeric_of_declared (enc : ByteEncoding) (i : Nat) (hlen : LengthDeclared kind dl v.length) :
    fitNumeric enc kind dl i v = .ok v := by
  have hle := hlen.le
  rw [fitNumeric_eq, if_neg (by omega), if_neg (by omega)]
  split
  next hkind =>
    have heq : v.length = dl := (if_pos hkind).mp hlen
    simp [heq]
  next => rfl

theorem encodeNumeric_of_declared (enc : ByteEncoding) (pack : Bytes → Bytes) (i : Nat) (hd : allDigits v = true)
    (hlen : LengthDeclared kind dl v.length) : encodeNumeric enc pack i kind dl v = .ok (v.length, pack v) := by
  rw [encodeNumeric, fitNumeric_of_declared enc i hlen, ok_bind, if_pos hd]

theorem scalarReadsBack_bcd (i : Nat) (hd : allDigits v = true) (hlen : LengthDeclared kind dl v.length) :
    ScalarReadsBack c i kind .bcd dl v :=
  ⟨packLbcd c.lbcdPad v, encodeNumeric_of_declared .bcd _ i hd hlen, packLbcd_length _ v, unpackL_packLbcd _ hd i⟩

theorem scalarReadsBack_rbcd (i : Nat) (hd : allDigits v = true) (hlen : LengthDeclared kind dl v.length) :
    ScalarReadsBack c i kind .rbcd dl v :=
  ⟨packRbcd v, encodeNumeric_of_declared .rbcd _ i hd hlen,
    (congrArg List.length (packRbcd_eq_packLbcd v)).trans (packLbcd_length .leading v), unpackR_packRbcd hd i⟩

/-- Text of the form its encoding wants reads back, whatever the encoding. -/
theorem scalarReadsBack (i : Nat) {enc : ByteEncoding} (hsuits : textSuits enc v = true)
    (hlen : LengthDeclared kind dl (scalarLength enc v)) : ScalarReadsBack c i kind enc dl v := by
  cases enc with
  | ascii => exact scalarReadsBack_ascii i hlen
  | binary =>
    obtain ⟨heven, hupper⟩ := Bool.and_eq_true_iff.mp hsuits
    exact scalarReadsBack_binary i (of_decide_eq_true heven) hupper hlen
  | bcd => exact scalarReadsBack_bcd i hsuits hlen
  | rbcd => exact scalarReadsBack_rbcd i hsuits hlen

end

/-! ## A body behind its length header (R140, R148) -/

/-- A length that survives its kind's header is read back from it, under either `VAR2_BYTE0`. -/
theorem decLen_headerBytes_of_survives {c : Config} {kind : FieldKind} {len : Nat} (i : Nat) (hkind : kind ≠ .fixed)
    (hlen : len ≤ lenMax kind) (hsurvives : lengthSurvives c kind len = true) :
    decLen kind (headerBytes c.var2Byte0 kind len) i = .ok len := by
  by_cases hverbatim : kind = .var2 ∧ c.var2Byte0 = .sourceVerbatim
  · obtain ⟨rfl, hmode⟩ := hverbatim
    have hdigits : len % 100 / 10 = 0 ∧ len / 100 ||| len % 10 = len / 100 := by
      simpa [lengthSurvives, hmode, survivesVar2] using hsurvives
    simp only [lenMax] at hlen
    rw [hmode, decLen_headerBytes_sourceVerbatim i hlen, if_neg (by omega), (verbatimRead_eq_iff len).mpr hdigits]
  · refine decLen_headerBytes i hkind hlen fun hvar2 => ?_
    cases hmode : c.var2Byte0 with
    | composed => rfl
    | sourceVerbatim => exact absurd ⟨hvar2, hmode⟩ hverbatim

/-- The length and the body of a field that its header announces rightly: what R152 and R31 give for a scalar value and
for a composite one alike. -/
structure FieldOnWire (c : Config) (kind : FieldKind) (enc : ByteEncoding) (dl len : Nat) (body : Bytes) : Prop where
  declared : LengthDeclared kind dl len
  carried  : dl ≤ lenMax kind
  survives : lengthSurvives c kind len = true
  size     : body.length = bodySize len enc

namespace FieldOnWire

variable {c : Config} {kind : FieldKind} {enc : ByteEncoding} {dl len : Nat} {body : Bytes}

theorem withHeader_eq (h : FieldOnWire c kind enc dl len body) (i : Nat) :
    withHeader c i kind len body = .ok (wireHeader c kind len ++ body) :=
  withHeader_ok (h.declared.le.trans h.carried)

theorem fieldLength_eq (h : FieldOnWire c kind enc dl len body) (i : Nat) (rest : Bytes) :
    fieldLength i kind dl (wireHeader c kind len ++ body ++ rest) = .ok len := by
  unfold fieldLength
  split
  next hkind => rw [(if_pos hkind).mp h.declared]
  next hkind =>
    rw [List.append_assoc, decLen_append _ _ (wireHeader_length c kind len), wireHeader, if_neg hkind]
    exact decLen_headerBytes_of_survives i hkind (h.declared.le.trans h.carried) h.survives

theorem fieldBody_eq (h : FieldOnWire c kind enc dl len body) (i : Nat) (rest : Bytes) :
    fieldBody i kind enc len (wireHeader c kind len ++ body ++ rest) =
      .ok (body, (wireHeader c kind len ++ body).length) := by
  have hbody : ((wireHeader c kind len ++ body ++ rest).drop (hdrSize kind)).take (bodySize len enc) = body := by
    rw [List.append_assoc, List.drop_left' (wireHeader_length c kind len), List.take_left' h.size]
  have hsize : (wireHeader c kind len ++ body).length = hdrSize kind + bodySize len enc := by
    rw [List.length_append, wireHeader_length, h.size]
  rw [fieldBody, if_neg (by rw [List.length_append, hsize]; omega), hbody, hsize]

/-- A `Fixed` field has the size its definition gives it (R31 (e)). -/
theorem length_of_fixed (h : FieldOnWire c kind enc dl len body) (hkind : kind = .fixed) :
    (wireHeader c kind len ++ body).length = bodySize dl enc := by
  rw [List.length_append, wireHeader_length, h.size, (if_pos hkind).mp h.declared, hkind]
  exact Nat.zero_add _

end FieldOnWire

/-! ## Fields nested to any depth (R152) -/

/-- The value encodes, and from its bytes, whatever follows them, the decoder gives it back and consumes just them; a
`Fixed` field has the size of its definition. -/
def FieldReadsBack (c : Config) (i : Nat) (d : FieldDef) (v : FieldValue) : Prop :=
  ∃ bs, encodeField c i d v = .ok bs ∧ (∀ rest, decodeField c i d (bs ++ rest) = .ok (v, bs.length)) ∧
    (defKind d = .fixed → defSize? d = some bs.length)

/-- The same for the sub-fields of a composite, from exactly their bytes. -/
def SubsReadBack (c : Config) (i : Nat) (subs : SubDefs) (vs : FieldValues) : Prop :=
  valueCount vs = subCount subs ∧
    ∃ body, encodeSubs c i subs vs = .ok body ∧ decodeSubs c i subs body = .ok vs ∧ subsSize? subs = some body.length

theorem supportedEncoding_of_some (i : Nat) {code : BitVec 8} {enc : ByteEncoding} (h : encodingOf? code = some enc) :
    supportedEncoding i code = .ok enc := by
  rw [supportedEncoding, h]

theorem withinValCap_of_le {c : Config} (i : Nat) {s : Bytes} (h : s.length ≤ c.valCap) : withinValCap c i s = .ok s :=
  if_neg (Nat.not_lt.mpr h)

/-- What R152 asks of a scalar value. -/
theorem roundTrips_scalar {c : Config} {kind : FieldKind} {code : BitVec 8} {dl : Nat} {s : Bytes}
    (h : roundTrips c (.scalar kind code dl) (.scalar s) = true) :
    ∃ enc, encodingOf? code = some enc ∧ textSuits enc s = true ∧ s.length ≤ c.valCap ∧
      lengthSurvives c kind (scalarLength enc s) = true ∧ LengthDeclared kind dl (scalarLength enc s) := by
  cases henc : encodingOf? code with
  | none => simp [roundTrips, henc] at h
  | some enc =>
    refine ⟨enc, rfl, ?_⟩
    simpa [roundTrips, henc, and_assoc] using h

theorem fieldReadsBack_scalar {c : Config} (i : Nat) {kind : FieldKind} {code : BitVec 8} {dl : Nat} {s : Bytes}
    (hdl : dl ≤ lenMax kind) (hv : roundTrips c (.scalar kind code dl) (.scalar s) = true) :
    FieldReadsBack c i (.scalar kind code dl) (.scalar s) := by
  obtain ⟨enc, henc, hsuits, hcap, hsurvives, hlen⟩ := roundTrips_scalar hv
  obtain ⟨body, hencode, hsize, hdecode⟩ := scalarReadsBack (c := c) i hsuits hlen
  have hwire : FieldOnWire c kind enc dl (scalarLength enc s) body := ⟨hlen, hdl, hsurvives, hsize⟩
  refine ⟨wireHeader c kind (scalarLength enc s) ++ body, ?_, fun rest => ?_, fun hkind => ?_⟩
  · rw [encodeField_scalar henc, hencode]
    exact hwire.withHeader_eq i
  · simp only [decodeField, supportedEncoding_of_some i henc, hwire.fieldLength_eq, hwire.fieldBody_eq, hdecode,
      withinValCap_of_le i hcap, ok_bind, pure_ok]
  · rw [hwire.length_of_fixed hkind]
    exact congrArg (Option.map (bodySize dl)) henc

/-- The encoding of a composite counts in bytes (R31 (d)). -/
theorem encodingOf?_of_le_one {code : BitVec 8} (h : code.toNat ≤ 1) :
    ∃ enc, encodingOf? code = some enc ∧ ∀ n, bodySize n enc = n := by
  have hcode : code.toNat = 0 ∨ code.toNat = 1 := by omega
  rcases hcode with hcode | hcode
  · exact ⟨.ascii, by simp [encodingOf?, hcode], fun _ => rfl⟩
  · exact ⟨.binary, by simp [encodingOf?, hcode], fun _ => rfl⟩

/-- What R31 gives for a composite definition whose sub-fields have the size `n`. -/
theorem defWf_composite {depth : Nat} {kind : FieldKind} {code : BitVec 8} {dl n : Nat} {subs : SubDefs}
    (h : defWf (depth + 1) (.composite kind code dl subs) = true) (hn : subsSize? subs = some n) :
    dl ≤ lenMax kind ∧ code.toNat ≤ 1 ∧ LengthDeclared kind dl n := by
  simp only [defWf, compositeFits, hn, Bool.and_eq_true, decide_eq_true_eq] at h
  obtain ⟨⟨hdl, hcode, hfits⟩, -⟩ := h
  exact ⟨hdl, hcode, by simpa using hfits⟩

/-- A composite reads back when its sub-fields do. -/
theorem fieldReadsBack_composite {c : Config} (i : Nat) {depth : Nat} {kind : FieldKind} {code : BitVec 8} {dl : Nat}
    {subs : SubDefs} {vs : FieldValues} (hd : defWf (depth + 1) (.composite kind code dl subs) = true)
    (hv : roundTrips c (.composite kind code dl subs) (.composite vs) = true) (hsubs : SubsReadBack c i subs vs) :
    FieldReadsBack c i (.composite kind code dl subs) (.composite vs) := by
  obtain ⟨hcount, body, hencode, hdecode, hsize⟩ := hsubs
  obtain ⟨hdl, hcode, hlen⟩ := defWf_composite hd hsize
  obtain ⟨enc, henc, hbytes⟩ := encodingOf?_of_le_one hcode
  have hsurvives : lengthSurvives c kind body.length = true := by
    simp only [roundTrips, hsize, Bool.and_eq_true] at hv
    exact hv.2
  have hwire : FieldOnWire c kind enc dl body.length body := ⟨hlen, hdl, hsurvives, (hbytes _).symm⟩
  refine ⟨wireHeader c kind body.length ++ body, ?_, fun rest => ?_, fun hkind => ?_⟩
  · simp only [encodeField, supportedEncoding_of_some i henc, hcount, hencode, hwire.withHeader_eq, ok_bind, ne_eq,
      not_true_eq_false, if_false]
  · simp only [decodeField, supportedEncoding_of_some i henc, hwire.fieldLength_eq, hwire.fieldBody_eq, hdecode, ok_bind,
      pure_ok]
  · rw [hwire.length_of_fixed hkind]
    exact congrArg (Option.map (bodySize dl)) henc

/-- One more sub-field, itself `Fixed`, in front of sub-fields that read back. -/
theorem subsReadBack_cons {c : Config} {i : Nat} {d : FieldDef} {ds : SubDefs} {v : FieldValue} {vs : FieldValues}
    (hkind : defKind d = .fixed) (hfirst : FieldReadsBack c i d v) (hrest : SubsReadBack c i ds vs) :
    SubsReadBack c i (.cons d ds) (.cons v vs) := by
  obtain ⟨bs, hencode, hdecode, hsize⟩ := hfirst
  obtain ⟨hcount, body, hencodes, hdecodes, hsizes⟩ := hrest
  refine ⟨congrArg (· + 1) hcount, bs ++ body, ?_, ?_, ?_⟩
  · simp only [encodeSubs, hencode, hencodes, ok_bind, pure_ok]
  · simp only [decodeSubs, hdecode, List.drop_left, hdecodes, ok_bind, pure_ok]
  · rw [subsSize?, hsize hkind, hsizes, List.length_append]

mutual

/-- R152 for every well-formed definition, by induction over its nesting. -/
theorem fieldReadsBack (c : Config) (i : Nat) : ∀ (depth : Nat) (d : FieldDef) (v : FieldValue),
    defWf depth d = true → roundTrips c d v = true → FieldReadsBack c i d v
  | depth, .scalar kind code dl, .scalar s, hd, hv => fieldReadsBack_scalar i (by simpa [defWf] using hd) hv
  | _, .scalar _ _ _, .composite _, _, hv => by simp [roundTrips] at hv
  | _, .composite _ _ _ _, .scalar _, _, hv => by simp [roundTrips] at hv
  | 0, .composite _ _ _ _, .composite _, hd, _ => by simp [defWf] at hd
  | depth + 1, .composite kind code dl subs, .composite vs, hd, hv => by
    have hwf : subsWf depth subs = true := by
      simp only [defWf, Bool.and_eq_true] at hd
      exact hd.2
    have hvs : roundTripsSubs c subs vs = true := by
      simp only [roundTrips, Bool.and_eq_true] at hv
      exact hv.1
    exact fieldReadsBack_composite i hd hv (subsReadBack c i depth subs vs hwf hvs)

theorem subsReadBack (c : Config) (i : Nat) : ∀ (depth : Nat) (subs : SubDefs) (vs : FieldValues),
    subsWf depth subs = true → roundTripsSubs c subs vs = true → SubsReadBack c i subs vs
  | _, .nil, .nil, _, _ => ⟨rfl, [], rfl, rfl, rfl⟩
  | _, .nil, .cons _ _, _, hv => by simp [roundTripsSubs] at hv
  | _, .cons _ _, .nil, _, hv => by simp [roundTripsSubs] at hv
  | depth, .cons d ds, .cons v vs, hd, hv => by
    simp only [subsWf, Bool.and_eq_true, decide_eq_true_eq] at hd
    simp only [roundTripsSubs, Bool.and_eq_true] at hv
    obtain ⟨⟨⟨hkind, -⟩, hfirst⟩, hrest⟩ := hd
    obtain ⟨hv, hvs⟩ := hv
    exact subsReadBack_cons hkind (fieldReadsBack c i depth d v hfirst hv) (subsReadBack c i depth ds vs hrest hvs)

end

/-! ## The fixed strings of a frame (R191) -/

theorem encFixedDigits_ok {s : Bytes} {width : Nat} {code : ErrCode} {r : Bytes}
    (h : encFixedDigits s width code = .ok r) : DigitString s width ∧ r = packPairs s := by
  unfold encFixedDigits at h
  split at h
  · cases h
  next hready => exact ⟨by simpa using hready, (Except.ok.inj h).symm⟩

/-- A packed string of even width unpacks whole under either pad side, whatever follows it. -/
theorem unpackL_packPairs_append (pad : LbcdPad) {s : Bytes} {width : Nat} (hs : DigitString s width)
    (heven : width % 2 = 0) (rest : Bytes) (field : Nat) :
    unpackL pad (packPairs s ++ rest) width field = .ok s := by
  obtain ⟨hlen, hdigits⟩ := hs
  have hceil : ceil2 width = s.length / 2 := by unfold ceil2; omega
  rw [unpackL, unpackNibbles_packPairs hdigits (by omega) hceil]
  cases pad with
  | trailing => exact congrArg Except.ok (List.take_of_length_le hlen.le)
  | leading => simp [lastN, hlen]

theorem decFixedDigits_packPairs_append {c : Config} {s : Bytes} {width : Nat} (hs : DigitString s width)
    (heven : width % 2 = 0) (hcap : s.length ≤ c.valCap) (rest : Bytes) :
    decFixedDigits c (packPairs s ++ rest) width = .ok s := by
  have henough : ¬(packPairs s ++ rest).length < width / 2 := by
    rw [List.length_append, packPairs_length, hs.1]
    omega
  rw [decFixedDigits, if_neg henough, unpackL_packPairs_append _ hs heven, ok_bind, withinValCap_of_le 0 hcap]

/-- R4 for the fixed strings. -/
theorem configWf_widths {c : Config} (h : configWf c = true) :
    c.tpduDigits % 2 = 0 ∧ c.headerDigits % 2 = 0 ∧ mtiDigits ≤ c.valCap := by
  simp only [configWf, evenWidth, Bool.and_eq_true, decide_eq_true_eq] at h
  unfold mtiDigits
  omega

/-- The protocol header reads back when `HEADER_EN` says whether it is there. -/
theorem decHeader_encHeader_append {c : Config} {hdr : Option Bytes} {bytes : Bytes} (hc : configWf c = true)
    (hen : c.headerEn = true ↔ hdr.isSome = true) (hcap : headerFits c hdr = true) (h : encHeader c hdr = .ok bytes)
    (rest : Bytes) : decHeader c (bytes ++ rest) = .ok hdr ∧ bytes.length = decHeaderSize c := by
  cases hdr with
  | none =>
    have hoff : ¬c.headerEn = true := by simp [hen]
    cases h
    exact ⟨if_neg hoff, (if_neg hoff).symm⟩
  | some s =>
    have hon : c.headerEn = true := hen.mpr rfl
    obtain ⟨hs, rfl⟩ := encFixedDigits_ok h
    obtain ⟨-, heven, -⟩ := configWf_widths hc
    have hdec := decFixedDigits_packPairs_append hs heven (of_decide_eq_true hcap) rest
    refine ⟨?_, ?_⟩
    · rw [decHeader, if_pos hon, hdec, ok_bind, pure_ok]
    · rw [packPairs_length, hs.1, decHeaderSize, if_pos hon]

/-! ## The payloads (R192 step 5, R194) -/

theorem slots_index_of_isSome {g : Slots} {i : Nat} (h : (g.get i).isSome = true) : 2 ≤ i ∧ i ≤ 128 := by
  unfold Slots.get at h
  split at h
  next hi => exact hi
  next => cases h

theorem mem_fieldIndices {i : Nat} : i ∈ fieldIndices ↔ 2 ≤ i ∧ i ≤ 128 := by
  rw [fieldIndices, List.mem_range'_1]
  omega

theorem mem_populated {g : Slots} {i : Nat} : i ∈ populated g ↔ (g.get i).isSome = true := by
  rw [populated, List.mem_filter, mem_fieldIndices]
  exact and_iff_right_of_imp slots_index_of_isSome

theorem populated_bounds (g : Slots) : ∀ i ∈ populated g, 2 ≤ i ∧ i ≤ 128 := fun _ hi =>
  slots_index_of_isSome (mem_populated.mp hi)

/-- The populated indices are already in the order of the bitmap. -/
theorem filter_contains_populated (g : Slots) : (fieldIndices.filter fun i => (populated g).contains i) = populated g := by
  refine List.filter_congr fun i _ => ?_
  rw [List.contains_eq_mem, Bool.eq_iff_iff, decide_eq_true_iff, mem_populated]

/-- The slots of the given indices copied from `src` into `g`, in the order given. -/
def copySlots (src : Slots) (indices : List Nat) (g : Slots) : Slots :=
  indices.foldl (fun g i => g.put i (src.get i)) g

theorem get_copySlots (src : Slots) {indices : List Nat} (h : ∀ i ∈ indices, 2 ≤ i ∧ i ≤ 128) (g : Slots) (j : Nat) :
    (copySlots src indices g).get j = if j ∈ indices then src.get j else g.get j := by
  induction indices generalizing g with
  | nil => rfl
  | cons i rest ih =>
    obtain ⟨hi, hrest⟩ := List.forall_mem_cons.mp h
    have hcopy : (copySlots src (i :: rest) g).get j = if j ∈ rest then src.get j else (g.put i (src.get i)).get j :=
      ih hrest _
    rw [hcopy]
    by_cases hj : j = i
    · subst hj
      simp [Slots.get_put_self g _ hi]
    · simp [Slots.get_put_of_ne g _ hj, hj]

/-- Copying the populated slots into an empty file copies every slot. -/
theorem get_copySlots_populated (src : Slots) (j : Nat) :
    (copySlots src (populated src) Message.empty.slots).get j = src.get j := by
  rw [get_copySlots src (populated_bounds src)]
  split
  next => rfl
  next hj =>
    rw [mem_populated, Option.not_isSome_iff_eq_none] at hj
    rw [hj, Slots.get_empty]

/-- Every slot whose index has an entry in the table holds a value that reads back. -/
def SlotsReadBack (c : Config) (g : Slots) : Prop :=
  ∀ i d v, g.get i = some v → lookupDef c.defs i = some d → FieldReadsBack c i d v

/-- The payload of the first of the slots to be sent, and the payloads of the others. -/
theorem encodePayloads_cons {c : Config} {g : Slots} {i : Nat} {rest : List Nat} {v : FieldValue} {payloads : Bytes}
    (hv : g.get i = some v) (h : encodePayloads c g (i :: rest) = .ok payloads) :
    ∃ d first others, lookupDef c.defs i = some d ∧ encodeField c i d v = .ok first ∧
      encodePayloads c g rest = .ok others ∧ payloads = first ++ others := by
  simp only [encodePayloads, hv] at h
  obtain ⟨d, hd, h⟩ := bind_ok.mp h
  obtain ⟨first, hfirst, h⟩ := bind_ok.mp h
  obtain ⟨others, hothers, h⟩ := bind_ok.mp h
  exact ⟨d, first, others, tableEntry_ok hd, hfirst, hothers, (Except.ok.inj h).symm⟩

/-- The walk over the indices of the payloads copies their slots and ends behind the last payload. -/
theorem decodePayloads_encodePayloads {c : Config} {src : Slots} (hsrc : SlotsReadBack c src) {indices : List Nat}
    (hfilled : ∀ i ∈ indices, (src.get i).isSome = true) {payloads : Bytes}
    (h : encodePayloads c src indices = .ok payloads) (before : Bytes) (g : Slots) :
    decodePayloads c (before ++ payloads) indices g before.length =
      .ok (copySlots src indices g, (before ++ payloads).length) := by
  induction indices generalizing payloads before g with
  | nil =>
    cases h
    simp [decodePayloads, copySlots]
  | cons i rest ih =>
    obtain ⟨hi, hrest⟩ := List.forall_mem_cons.mp hfilled
    obtain ⟨v, hv⟩ := Option.isSome_iff_exists.mp hi
    obtain ⟨d, first, others, hd, hfirst, hothers, rfl⟩ := encodePayloads_cons hv h
    obtain ⟨bs, hencode, hdecode, -⟩ := hsrc i d v hv hd
    obtain rfl : bs = first := Except.ok.inj (hencode.symm.trans hfirst)
    have htail := ih hrest hothers (before ++ bs) (g.put i (some v))
    rw [List.append_assoc, List.length_append] at htail
    have hcopy : copySlots src (i :: rest) g = copySlots src rest (g.put i (some v)) := by
      rw [copySlots, List.foldl_cons, hv, copySlots]
    simp only [decodePayloads, tableEntry_of_lookup hd, ok_bind, List.drop_left, hdecode, htail, hcopy]

/-! ## The frame (R192, R194) -/

theorem bigEndian16_length (n : Nat) : (bigEndian16 n).length = 2 := rfl

/-- The total length in front of a frame is stripped again, and the bytes it counts are all there. -/
theorem stripPrefix_withPrefix {c : Config} {out frame : Bytes} (h : withPrefix c out = .ok frame) :
    ∃ p, stripPrefix c frame = .ok (out, p) ∧ frame.length = p + out.length := by
  unfold withPrefix at h
  unfold stripPrefix
  by_cases hen : c.lenPfxEn = true
  · rw [if_pos hen] at h
    rw [if_pos hen]
    split at h
    · cases h
    next hfits =>
      cases h
      have hcount : (BitVec.ofNat 8 (out.length / 256)).toNat * 256 + (BitVec.ofNat 8 (out.length % 256)).toNat =
          out.length := by
        simp only [BitVec.toNat_ofNat]
        omega
      refine ⟨2, ?_, by rw [List.length_append, bigEndian16_length]⟩
      simp only [bigEndian16, List.cons_append, List.nil_append, hcount, lt_irrefl, if_false, List.take_length]
  · rw [if_neg hen] at h ⊢
    cases h
    exact ⟨0, rfl, (Nat.zero_add _).symm⟩

/-- The parts of the frame of a message that encodes, without its total length in front. -/
theorem msgEncode_ok {c : Config} {m : Message} {frame : Bytes} (h : msgEncode c m = .ok frame) :
    ∃ header payloads, DigitString m.tpdu c.tpduDigits ∧ encHeader c m.hdr = .ok header ∧
      DigitString m.mti mtiDigits ∧ encodePayloads c m.slots (populated m.slots) = .ok payloads ∧
      withPrefix c (packPairs m.tpdu ++ header ++ packPairs m.mti ++ bmpBuild (populated m.slots) ++ payloads) =
        .ok frame := by
  obtain ⟨tpdu, htpdu, h⟩ := bind_ok.mp h
  obtain ⟨header, hheader, h⟩ := bind_ok.mp h
  obtain ⟨mti, hmti, h⟩ := bind_ok.mp h
  obtain ⟨payloads, hpayloads, h⟩ := bind_ok.mp h
  obtain ⟨ht, rfl⟩ := encFixedDigits_ok htpdu
  obtain ⟨hm, rfl⟩ := encFixedDigits_ok hmti
  exact ⟨header, payloads, ht, hheader, hm, hpayloads, h⟩

/-- The message MSG_DEC makes of the frame of `m`: its strings, the slots it populates, and SEC from their indices. -/
def messageReadBack (m : Message) : Message where
  tpdu := m.tpdu
  hdr := m.hdr
  mti := m.mti
  sec := (populated m.slots).any (64 < ·)
  slots := copySlots m.slots (populated m.slots) Message.empty.slots

/-- R199 with the message that is read back written out. -/
theorem msgDecode_msgEncode {c : Config} {m : Message} {frame : Bytes} (hc : configWf c = true)
    (hen : c.headerEn = true ↔ m.hdr.isSome = true) (htpduCap : stringFits c m.tpdu = true)
    (hhdrCap : headerFits c m.hdr = true) (hslots : SlotsReadBack c m.slots) (h : msgEncode c m = .ok frame) :
    msgDecode c frame = .ok (messageReadBack m, frame.length) := by
  obtain ⟨header, payloads, htpdu, hheader, hmti, hpayloads, hframe⟩ := msgEncode_ok h
  obtain ⟨p, hstrip, hlen⟩ := stripPrefix_withPrefix hframe
  obtain ⟨heven, -, hmtiCap⟩ := configWf_widths hc
  have hreadTpdu := decFixedDigits_packPairs_append htpdu heven (of_decide_eq_true htpduCap)
  have hreadHeader := decHeader_encHeader_append hc hen hhdrCap hheader
  have hreadMti := decFixedDigits_packPairs_append hmti rfl (hmti.1.trans_le hmtiCap)
  have hreadBitmap := bmpParse_bmpBuild_append (populated_bounds m.slots) payloads
  have hreadPayloads := decodePayloads_encodePayloads hslots (fun _ => mem_populated.mp) hpayloads
    (packPairs m.tpdu ++ header ++ packPairs m.mti ++ bmpBuild (populated m.slots)) Message.empty.slots
  have htpduSize : c.tpduDigits / 2 = (packPairs m.tpdu).length := by rw [packPairs_length, htpdu.1]
  have hheaderSize : decHeaderSize c = header.length := ((hreadHeader []).2).symm
  have hmtiSize : mtiDigits / 2 = (packPairs m.mti).length := by rw [packPairs_length, hmti.1]
  rw [filter_contains_populated] at hreadBitmap
  -- The cursor stands behind each part in turn: both sides in one form, parts to the right and lengths as a sum.
  simp only [List.length_append] at hlen hreadPayloads
  simp only [List.append_assoc] at hstrip hreadPayloads
  simp only [msgDecode, hstrip, hreadTpdu, htpduSize, hheaderSize, hmtiSize, ← List.drop_drop, List.drop_left,
    (hreadHeader _).1, hreadMti, hreadBitmap, hreadPayloads, ok_bind, pure_ok, hlen, messageReadBack]

/-- Settles O41: the frame is read back part by part, and the copied slots are the slots of the message. -/
theorem messageRoundTrip : Obligations.MessageRoundTrip := by
  intro c m frame hc hen htpdu hhdr hslots h
  have hread : SlotsReadBack c m.slots := fun i d v hv hd => by
    obtain ⟨-, -, hwf, -⟩ := lookupDef_wf (configWf_defs hc) hd
    exact fieldReadsBack c i c.subDepth d v hwf (hslots i d v hv hd)
  exact ⟨messageReadBack m, msgDecode_msgEncode hc hen htpdu hhdr hread h, rfl, rfl, rfl,
    get_copySlots_populated m.slots, rfl⟩

end Sys2Proof.Machine
end

section
/-! PROOFS. The Retail MAC unit (spec/45_mac.md): the folded block by position of the input, the MAC text of that block,
and the obligation O42. -/

namespace Sys2Proof.Machine

/-! ## The folded input (R222 steps 2 and 3) -/

/-- The padding holds what a read past the end gives anyway. -/
theorem getD_macPad (data : Bytes) (p : Nat) : (macPad data).getD p 0 = data.getD p 0 := by
  rcases Nat.lt_or_ge p data.length with hin | hout
  · exact List.getD_append _ _ _ _ hin
  · rw [macPad, List.getD_append_right _ _ _ _ hout, List.getD_eq_getElem?_getD,
      List.getElem?_getD_replicate_default_eq, List.getD_eq_default _ _ hout]

/-- The padded input is a whole number of blocks. -/
theorem macPad_length_blocks (data : Bytes) :
    8 * ((macPad data).length / 8) = data.length + (8 - data.length % 8) % 8 := by
  rw [macPad, List.length_append, List.length_replicate]
  omega

/-- The positions that are `j` modulo 8 within `m` blocks: one in each block. -/
theorem range_filter_mod_eight (j : Fin 8) (m : Nat) :
    (List.range (8 * m)).filter (· % 8 = j.val) = (List.range m).map (8 * · + j.val) := by
  induction m with
  | zero => rfl
  | succ m ih =>
    have hblock : ((List.range 8).map (8 * m + ·)).filter (· % 8 = j.val) = [8 * m + j.val] := by
      have hone : ∀ j : Fin 8, (List.range 8).filter (· % 8 = j.val) = [j.val] := by decide
      simp only [List.filter_map, Function.comp_def, Nat.mul_add_mod, hone, List.map_cons, List.map_nil]
    rw [Nat.mul_succ, List.range_add, List.filter_append, ih, hblock, List.range_succ, List.map_append,
      List.map_singleton]

/-- Positions past the end of the data add nothing to the fold. -/
theorem foldl_xor_getD_of_length_le {data : Bytes} {ps : List Nat} (h : ∀ p ∈ ps, data.length ≤ p) (x : Byte) :
    ps.foldl (fun x p => x ^^^ data.getD p 0) x = x := by
  induction ps with
  | nil => rfl
  | cons p ps ih =>
    obtain ⟨hp, hps⟩ := List.forall_mem_cons.mp h
    rw [List.foldl_cons, List.getD_eq_default _ _ hp, show x ^^^ 0 = x from BitVec.xor_zero, ih hps]

/-- Byte `j` of the folded block is the exclusive or of the data bytes at the positions that are `j` modulo 8. -/
theorem macFold_macPad_getElem (data : Bytes) (j : Fin 8) :
    (macFold (macPad data))[j] =
      ((List.range data.length).filter (· % 8 = j.val)).foldl (fun x p => x ^^^ data.getD p 0) 0 := by
  have hpast : ∀ p ∈ ((List.range ((8 - data.length % 8) % 8)).map (data.length + ·)).filter (· % 8 = j.val),
      data.length ≤ p := fun p hp => by
    obtain ⟨k, -, rfl⟩ := List.mem_map.mp (List.mem_of_mem_filter hp)
    exact Nat.le_add_right _ _
  calc (macFold (macPad data))[j]
    _ = (List.range ((macPad data).length / 8)).foldl (fun x k => x ^^^ data.getD (8 * k + j.val) 0) 0 := by
      simp only [macFold, Fin.getElem_fin, Vector.getElem_ofFn, getD_macPad]
    _ = ((List.range (8 * ((macPad data).length / 8))).filter (· % 8 = j.val)).foldl
          (fun x p => x ^^^ data.getD p 0) 0 := by
      rw [range_filter_mod_eight, List.foldl_map]
    _ = ((List.range data.length).filter (· % 8 = j.val)).foldl (fun x p => x ^^^ data.getD p 0) 0 := by
      rw [macPad_length_blocks, List.range_add, List.filter_append, List.foldl_append,
        foldl_xor_getD_of_length_le hpast]

/-! ## The MAC text (R222 steps 1 and 4 to 6) -/

/-- The MAC text of a folded block: the first half of its hex text encrypted, that block combined with the second half
encrypted again, and the start of the hex text of the result. -/
def macText (cipher : Block → Block → Block) (key : Bytes) (acc : Block) : Bytes :=
  (hexenc (cipher (toBlock key) (xorBlock (cipher (toBlock key) (toBlock ((hexenc acc.toList).take 8)))
    (toBlock ((hexenc acc.toList).drop 8)))).toList).take 8

theorem hexenc_length (bs : Bytes) : (hexenc bs).length = 2 * bs.length := by
  rw [hexenc_eq_map, List.length_map, nibblesOf_length]

theorem macText_length (cipher : Block → Block → Block) (key : Bytes) (acc : Block) :
    (macText cipher key acc).length = 8 := by
  rw [macText, List.length_take, hexenc_length, Vector.length_toList]
  rfl

theorem macCompute_of_length_eq {key : Bytes} (h : key.length = 8) (data : Bytes) :
    macCompute key data = .ok (macText Config.E key (macFold (macPad data))) := if_neg (not_not.mpr h)

theorem macCompute_of_length_ne {key : Bytes} (h : key.length ≠ 8) (data : Bytes) :
    macCompute key data = .error { code := .invalidKeyLength } := if_pos h

/-! ## MAC (R223) -/

/-- MAC emits what `mac_compute` gives of its key and input, where the block has the unit. -/
theorem commandBody_mac (s : State) :
    commandBody .mac (clearResults s) =
      if s.cfg.hasMac then macCompute (keyBytes s) (input s) >>= fun mac => emit 0 mac (clearResults s)
      else .error { code := .illegalCommand, cause := .macAbsent } := rfl

theorem keyBytes_length_eq_eight {s : State} : (keyBytes s).length = 8 ↔ s.klen = 8 := by
  rw [keyBytes_length]
  exact BitVec.toNat_inj (y := 8)

/-- Settles O42: the output is the MAC text of the folded input, and each refusal is the error of its test. -/
theorem macComputesHexOfCipher : Obligations.MacComputesHexOfCipher := by
  intro s
  have hbody := commandBody_mac s
  refine ⟨fun hc hunit hkey => ?_, fun hnone => ?_, fun hunit hkey => ?_⟩
  · rw [if_pos hunit, macCompute_of_length_eq (keyBytes_length_eq_eight.mpr hkey), ok_bind] at hbody
    have hlen := macText_length Config.E (keyBytes s) (macFold (macPad (input s)))
    have hroom := (configWf_bufCap hc).2
    obtain ⟨t, ht, hsucc, hout, holen, -, -⟩ := exec_of_emit hc (by omega) hbody
    refine ⟨t, macFold (macPad (input s)), ht, hsucc, BitVec.eq_of_toNat_eq (holen.trans hlen), keepsInputs_exec ht,
      keepsMessage_exec_of_emits rfl ht, fun j => ?_, hout⟩
    rw [macFold_macPad_getElem, input_length]
  · rw [if_neg (Bool.eq_false_iff.mp hnone)] at hbody
    obtain ⟨t, ht, hfail, -⟩ := exec_of_error hbody (by decide) (by decide) (by decide)
    exact ⟨t, ht, hfail⟩
  · rw [if_pos hunit, macCompute_of_length_ne (mt keyBytes_length_eq_eight.mp hkey), error_bind] at hbody
    obtain ⟨t, ht, hfail, -⟩ := exec_of_error hbody (by decide) (by decide) (by decide)
    exact ⟨t, ht, hfail⟩

end Sys2Proof.Machine
end

section
/-! PROOFS. Precise errors (spec/60_exceptions.md rules R256 and R257): a failed command's state as an equation, why the command
issued again fails the same way, and the obligation O47. -/

namespace Sys2Proof.Machine

/-! ## How a command fails -/

theorem commandWrites_err {i : Instr} {s u : State} (h : CommandWrites s i u) : u.err = 0 := by cases h <;> rfl

/-- A command ends with ERR other than 0 only by an error of its pseudocode. -/
theorem exec_failed {i : Instr} {s t : State} (h : exec i s = .next t) (herr : t.err ≠ 0) :
    ∃ e, commandBody i (clearResults s) = .error e ∧
      t = raiseError e (invalidated (commandInvalidate i) e (clearResults s)) := by
  rcases exec_cases h with ⟨u, hu, rfl⟩ | hfailed
  · exact absurd (commandWrites_err hu) herr
  · exact hfailed

theorem errNumber_eq_thirteen_iff {code : ErrCode} : errNumber code = 13 ↔ code = .illegalCommand := by
  cases code <;> decide

/-! ## Repeating a failed command -/

/-- Writing one slot twice is writing it once. -/
@[simp] theorem Slots.put_put (g : Slots) (i : Nat) (x y : Option FieldValue) : (g.put i x).put i y = g.put i y := by
  by_cases hi : 2 ≤ i ∧ i ≤ 128 <;> simp [Slots.put, hi]

/-- Invalidating a destination a second time changes nothing. -/
theorem raiseError_invalidated_repeat (i : Instr) (e : CmdError) (s : State) :
    let t := raiseError e (invalidated (commandInvalidate i) e (clearResults s))
    raiseError e (invalidated (commandInvalidate i) e (clearResults t)) = t := by
  by_cases hcode : e.code = .illegalCommand
  · simp only [invalidated, if_pos hcode]
    rfl
  · simp only [invalidated, if_neg hcode]
    cases i with
    | fieldDec x => simp [commandInvalidate, setFieldSlot, raiseError, clearResults]
    | _ => rfl

/-- The error a computation raises, if it raises one. -/
def errorOf {α : Type} : Except CmdError α → Option CmdError
  | .ok _ => none
  | .error e => some e

theorem errorOf_eq_some {α : Type} {x : Except CmdError α} {e : CmdError} : errorOf x = some e ↔ x = .error e := by
  cases x <;> simp [errorOf]

/-- Two computations that start the same way raise the same error when their second parts do. -/
theorem errorOf_bind_congr {α β : Type} (x : Except CmdError α) {f g : α → Except CmdError β}
    (h : ∀ a, errorOf (f a) = errorOf (g a)) : errorOf (x >>= f) = errorOf (x >>= g) := by
  cases x with
  | ok a => exact h a
  | error e => rfl

theorem errorOf_emit (field : Nat) (v : Bytes) (s : State) :
    errorOf (emit field v s) = if s.olen.toNat + v.length > s.cfg.bufCap then some (capacityError field) else none := by
  unfold emit
  split <;> rfl

/-- Whether a string fits in OBUF from offset 0 depends on the configuration alone. -/
theorem errorOf_emit_congr (field : Nat) (v : Bytes) {s t : State} (h : t.cfg = s.cfg) :
    errorOf (emit field v (clearResults t)) = errorOf (emit field v (clearResults s)) := by
  rw [errorOf_emit, errorOf_emit, clearResults_cfg, clearResults_cfg, h]
  rfl

theorem keyBytes_congr {s t : State} (h : KeepsInputs s t) : keyBytes t = keyBytes s := by
  simp only [keyBytes, bufferBytes, bufferByte, buffer, h.key, h.klen, h.resets]

/-- What error a command raises depends on its inputs alone: the input registers and buffers, the configuration and, for the
commands that emit, the message registers and PRES. -/
theorem errorOf_commandBody_congr {i : Instr} {s t : State} (hin : KeepsInputs s t)
    (hmsg : emits i = true → KeepsMessage s t) :
    errorOf (commandBody i (clearResults t)) = errorOf (commandBody i (clearResults s)) := by
  have hcfg := hin.cfg
  have hinput : input t = input s := input_congr hin.ibuf hin.ilen hin.resets
  have hemit (field : Nat) (v : Bytes) := errorOf_emit_congr field v hcfg
  cases i with
  | packLbcd | packRbcd =>
    simp only [commandBody, packLbcdBody, packRbcdBody, input_clearResults, clearResults_cfg, hinput, hcfg]
    split
    · exact hemit 0 _
    · rfl
  | unpackL n | unpackR n =>
    simp only [commandBody, unpackLBody, unpackRBody, input_clearResults, clearResults_cfg, hinput, hcfg]
    exact errorOf_bind_congr _ (hemit 0)
  | encLen kind len =>
    simp only [commandBody, encLenBody, clearResults_cfg, hcfg]
    exact errorOf_bind_congr _ fun _ => errorOf_bind_congr _ (hemit 0)
  | decLen kind =>
    simp only [commandBody, decLenBody, input_clearResults, hinput]
    exact errorOf_bind_congr _ fun _ => errorOf_bind_congr _ fun _ => rfl
  | fieldEnc x =>
    have hslot (j : Nat) : filledSlot (clearResults t) j = filledSlot (clearResults s) j := by
      simp only [filledSlot, fieldSlot, clearResults_msg, (hmsg rfl).msg]
    simp only [commandBody, fieldEncBody, clearResults_cfg, hslot, hcfg]
    exact errorOf_bind_congr _ fun j => errorOf_bind_congr _ fun _ => errorOf_bind_congr _ fun _ =>
      errorOf_bind_congr _ (hemit j)
  | fieldDec x =>
    simp only [commandBody, fieldDecBody, input_clearResults, clearResults_cfg, hinput, hcfg]
    exact errorOf_bind_congr _ fun _ => errorOf_bind_congr _ fun _ => errorOf_bind_congr _ fun _ => rfl
  | bmpBuild =>
    simp only [commandBody, bmpBuildBody, clearResults_pres, (hmsg rfl).pres]
    exact hemit 0 _
  | bmpParse | msgDec =>
    simp only [commandBody, bmpParseBody, msgDecBody, input_clearResults, clearResults_cfg, hinput, hcfg]
    exact errorOf_bind_congr _ fun _ => rfl
  | msgEnc =>
    simp only [commandBody, msgEncBody, clearResults_cfg, clearResults_msg, (hmsg rfl).msg, hcfg]
    exact errorOf_bind_congr _ (hemit 0)
  | mac =>
    simp only [commandBody, macBody, input_clearResults, keyBytes_clearResults, clearResults_cfg, hinput, hcfg,
      keyBytes_congr hin]
    split
    · exact errorOf_bind_congr _ (hemit 0)
    · rfl

/-- A failed command issued again from the state it left gives that state again (R257). -/
theorem exec_repeat_of_failed {i : Instr} {s t : State} (h : exec i s = .next t) (herr : t.err ≠ 0) :
    exec i t = .next t := by
  obtain ⟨e, he, rfl⟩ := exec_failed h herr
  have hsame := errorOf_commandBody_congr (keepsInputs_exec h) fun hemits => keepsMessage_exec_of_emits hemits h
  rw [he] at hsame
  rw [exec_eq_runCommand, runCommand_error (errorOf_eq_some.mp hsame), raiseError_invalidated_repeat]

/-- Settles O47: the equation is `raiseError` of the invalidated destination, and what a command reads is not what its error
changes. -/
theorem failedCommandsArePrecise : Obligations.FailedCommandsArePrecise := by
  intro i s t h herr
  refine ⟨?_, exec_repeat_of_failed h herr⟩
  obtain ⟨e, -, rfl⟩ := exec_failed h herr
  by_cases hcode : e.code = .illegalCommand
  · simp only [raiseError_err, errNumber_eq_thirteen_iff, invalidated, if_pos hcode]
    rfl
  · simp only [raiseError_err, errNumber_eq_thirteen_iff, invalidated, if_neg hcode]
    cases i <;> rfl

end Sys2Proof.Machine
end

section
/-! PROOFS. Which errors a command can raise (spec/60_exceptions.md rules R241 to R253, "raised by"), the header tests of
MSG_ENC in their order (spec/44_message.md rules R191 and R192), and the obligation O35. -/

namespace Sys2Proof.Machine

/-! ## The error codes of a computation -/

/-- Every error the computation can raise has one of the codes. -/
structure Raises {α : Type} (codes : List ErrCode) (x : Except CmdError α) : Prop where
  code_mem : ∀ e, x = .error e → e.code ∈ codes

section

variable {α β : Type} {codes fewer : List ErrCode}

theorem raises_ok (a : α) : Raises codes (.ok a : Except CmdError α) := ⟨fun _ h => nomatch h⟩

theorem raises_error {e : CmdError} (h : codes.contains e.code = true) : Raises codes (.error e : Except CmdError α) :=
  ⟨fun _ h' => Except.error.inj h' ▸ List.contains_iff_mem.mp h⟩

theorem Raises.mono {x : Except CmdError α} (hx : Raises fewer x) (h : fewer ⊆ codes := by decide) : Raises codes x :=
  ⟨fun e he => h (hx.code_mem e he)⟩

/-- A computation in two parts raises what its parts raise. -/
theorem Raises.bind {x : Except CmdError α} {f : α → Except CmdError β} (hx : Raises fewer x)
    (hf : ∀ a, Raises codes (f a)) (h : fewer ⊆ codes := by decide) : Raises codes (x >>= f) :=
  ⟨fun e he => (bind_error.mp he).elim ((hx.mono h).code_mem e) fun ⟨a, _, ha⟩ => (hf a).code_mem e ha⟩

theorem Raises.ite {p : Prop} [Decidable p] {x y : Except CmdError α} (hx : Raises codes x) (hy : Raises codes y) :
    Raises codes (if p then x else y) := by
  split
  · exact hx
  · exact hy

end

/-! ## The codec functions -/

theorem unpackNibbles_raises (bs : Bytes) (n field : Nat) :
    Raises [.badBcdDigit, .truncatedMessage] (unpackNibbles bs n field) :=
  .ite (raises_error rfl) (.ite (raises_ok _) (raises_error rfl))

theorem unpackL_raises (pad : LbcdPad) (bs : Bytes) (n field : Nat) :
    Raises [.badBcdDigit, .truncatedMessage] (unpackL pad bs n field) := by
  have h := unpackNibbles_raises bs n field
  unfold unpackL
  split
  next e he => exact raises_error (List.contains_iff_mem.mpr (h.code_mem e he))
  next => exact raises_ok _

theorem unpackR_raises (bs : Bytes) (n field : Nat) : Raises [.badBcdDigit, .truncatedMessage] (unpackR bs n field) :=
  unpackR_eq bs n field ▸ unpackL_raises .leading bs n field

theorem encLen_raises (mode : Var2Byte0) (kind : FieldKind) (len field : Nat) :
    Raises [.valueTooLong] (encLen mode kind len field) :=
  .ite (raises_error rfl) (raises_ok _)

theorem decLen_raises (kind : FieldKind) (bs : Bytes) (field : Nat) :
    Raises [.parseLengthFailed, .truncatedMessage] (decLen kind bs field) :=
  .ite (raises_error rfl) (.ite (raises_ok _) (raises_error rfl))

theorem bmpParse_raises (bs : Bytes) : Raises [.truncatedMessage] (bmpParse bs) :=
  .ite (raises_error rfl) (.ite (raises_error rfl) (raises_ok _))

theorem macCompute_raises (key data : Bytes) : Raises [.invalidKeyLength] (macCompute key data) :=
  .ite (raises_error rfl) (raises_ok _)

theorem emit_raises (field : Nat) (v : Bytes) (s : State) : Raises [.internalCodecError] (emit field v s) :=
  .ite (raises_error rfl) (raises_ok _)

/-! ## Operands, the table and the slots -/

theorem kindOperand_raises (kind : BitVec 8) : Raises [.illegalCommand] (kindOperand kind) := by
  unfold kindOperand
  split
  · exact raises_ok _
  · exact raises_ok _
  · exact raises_ok _
  · exact raises_error rfl

theorem indexOperand_raises (i : BitVec 8) : Raises [.illegalCommand] (indexOperand i) :=
  .ite (raises_ok _) (raises_error rfl)

theorem tableEntry_raises (c : Config) (i : Nat) : Raises [.undefinedField] (tableEntry c i) := by
  unfold tableEntry
  split
  · exact raises_ok _
  · exact raises_error rfl

theorem filledSlot_raises (s : State) (i : Nat) : Raises [.illegalCommand] (filledSlot s i) := by
  unfold filledSlot
  split
  · exact raises_ok _
  · exact raises_error rfl

theorem supportedEncoding_raises (i : Nat) (code : BitVec 8) : Raises [.invalidEncoder] (supportedEncoding i code) := by
  unfold supportedEncoding
  split
  · exact raises_ok _
  · exact raises_error rfl

/-! ## Encoding a field (R140 to R146) -/

theorem checkByteCount_raises (i : Nat) (kind : FieldKind) (dl n : Nat) :
    Raises [.valueTooLong, .internalCodecError] (checkByteCount i kind dl n) :=
  .ite (raises_error rfl) (.ite (raises_error rfl) (raises_ok _))

theorem fitNumeric_raises (enc : ByteEncoding) (kind : FieldKind) (dl field : Nat) (v : Bytes) :
    Raises [.valueTooLong] (fitNumeric enc kind dl field v) :=
  .ite (raises_error rfl) (.ite (raises_ok _) (raises_ok _))

theorem encodeNumeric_raises (enc : ByteEncoding) (pack : Bytes → Bytes) (i : Nat) (kind : FieldKind) (dl : Nat)
    (s : Bytes) : Raises [.valueTooLong, .badBcdDigit] (encodeNumeric enc pack i kind dl s) :=
  .bind (fitNumeric_raises ..) fun _ => .ite (raises_ok _) (raises_error rfl)

theorem encodeScalar_raises (c : Config) (i : Nat) (kind : FieldKind) (enc : ByteEncoding) (dl : Nat) (s : Bytes) :
    Raises [.valueTooLong, .badBcdDigit, .invalidHex, .internalCodecError] (encodeScalar c i kind enc dl s) := by
  cases enc with
  | ascii => exact .bind (checkByteCount_raises ..) fun _ => raises_ok _
  | binary => exact .ite (raises_error rfl) (.bind (checkByteCount_raises ..) fun _ => raises_ok _)
  | bcd => exact (encodeNumeric_raises ..).mono
  | rbcd => exact (encodeNumeric_raises ..).mono

theorem withHeader_raises (c : Config) (i : Nat) (kind : FieldKind) (len : Nat) (body : Bytes) :
    Raises [.valueTooLong] (withHeader c i kind len body) :=
  .ite (raises_ok _) (.bind (encLen_raises ..) fun _ => raises_ok _)

/-- The codes encoding a field can raise (R153). -/
def encodeCodes : List ErrCode := [.valueTooLong, .badBcdDigit, .invalidEncoder, .invalidHex, .internalCodecError]

mutual

theorem encodeField_raises (c : Config) (i : Nat) : ∀ (d : FieldDef) (v : FieldValue),
    Raises encodeCodes (encodeField c i d v)
  | .scalar kind code dl, .scalar s => by
    rw [encodeField]
    exact .bind (supportedEncoding_raises ..) fun _ => .bind (encodeScalar_raises ..) fun _ => (withHeader_raises ..).mono
  | .composite kind code dl subs, .composite vs => by
    rw [encodeField]
    exact .bind (supportedEncoding_raises ..) fun _ =>
      .ite (raises_error rfl) (.bind (encodeSubs_raises c i subs vs) fun _ => (withHeader_raises ..).mono)
  | .scalar _ _ _, .composite _ => by
    rw [encodeField]
    exact .bind (supportedEncoding_raises ..) fun _ => raises_error rfl
  | .composite _ _ _ _, .scalar _ => by
    rw [encodeField]
    exact .bind (supportedEncoding_raises ..) fun _ => raises_error rfl

theorem encodeSubs_raises (c : Config) (i : Nat) : ∀ (subs : SubDefs) (vs : FieldValues),
    Raises encodeCodes (encodeSubs c i subs vs)
  | .nil, .nil => raises_ok _
  | .cons d ds, .cons v vs => by
    rw [encodeSubs]
    exact .bind (encodeField_raises c i d v) fun _ => .bind (encodeSubs_raises c i ds vs) fun _ => raises_ok _
  | .nil, .cons _ _ => raises_error rfl
  | .cons _ _, .nil => raises_error rfl

end

/-! ## Decoding a field (R148 to R151) -/

theorem withinValCap_raises (c : Config) (i : Nat) (s : Bytes) : Raises [.internalCodecError] (withinValCap c i s) :=
  .ite (raises_error rfl) (raises_ok _)

theorem fieldLength_raises (i : Nat) (kind : FieldKind) (dl : Nat) (raw : Bytes) :
    Raises [.parseLengthFailed, .truncatedMessage] (fieldLength i kind dl raw) :=
  .ite (raises_ok _) (decLen_raises ..)

theorem fieldBody_raises (i : Nat) (kind : FieldKind) (enc : ByteEncoding) (len : Nat) (raw : Bytes) :
    Raises [.truncatedMessage] (fieldBody i kind enc len raw) :=
  .ite (raises_error rfl) (raises_ok _)

theorem decodeBody_raises (c : Config) (i : Nat) (enc : ByteEncoding) (len : Nat) (body : Bytes) :
    Raises [.badBcdDigit, .truncatedMessage] (decodeBody c i enc len body) := by
  cases enc with
  | ascii => exact raises_ok _
  | binary => exact raises_ok _
  | bcd => exact unpackL_raises ..
  | rbcd => exact unpackR_raises ..

/-- The codes decoding a field can raise (R153). -/
def decodeCodes : List ErrCode :=
  [.badBcdDigit, .parseLengthFailed, .truncatedMessage, .invalidEncoder, .internalCodecError]

mutual

theorem decodeField_raises (c : Config) (i : Nat) : ∀ (d : FieldDef) (raw : Bytes),
    Raises decodeCodes (decodeField c i d raw)
  | .scalar kind code dl, raw => by
    rw [decodeField]
    exact .bind (supportedEncoding_raises ..) fun _ =>
      .bind (fieldLength_raises ..) fun _ =>
      .bind (fieldBody_raises ..) fun _ =>
      .bind (decodeBody_raises ..) fun _ =>
      .bind (withinValCap_raises ..) fun _ => raises_ok _
  | .composite kind code dl subs, raw => by
    rw [decodeField]
    exact .bind (supportedEncoding_raises ..) fun _ =>
      .bind (fieldLength_raises ..) fun _ =>
      .bind (fieldBody_raises ..) fun ⟨body, _⟩ =>
      .bind (decodeSubs_raises c i subs body) fun _ => raises_ok _

theorem decodeSubs_raises (c : Config) (i : Nat) : ∀ (subs : SubDefs) (body : Bytes),
    Raises decodeCodes (decodeSubs c i subs body)
  | .nil, _ => raises_ok _
  | .cons d ds, body => by
    rw [decodeSubs]
    exact .bind (decodeField_raises c i d body) fun ⟨_, consumed⟩ =>
      .bind (decodeSubs_raises c i ds (body.drop consumed)) fun _ => raises_ok _

end

/-! ## Messages (R192, R194) -/

theorem encFixedDigits_raises (s : Bytes) (width : Nat) (code : ErrCode) : Raises [code] (encFixedDigits s width code) :=
  .ite (raises_error (by simp)) (raises_ok _)

theorem encHeader_raises (c : Config) (hdr : Option Bytes) : Raises [.invalidHeader] (encHeader c hdr) := by
  cases hdr with
  | none => exact raises_ok _
  | some h => exact encFixedDigits_raises ..

theorem encodePayloads_raises (c : Config) (g : Slots) (indices : List Nat) :
    Raises (.undefinedField :: encodeCodes) (encodePayloads c g indices) := by
  induction indices with
  | nil => exact raises_ok _
  | cons i rest ih =>
    rw [encodePayloads]
    split
    · exact ih
    · exact .bind (tableEntry_raises ..) fun _ => .bind (encodeField_raises ..) fun _ => .bind ih fun _ => raises_ok _

theorem withPrefix_raises (c : Config) (out : Bytes) : Raises [.internalCodecError] (withPrefix c out) :=
  .ite (.ite (raises_error rfl) (raises_ok _)) (raises_ok _)

theorem msgEncode_raises (c : Config) (m : Message) :
    Raises (.invalidTpdu :: .invalidHeader :: .invalidMti :: .undefinedField :: encodeCodes) (msgEncode c m) :=
  .bind (encFixedDigits_raises ..) fun _ =>
    .bind (encHeader_raises ..) fun _ =>
    .bind (encFixedDigits_raises ..) fun _ =>
    .bind (encodePayloads_raises ..) fun _ => (withPrefix_raises ..).mono

theorem decFixedDigits_raises (c : Config) (bs : Bytes) (width : Nat) :
    Raises [.badBcdDigit, .truncatedMessage, .internalCodecError] (decFixedDigits c bs width) :=
  .ite (raises_error rfl) (.bind (unpackL_raises ..) fun _ => (withinValCap_raises ..).mono)

theorem decHeader_raises (c : Config) (bs : Bytes) :
    Raises [.badBcdDigit, .truncatedMessage, .internalCodecError] (decHeader c bs) :=
  .ite (.bind (decFixedDigits_raises ..) fun _ => raises_ok _) (raises_ok _)

theorem stripPrefix_raises (c : Config) (raw : Bytes) : Raises [.truncatedMessage] (stripPrefix c raw) := by
  unfold stripPrefix
  refine .ite ?_ (raises_ok _)
  split
  · exact .ite (raises_error rfl) (raises_ok _)
  · exact raises_error rfl

theorem decodePayloads_raises (c : Config) (raw : Bytes) (indices : List Nat) (g : Slots) (cur : Nat) :
    Raises (.undefinedField :: decodeCodes) (decodePayloads c raw indices g cur) := by
  induction indices generalizing g cur with
  | nil => exact raises_ok _
  | cons i rest ih =>
    rw [decodePayloads]
    exact .bind (tableEntry_raises ..) fun _ => .bind (decodeField_raises ..) fun _ => ih _ _

theorem msgDecode_raises (c : Config) (whole : Bytes) : Raises (.undefinedField :: decodeCodes) (msgDecode c whole) :=
  .bind (stripPrefix_raises ..) fun _ =>
    .bind (decFixedDigits_raises ..) fun _ =>
    .bind (decHeader_raises ..) fun _ =>
    .bind (decFixedDigits_raises ..) fun _ =>
    .bind (bmpParse_raises ..) fun _ => .bind (decodePayloads_raises ..) fun _ => raises_ok _

/-! ## The commands -/

/-- The codes the pseudocode of a command can raise, `emit`'s Capacity included (R241 to R253). -/
def commandCodes : Instr → List ErrCode
  | .packLbcd | .packRbcd => [.badBcdDigit, .internalCodecError]
  | .unpackL _ | .unpackR _ => [.badBcdDigit, .truncatedMessage, .internalCodecError]
  | .encLen _ _ => [.valueTooLong, .internalCodecError, .illegalCommand]
  | .decLen _ => [.parseLengthFailed, .truncatedMessage, .illegalCommand]
  | .fieldEnc _ => .undefinedField :: .illegalCommand :: encodeCodes
  | .fieldDec _ => .undefinedField :: .illegalCommand :: decodeCodes
  | .bmpBuild => [.internalCodecError]
  | .bmpParse => [.truncatedMessage]
  | .msgEnc => .invalidTpdu :: .invalidHeader :: .invalidMti :: .undefinedField :: encodeCodes
  | .msgDec => .undefinedField :: decodeCodes
  | .mac => [.invalidKeyLength, .internalCodecError, .illegalCommand]

theorem commandBody_raises (i : Instr) (s : State) : Raises (commandCodes i) (commandBody i s) := by
  cases i with
  | packLbcd | packRbcd => exact .ite (emit_raises ..).mono (raises_error rfl)
  | unpackL n =>
    rw [commandCodes]
    exact .bind (unpackL_raises ..) fun _ => (emit_raises ..).mono
  | unpackR n =>
    rw [commandCodes]
    exact .bind (unpackR_raises ..) fun _ => (emit_raises ..).mono
  | encLen kind len =>
    rw [commandCodes]
    exact .bind (kindOperand_raises ..) fun _ => .bind (encLen_raises ..) fun _ => (emit_raises ..).mono
  | decLen kind =>
    rw [commandCodes]
    exact .bind (kindOperand_raises ..) fun _ => .bind (decLen_raises ..) fun _ => raises_ok _
  | fieldEnc x =>
    rw [commandCodes]
    exact .bind (indexOperand_raises ..) fun _ =>
      .bind (filledSlot_raises ..) fun _ =>
      .bind (tableEntry_raises ..) fun _ =>
      .bind (encodeField_raises ..) fun _ => (emit_raises ..).mono
  | fieldDec x =>
    rw [commandCodes]
    exact .bind (indexOperand_raises ..) fun _ =>
      .bind (tableEntry_raises ..) fun _ =>
      .bind (decodeField_raises ..) fun _ => raises_ok _
  | bmpBuild => exact emit_raises ..
  | bmpParse => exact .bind (bmpParse_raises ..) fun _ => raises_ok _
  | msgEnc => exact .bind (msgEncode_raises ..) fun _ => (emit_raises ..).mono
  | msgDec => exact .bind (msgDecode_raises ..) fun _ => raises_ok _
  | mac => exact .ite (.bind (macCompute_raises ..) fun _ => (emit_raises ..).mono) (raises_error rfl)

/-- ERR after a command is 0 or the number of a code the command can raise. -/
theorem exec_err {i : Instr} {s t : State} (h : exec i s = .next t) :
    t.err = 0 ∨ ∃ code ∈ commandCodes i, t.err = errNumber code := by
  by_cases herr : t.err = 0
  · exact .inl herr
  · obtain ⟨e, he, rfl⟩ := exec_failed h herr
    exact .inr ⟨e.code, (commandBody_raises i _).code_mem e he, rfl⟩

/-- Each code has a number of its own (R240). -/
theorem errNumber_injective : Function.Injective errNumber := fun a b => by cases a <;> cases b <;> decide

/-- A code a command cannot raise is not in ERR after it. -/
theorem exec_err_ne {i : Instr} {s t : State} {code : ErrCode} (h : exec i s = .next t) (hcode : code ∉ commandCodes i) :
    t.err ≠ errNumber code := by
  intro herr
  rcases exec_err h with hzero | ⟨raised, hmem, hraised⟩
  · exact errNumber_ne_zero code (herr.symm.trans hzero)
  · exact hcode (errNumber_injective (herr.symm.trans hraised) ▸ hmem)

/-! ## The header tests of MSG_ENC (R191, R192) -/

theorem encFixedDigits_of_digitString {s : Bytes} {width : Nat} (code : ErrCode) (h : DigitString s width) :
    encFixedDigits s width code = .ok (packPairs s) := if_neg (by simp [h.1, h.2])

theorem encFixedDigits_of_not_digitString {s : Bytes} {width : Nat} (code : ErrCode) (h : ¬DigitString s width) :
    encFixedDigits s width code = .error { code := code } := if_pos (by simpa [or_iff_not_imp_left] using h)

/-- HDR is absent or a string of exactly its width of decimal digits. -/
abbrev HeaderReady (c : Config) (hdr : Option Bytes) : Prop := ∀ h, hdr = some h → DigitString h c.headerDigits

theorem encHeader_of_ready {c : Config} {hdr : Option Bytes} (h : HeaderReady c hdr) :
    ∃ bytes, encHeader c hdr = .ok bytes := by
  cases hdr with
  | none => exact ⟨[], rfl⟩
  | some s => exact ⟨_, encFixedDigits_of_digitString .invalidHeader (h s rfl)⟩

theorem encHeader_of_not_ready {c : Config} {hdr : Option Bytes} (h : ¬HeaderReady c hdr) :
    encHeader c hdr = .error { code := .invalidHeader } := by
  cases hdr with
  | none => exact absurd (fun _ hs => nomatch hs) h
  | some s => exact encFixedDigits_of_not_digitString .invalidHeader fun hs => h fun _ heq => Option.some.inj heq ▸ hs

/-- MSG_ENC fails as `msg_encode` does, when the error is a code alone. -/
theorem exec_msgEnc_of_code {s : State} {code : ErrCode} (h : msgEncode s.cfg s.msg = .error { code := code }) :
    ∃ t, exec .msgEnc s = .next t ∧ Failed { code := code } t := by
  have hbody : commandBody .msgEnc (clearResults s) = msgEncode s.cfg s.msg >>= fun frame => emit 0 frame (clearResults s) :=
    rfl
  rw [h, error_bind] at hbody
  exact exec_failed_of_error hbody (Nat.zero_lt_succ _) (Nat.zero_lt_succ _) (Nat.two_pow_pos 32)

/-- Settles O35: `msg_encode` ends at its first string that is not ready, and no other command can raise the three codes. -/
theorem msgEncHeaderErrorsInOrder : Obligations.MsgEncHeaderErrorsInOrder := by
  intro s
  refine ⟨fun htpdu => ?_, fun htpdu hhdr => ?_, fun htpdu hhdr hmti => ?_, fun i t hi h => ?_⟩
  · apply exec_msgEnc_of_code
    rw [msgEncode, encFixedDigits_of_not_digitString _ htpdu, error_bind]
  · apply exec_msgEnc_of_code
    rw [msgEncode, encFixedDigits_of_digitString _ htpdu, ok_bind, encHeader_of_not_ready hhdr, error_bind]
  · obtain ⟨header, hheader⟩ := encHeader_of_ready hhdr
    apply exec_msgEnc_of_code
    rw [msgEncode, encFixedDigits_of_digitString _ htpdu, ok_bind, hheader, ok_bind,
      encFixedDigits_of_not_digitString (width := mtiDigits) _ hmti, error_bind]
  · have hcodes : .invalidTpdu ∉ commandCodes i ∧ .invalidHeader ∉ commandCodes i ∧ .invalidMti ∉ commandCodes i := by
      cases i with
      | msgEnc => exact absurd rfl hi
      | _ => simp [commandCodes, encodeCodes, decodeCodes]
    obtain ⟨htpdu, hhdr, hmti⟩ := hcodes
    exact ⟨exec_err_ne h htpdu, exec_err_ne h hhdr, exec_err_ne h hmti⟩

end Sys2Proof.Machine
end

section
/-! PROOFS. Command words and the field round trip (spec/30_encoding.md rules R70 to R73, spec/42_field_codec.md rule R152): what
each format decodes, the word of a decoded command, which words and operands are IllegalCommand, and the obligations O7, O10
to O13 and O31. -/

namespace Sys2Proof.Machine

/-- Settles O31: the definition and the value read back at any depth. -/
theorem fieldRoundTrip : Obligations.FieldRoundTrip := by
  intro c i depth d v hd hv
  obtain ⟨bs, hencode, hdecode, -⟩ := fieldReadsBack c i depth d v hd hv
  exact ⟨bs, hencode, hdecode⟩

/-! ## The formats (R71) -/

theorem ite_reserved_eq_ok {p : Prop} [Decidable p] {i j : Instr} :
    (if p then .ok i else .error .reservedBits : Except DecodeError Instr) = .ok j ↔ p ∧ i = j := by
  split <;> simp [*]

theorem ite_reserved_eq_error {p : Prop} [Decidable p] {i : Instr} {e : DecodeError} :
    (if p then .ok i else .error .reservedBits : Except DecodeError Instr) = .error e ↔ ¬p ∧ .reservedBits = e := by
  split <;> simp [*]

theorem decodeZ_eq_ok {mk i : Instr} {a : BitVec 8} {b : BitVec 16} :
    decodeZ mk a b = .ok i ↔ (a = 0#8 ∧ b = 0#16) ∧ mk = i := ite_reserved_eq_ok

theorem decodeN_eq_ok {mk : BitVec 16 → Instr} {i : Instr} {a : BitVec 8} {b : BitVec 16} :
    decodeN mk a b = .ok i ↔ a = 0#8 ∧ mk b = i := ite_reserved_eq_ok

theorem decodeA_eq_ok {mk : BitVec 8 → Instr} {i : Instr} {a : BitVec 8} {b : BitVec 16} :
    decodeA mk a b = .ok i ↔ b = 0#16 ∧ mk a = i := ite_reserved_eq_ok

theorem decodeZ_eq_error {mk : Instr} {e : DecodeError} {a : BitVec 8} {b : BitVec 16} :
    decodeZ mk a b = .error e ↔ ¬(a = 0#8 ∧ b = 0#16) ∧ .reservedBits = e := ite_reserved_eq_error

theorem decodeN_eq_error {mk : BitVec 16 → Instr} {e : DecodeError} {a : BitVec 8} {b : BitVec 16} :
    decodeN mk a b = .error e ↔ ¬a = 0#8 ∧ .reservedBits = e := ite_reserved_eq_error

theorem decodeA_eq_error {mk : BitVec 8 → Instr} {e : DecodeError} {a : BitVec 8} {b : BitVec 16} :
    decodeA mk a b = .error e ↔ ¬b = 0#16 ∧ .reservedBits = e := ite_reserved_eq_error

/-! ## Decoding and encoding (R72) -/

theorem decode_encode (i : Instr) : decode (encode i) = .ok i := by
  cases i <;> simp [decode, encode, decodeZ, decodeN, decodeKL, decodeA]

/-- A word is packed from what its three fields hold. -/
theorem packWord_of_fields {w : Word} {b : BitVec 16} {a op : BitVec 8} (hb : wordB w = b) (ha : wordA w = a)
    (hop : (wordOp w).toNat = op.toNat) : packWord b a op = w := by
  rw [← hb, ← ha, ← BitVec.eq_of_toNat_eq hop, packWord_fields]

theorem encode_of_decode {w : Word} {i : Instr} (h : decode w = .ok i) : encode i = w := by
  unfold decode at h
  split at h
  case h_1 | h_2 | h_9 | h_10 | h_11 | h_12 | h_13 =>
    obtain ⟨⟨ha, hb⟩, rfl⟩ := decodeZ_eq_ok.mp h
    exact packWord_of_fields hb ha ‹_›
  case h_3 | h_4 =>
    obtain ⟨ha, rfl⟩ := decodeN_eq_ok.mp h
    exact packWord_of_fields rfl ha ‹_›
  case h_5 =>
    cases h
    exact packWord_of_fields rfl rfl ‹_›
  case h_6 | h_7 | h_8 =>
    obtain ⟨hb, rfl⟩ := decodeA_eq_ok.mp h
    exact packWord_of_fields hb rfl ‹_›
  case h_14 => cases h

/-- Settles O10: a command's word has its fields, and a decoded word is packed from the fields of its command. -/
theorem decodeAndEncodeAgree : Obligations.DecodeAndEncodeAgree :=
  ⟨decode_encode, fun _ _ => encode_of_decode⟩

/-- Settles O12: nine closed words. -/
theorem specWordsDecode : Obligations.SpecWordsDecode := ⟨rfl, rfl, rfl, rfl, rfl, rfl, rfl, rfl, rfl⟩

/-! ## Words that spell no command (R73 tests 1 and 2) -/

theorem wordA_eq_zero {w : Word} : wordA w = 0#8 ↔ w.toNat / 256 % 256 = 0 := by
  rw [← wordA_toNat, ← BitVec.toNat_inj]
  rfl

theorem wordB_eq_zero {w : Word} : wordB w = 0#16 ↔ w.toNat / 65536 = 0 := by
  rw [← wordB_toNat, ← BitVec.toNat_inj]
  rfl

/-- Settles O11, row by row of the opcode table: a listed opcode fails only in the fields its format says must be 0. -/
theorem reservedWordsAreRefusedInOrder : Obligations.ReservedWordsAreRefusedInOrder := by
  intro w op a b
  have hop : (wordOp w).toNat = op := wordOp_toNat w
  have ha : wordA w = 0#8 ↔ a = 0 := wordA_eq_zero
  have hb : wordB w = 0#16 ↔ b = 0 := wordB_eq_zero
  clear_value op a b
  unfold decode
  split
  case h_1 | h_2 | h_9 | h_10 | h_11 | h_12 | h_13 =>
    obtain rfl := hop.symm.trans ‹_›
    simp [decodeZ_eq_error, ha, hb]
  case h_3 | h_4 =>
    obtain rfl := hop.symm.trans ‹_›
    simp [decodeN_eq_error, ha]
  case h_5 =>
    obtain rfl := hop.symm.trans ‹_›
    simp [decodeKL]
  case h_6 | h_7 | h_8 =>
    obtain rfl := hop.symm.trans ‹_›
    simp [decodeA_eq_error, hb]
  case h_14 =>
    subst hop
    simp_all

end Sys2Proof.Machine
end

section
/-! PROOFS. The step and the life cycle of a command (spec/10_state.md rule R39, spec/30_encoding.md rule R73): how a command
completes, what an illegal word or operand leaves, that a command does not read STATUS, and the obligations O5 to O9 and
O13. -/

namespace Sys2Proof.Machine

/-! ## Steps and completions (R39) -/

theorem step_of_pending_nil {s : State} (hc : configWf s.cfg = true) (hp : s.pending = []) : step s = blockTurn s := by
  simp [step, advance, hc, hp]

theorem step_of_pending_cons {s : State} {e : Event} {rest : List Event} (hc : configWf s.cfg = true)
    (hp : s.pending = e :: rest) : step s = act e (withPending rest s) := by
  simp [step, advance, hc, hp]

theorem blockTurn_of_idle {s : State} (h : s.busy = false) : blockTurn s = .next s := by
  simp [blockTurn, h]

theorem blockTurn_of_busy {s : State} (h : s.busy = true) : blockTurn s = complete s := by
  simp [blockTurn, h]

theorem complete_of_ok {s : State} {i : Instr} (h : decode s.cmd = .ok i) : complete s = exec i s := by
  simp [complete, fetch, h]

theorem complete_of_error {s : State} {e : DecodeError} (h : decode s.cmd = .error e) : complete s = illegalWord e s := by
  simp [complete, fetch, h]

/-- Settles O9: both ends of a command are IDLE and DONE, and only an error sets ERRF and ERR. -/
theorem everyCommandCompletes : Obligations.EveryCommandCompletes := by
  intro i s
  rw [exec_eq_runCommand]
  rcases runCommand_cases (commandInvalidate i) (commandBody i) s with ⟨t, -, h⟩ | ⟨e, -, h⟩
  · exact ⟨_, h, rfl, rfl, bne_iff_ne⟩
  · exact ⟨_, h, rfl, rfl, iff_of_true rfl (errNumber_ne_zero e.code)⟩

theorem complete_next (s : State) : ∃ t, complete s = .next t := by
  cases hd : decode s.cmd with
  | ok i =>
    obtain ⟨t, ht, -⟩ := everyCommandCompletes i s
    exact ⟨t, (complete_of_ok hd).trans ht⟩
  | error e => exact ⟨_, complete_of_error hd⟩

theorem blockTurn_next (s : State) : ∃ t, blockTurn s = .next t := by
  cases hb : s.busy with
  | false => exact ⟨s, blockTurn_of_idle hb⟩
  | true => exact blockTurn_of_busy hb ▸ complete_next s

/-- Settles O5: each event, and the block's turn, has a next state. -/
theorem stepRefusesOnlyBadConfiguration : Obligations.StepRefusesOnlyBadConfiguration := by
  refine fun s => ⟨fun hc => ?_, fun hc => by simp [step, hc]⟩
  cases hp : s.pending with
  | nil => exact step_of_pending_nil hc hp ▸ blockTurn_next s
  | cons e rest =>
    rw [step_of_pending_cons hc hp]
    cases e with
    | host m => exact ⟨_, rfl⟩
    | block => exact blockTurn_next _
    | reset => exact ⟨_, rfl⟩

/-- Settles O6: the block's turn on the state itself, or on the state without the event that gives it. -/
theorem stepRunsCommandInCmd : Obligations.StepRunsCommandInCmd := by
  refine fun s hc => ⟨fun i hb hd => ⟨fun hp => ?_, fun rest hp => ?_⟩, fun hb => ⟨fun hp => ?_, fun rest hp => ?_⟩,
    fun m rest hp => step_of_pending_cons hc hp⟩
  · rw [step_of_pending_nil hc hp, blockTurn_of_busy hb, complete_of_ok hd]
  · exact (step_of_pending_cons hc hp).trans <|
      (blockTurn_of_busy (s := withPending rest s) hb).trans (complete_of_ok hd)
  · rw [step_of_pending_nil hc hp, blockTurn_of_idle hb]
  · exact (step_of_pending_cons hc hp).trans (blockTurn_of_idle hb)

/-! ## IllegalCommand (R73, R253) -/

/-- The outcome is IllegalCommand with the cause, ERRFIELD 0, and nothing changed but the error registers and STATUS. -/
def Refuses (cause : ErrCause) (s : State) (o : Outcome) : Prop :=
  ∃ t, o = .next t ∧ Failed { code := .illegalCommand, cause := cause } t ∧ KeepsInputs s t ∧ KeepsMessage s t ∧
    KeepsBytes .obuf 0 s t

theorem refuses_raiseError (cause : ErrCause) (s : State) :
    Refuses cause s (.next (raiseError { code := .illegalCommand, cause := cause } (clearResults s))) :=
  ⟨_, rfl, by constructor <;> rfl, by constructor <;> rfl, ⟨rfl, rfl⟩, fun _ _ => rfl⟩

theorem exec_refuses {i : Instr} {s : State} {cause : ErrCause}
    (h : commandBody i (clearResults s) = .error { code := .illegalCommand, cause := cause }) :
    Refuses cause s (exec i s) := by
  rw [exec_eq_runCommand, runCommand_error h]
  exact refuses_raiseError cause s

/-- The cause of the first of the tests 3 to 5 of R73 that a decoded command fails. -/
def operandCause (c : Config) : Instr → ErrCause
  | .encLen kind _ | .decLen kind => if kindOperandLegal kind then .none else .badKind
  | .fieldEnc i | .fieldDec i => if indexOperandLegal i then .none else .badIndex
  | .mac => if c.hasMac then .none else .macAbsent
  | .packLbcd | .packRbcd | .unpackL _ | .unpackR _ | .bmpBuild | .bmpParse | .msgEnc | .msgDec => .none

/-- A command makes these tests before anything else. -/
theorem exec_refuses_operandCause {i : Instr} {s : State} {cause : ErrCause} (h : operandCause s.cfg i = cause)
    (hne : cause ≠ .none) : Refuses cause s (exec i s) := by
  subst h
  apply exec_refuses
  cases i with
  | encLen kind len | decLen kind =>
    simp only [operandCause] at hne ⊢
    split at hne
    next => exact absurd rfl hne
    next hk => simp [commandBody, encLenBody, decLenBody, kindOperand_illegal (by simpa using hk), hk]
  | fieldEnc x | fieldDec x =>
    simp only [operandCause] at hne ⊢
    split at hne
    next => exact absurd rfl hne
    next hx => simp [commandBody, fieldEncBody, fieldDecBody, indexOperand_illegal (by simpa using hx), hx, badIndexError]
  | mac =>
    simp only [operandCause] at hne ⊢
    split at hne
    next => exact absurd rfl hne
    next hm => simp [commandBody, macBody, hm]
  | _ => exact absurd rfl hne

/-- Settles O13: an illegal kind or index is the cause that the command reports. -/
theorem illegalOperandsChangeNothing : Obligations.IllegalOperandsChangeNothing := by
  refine fun s x len => ⟨fun hk i hi => ?_, fun hx i hi => ?_⟩
  · have hcause : operandCause s.cfg i = .badKind := by
      simp only [List.mem_cons, List.not_mem_nil, or_false] at hi
      rcases hi with rfl | rfl <;> simpa [operandCause] using hk
    exact exec_refuses_operandCause hcause (by decide)
  · have hcause : operandCause s.cfg i = .badIndex := by
      simp only [List.mem_cons, List.not_mem_nil, or_false] at hi
      rcases hi with rfl | rfl <;> simpa [operandCause] using hx
    exact exec_refuses_operandCause hcause (by decide)

/-! ## Illegal words in the order of the tests -/

theorem packWord_op (b : BitVec 16) (a op : BitVec 8) : (packWord b a op).toNat % 256 = op.toNat := by
  rw [← wordOp_toNat, wordOp_packWord]

theorem packWord_a (b : BitVec 16) (a op : BitVec 8) : (packWord b a op).toNat / 256 % 256 = a.toNat := by
  rw [← wordA_toNat, wordA_packWord]

/-- On the word of a command, tests 3 to 5 as the numeric fields of the word state them. -/
theorem operandCause_eq (c : Config) (i : Instr) :
    operandCause c i =
      if (encode i).toNat % 256 ∈ [0x10, 0x11] ∧ ¬(1 ≤ (encode i).toNat / 256 % 256 ∧ (encode i).toNat / 256 % 256 ≤ 3)
        then .badKind
      else if (encode i).toNat % 256 ∈ [0x20, 0x21] ∧
          ¬(2 ≤ (encode i).toNat / 256 % 256 ∧ (encode i).toNat / 256 % 256 ≤ 128) then .badIndex
      else if (encode i).toNat % 256 = 0x50 ∧ c.hasMac = false then .macAbsent
      else .none := by
  cases i with
  | encLen kind len | decLen kind =>
    by_cases hk : 1 ≤ kind.toNat ∧ kind.toNat ≤ 3 <;> simp [operandCause, encode, packWord_op, packWord_a, hk]
  | fieldEnc x | fieldDec x =>
    by_cases hx : 2 ≤ x.toNat ∧ x.toNat ≤ 128 <;> simp [operandCause, encode, packWord_op, packWord_a, hx]
  | mac => cases hm : c.hasMac <;> simp [operandCause, encode, packWord_op, hm]
  | _ => simp [operandCause, encode, packWord_op]

/-- Settles O7: tests 1 and 2 are the decoder's, tests 3 to 5 those of the decoded command. -/
theorem illegalWordsAreRefusedInOrder : Obligations.IllegalWordsAreRefusedInOrder := by
  intro s cause hc hbusy hp op a b hcause hne
  rw [step_of_pending_nil hc hp, blockTurn_of_busy hbusy]
  obtain ⟨hunknown, hreserved⟩ := reservedWordsAreRefusedInOrder s.cmd
  cases hd : decode s.cmd with
  | error e =>
    rw [complete_of_error hd]
    have hcause' : cause = decodeCause e := by
      cases e with
      | unknownOpcode => exact hcause.trans (if_pos (hunknown.mp hd))
      | reservedBits =>
        have hlisted : ¬(_ ∉ _) := mt hunknown.mpr (by simp [hd])
        exact hcause.trans ((if_neg hlisted).trans (if_pos (hreserved.mp hd)))
    exact hcause' ▸ refuses_raiseError (decodeCause e) s
  | ok i =>
    have hlisted := mt hunknown.mpr (by simp [hd])
    have hformat := mt hreserved.mpr (by simp [hd])
    rw [complete_of_ok hd]
    refine exec_refuses_operandCause ?_ hne
    rw [operandCause_eq, encode_of_decode hd]
    exact (hcause.trans ((if_neg hlisted).trans (if_neg hformat))).symm

/-! ## The two steps of a command are one (R39) -/

/-- STATUS but for PROTO replaced: what a command neither reads nor keeps. -/
def withStatus (busy done errf : Bool) (s : State) : State := { s with busy := busy, done := done, errf := errf }

/-- The computation neither reads these three bits nor changes them. -/
def IgnoresStatus (body : State → Except CmdError State) : Prop :=
  ∀ busy done errf s, body (withStatus busy done errf s) = withStatus busy done errf <$> body s

theorem IgnoresStatus.pure {update : State → State}
    (h : ∀ busy done errf s, update (withStatus busy done errf s) = withStatus busy done errf (update s)) :
    IgnoresStatus fun s => .ok (update s) :=
  fun busy done errf s => congrArg Except.ok (h busy done errf s)

theorem IgnoresStatus.bind {α : Type} {read : State → Except CmdError α} {body : α → State → Except CmdError State}
    (hread : ∀ busy done errf s, read (withStatus busy done errf s) = read s) (hbody : ∀ a, IgnoresStatus (body a)) :
    IgnoresStatus fun s => read s >>= fun a => body a s := by
  intro busy done errf s
  simp only [hread]
  cases read s with
  | ok a => exact hbody a busy done errf s
  | error e => rfl

theorem IgnoresStatus.ite {p : State → Prop} [DecidablePred p] {body : State → Except CmdError State} {e : CmdError}
    (hp : ∀ busy done errf s, p (withStatus busy done errf s) ↔ p s) (hbody : IgnoresStatus body) :
    IgnoresStatus fun s => if p s then body s else .error e := by
  intro busy done errf s
  simp only [hp]
  split
  · exact hbody busy done errf s
  · rfl

theorem emit_ignoresStatus (field : Nat) (v : Bytes) : IgnoresStatus (emit field v) := by
  intro busy done errf s
  unfold emit
  by_cases h : s.olen.toNat + v.length > s.cfg.bufCap
  · rw [if_pos h]
    exact if_pos h
  · rw [if_neg h]
    exact if_neg h

theorem commandBody_ignoresStatus (i : Instr) : IgnoresStatus (commandBody i) := by
  cases i with
  | packLbcd => exact .ite (fun _ _ _ _ => Iff.rfl) fun _ _ _ _ => emit_ignoresStatus _ _ _ _ _ _
  | packRbcd => exact .ite (fun _ _ _ _ => Iff.rfl) fun _ _ _ _ => emit_ignoresStatus _ _ _ _ _ _
  | unpackL n | unpackR n => exact .bind (fun _ _ _ _ => rfl) fun _ => emit_ignoresStatus _ _
  | encLen kind len =>
    exact .bind (fun _ _ _ _ => rfl) fun _ => .bind (fun _ _ _ _ => rfl) fun _ => emit_ignoresStatus _ _
  | decLen kind =>
    exact .bind (fun _ _ _ _ => rfl) fun _ => .bind (fun _ _ _ _ => rfl) fun _ => .pure fun _ _ _ _ => rfl
  | fieldEnc x =>
    exact .bind (fun _ _ _ _ => rfl) fun _ => .bind (fun _ _ _ _ => rfl) fun _ => .bind (fun _ _ _ _ => rfl) fun _ =>
      .bind (fun _ _ _ _ => rfl) fun _ => emit_ignoresStatus _ _
  | fieldDec x =>
    exact .bind (fun _ _ _ _ => rfl) fun _ => .bind (fun _ _ _ _ => rfl) fun _ => .bind (fun _ _ _ _ => rfl) fun _ =>
      .pure fun _ _ _ _ => rfl
  | bmpBuild => exact fun _ _ _ _ => emit_ignoresStatus _ _ _ _ _ _
  | bmpParse | msgDec => exact .bind (fun _ _ _ _ => rfl) fun _ => .pure fun _ _ _ _ => rfl
  | msgEnc => exact .bind (fun _ _ _ _ => rfl) fun _ => emit_ignoresStatus _ _
  | mac => exact .ite (fun _ _ _ _ => Iff.rfl) (.bind (fun _ _ _ _ => rfl) fun _ => emit_ignoresStatus _ _)

/-- So a command ends the same from any of them, its completion writing all three. -/
theorem exec_withStatus (i : Instr) (busy done errf : Bool) (s : State) :
    exec i (withStatus busy done errf s) = exec i s := by
  have hbody := commandBody_ignoresStatus i busy done errf (clearResults s)
  rw [exec_eq_runCommand, exec_eq_runCommand]
  cases hs : commandBody i (clearResults s) with
  | ok t =>
    rw [hs] at hbody
    exact (runCommand_ok (s := withStatus busy done errf s) (t := withStatus busy done errf t) hbody).trans
      (runCommand_ok hs).symm
  | error e =>
    rw [hs] at hbody
    rw [runCommand_error hs]
    refine (runCommand_error (s := withStatus busy done errf s) hbody).trans ?_
    unfold invalidated
    split
    · rfl
    · cases i <;> rfl

theorem exec_clearResults (i : Instr) (s : State) : exec i (clearResults s) = exec i s := by
  simp only [exec_eq_runCommand, runCommand, clearResults_idem]

/-- The completion of a command just started is the command on the state it was started from. -/
theorem complete_startCommand (w : Word) (s : State) :
    complete (startCommand w s) =
      match decode w with
      | .ok i => exec i { s with cmd := w }
      | .error e => illegalWord e { s with cmd := w } := by
  have hstart : startCommand w s = withStatus true false false (clearResults { s with cmd := w }) := rfl
  cases hd : decode w with
  | ok i => rw [complete_of_ok hd, hstart, exec_withStatus, exec_clearResults]
  | error e => exact complete_of_error hd

/-- Settles O8: the write of CMD, then the block's turn on a BUSY block. -/
theorem twoStepLifeCycleIsAtomic : Obligations.TwoStepLifeCycleIsAtomic := by
  intro s w rest hc hidle hp
  have hfirst : step s = .next (startCommand w (withPending (.block :: rest) s)) := by
    rw [step_of_pending_cons hc hp]
    simp [act, hostMove, hostWrite, hidle]
  have hsecond : step (startCommand w (withPending (.block :: rest) s)) =
      complete (startCommand w (withPending rest s)) :=
    (step_of_pending_cons (s := startCommand w (withPending (.block :: rest) s)) hc rfl).trans (blockTurn_of_busy rfl)
  obtain ⟨t, ht⟩ := complete_next (startCommand w (withPending rest s))
  refine Eq.trans ?_ (complete_startCommand w (withPending rest s))
  simp [Host.Core.run, core, hfirst, hsecond, ht]

end Sys2Proof.Machine
end

section
/-! PROOFS. Frames (the access table after spec/10_state.md rule R25) and errors (spec/60_exceptions.md rules R241 to R256): what
an emitting and a decoding command write, what an error clears, which errors a command can raise once its output fits, and
the obligations O44 to O46 and O48. -/

namespace Sys2Proof.Machine

/-! ## Buffers a command leaves alone -/

theorem keepsBytes_ibuf {s t : State} (h : KeepsInputs s t) : KeepsBytes .ibuf 0 s t := fun _ _ => by
  simp only [bufferByte, buffer, h.ibuf, h.resets]

theorem keepsBytes_key {s t : State} (h : KeepsInputs s t) : KeepsBytes .key 0 s t := fun _ _ => by
  simp only [bufferByte, buffer, h.key, h.resets]

theorem keepsBytes_of_obuf {s t : State} (h : KeepsInputs s t) (hobuf : t.obuf = s.obuf) (id : BufferId) :
    KeepsBytes id 0 s t := by
  cases id with
  | ibuf => exact keepsBytes_ibuf h
  | obuf =>
    intro _ _
    simp only [bufferByte, buffer, hobuf, h.resets]
  | key => exact keepsBytes_key h

theorem invalidated_obuf (i : Instr) (e : CmdError) (s : State) :
    (invalidated (commandInvalidate i) e s).obuf = s.obuf := by
  unfold invalidated
  split
  · rfl
  · cases i <;> rfl

/-! ## Commands that emit -/

/-- All that an emitting command can do: emit a byte string that fits from offset 0, or fail and write nothing. -/
theorem exec_emits_cases {i : Instr} {s t : State} (hemits : emits i = true) (h : exec i s = .next t) :
    (∃ v : Bytes, v.length ≤ s.cfg.bufCap ∧
      t = finish { clearResults s with obuf := s.obuf.write 0 v, olen := BitVec.ofNat 32 v.length }) ∨
    (∃ e, t = raiseError e (clearResults s)) := by
  rcases exec_cases h with ⟨u, hu, rfl⟩ | ⟨e, -, rfl⟩
  · cases hu with
    | output v hv hi => exact .inl ⟨v, hv, rfl⟩
    | _ => cases hemits
  · rw [commandInvalidate_of_emits hemits, invalidated_id]
    exact .inr ⟨e, rfl⟩

/-- Settles O44: the bytes written are those below OLEN. -/
theorem outputCommandsFrame : Obligations.OutputCommandsFrame := by
  intro s t n len x hc i hi h
  have hemits : emits i = true := by
    simp only [List.mem_cons, List.not_mem_nil, or_false] at hi
    rcases hi with rfl | rfl | rfl | rfl | rfl | rfl | rfl | rfl | rfl <;> rfl
  have hin := keepsInputs_exec h
  refine ⟨hin, keepsMessage_exec_of_emits hemits h, ?_⟩
  rcases exec_emits_cases hemits h with ⟨v, hv, rfl⟩ | ⟨e, rfl⟩
  · refine ⟨rfl, rfl, keepsBytes_ibuf hin, keepsBytes_key hin, fun a ha => ?_⟩
    have hcap := (configWf_bufCap hc).1
    have hlen : (BitVec.ofNat 32 v.length).toNat = v.length := Nat.mod_eq_of_lt (hv.trans_lt hcap)
    rw [finish_olen, hlen] at ha
    simp [bufferByte, buffer, Memory.get?_write, Nat.not_lt.mpr ha]
  · exact ⟨rfl, rfl, keepsBytes_ibuf hin, keepsBytes_key hin, fun _ _ => rfl⟩

/-! ## Commands that decode -/

theorem exec_of_not_emits {i : Instr} {s t : State} (hemits : emits i = false) (h : exec i s = .next t) :
    t.olen = 0 ∧ t.obuf = s.obuf := by
  rcases exec_cases h with ⟨u, hu, rfl⟩ | ⟨e, -, rfl⟩
  · cases hu with
    | output v hv hi => exact absurd (hi.symm.trans hemits) (by decide)
    | _ => exact ⟨rfl, rfl⟩
  · exact ⟨rfl, invalidated_obuf i e _⟩

theorem keepsMessage_decLen {x : BitVec 8} {s t : State} (h : exec (.decLen x) s = .next t) : KeepsMessage s t := by
  rcases exec_cases h with ⟨u, hu, rfl⟩ | ⟨e, -, rfl⟩
  · cases hu with
    | output v hv hi => cases hi
    | length k n c => exact ⟨rfl, rfl⟩
  · rw [commandInvalidate, invalidated_id]
    · exact ⟨rfl, rfl⟩
    all_goals simp

/-- RES is DEC_LEN's alone. -/
theorem exec_res {i : Instr} {s t : State} (hi : ∀ x, i ≠ .decLen x) (h : exec i s = .next t) : t.res = 0 := by
  rcases exec_cases h with ⟨u, hu, rfl⟩ | ⟨e, -, rfl⟩
  · cases hu with
    | length k n c => exact absurd rfl (hi k)
    | _ => rfl
  · rfl

/-- FIELD_DEC writes at most its slot. -/
theorem fieldDec_msg {x : BitVec 8} {s t : State} (h : exec (.fieldDec x) s = .next t) :
    t.pres = s.pres ∧ (t.msg = s.msg ∨ ∃ y, t.msg = { s.msg with slots := s.msg.slots.put x.toNat y }) := by
  rcases exec_cases h with ⟨u, hu, rfl⟩ | ⟨e, -, rfl⟩
  · cases hu with
    | output v hv hi => cases hi
    | slot x v c hx => exact ⟨rfl, .inr ⟨some v, rfl⟩⟩
  · unfold invalidated
    split
    · exact ⟨rfl, .inl rfl⟩
    · exact ⟨rfl, .inr ⟨none, rfl⟩⟩

theorem bmpParse_msg {s t : State} (h : exec .bmpParse s = .next t) : ∃ b, t.msg = { s.msg with sec := b } := by
  rcases exec_cases h with ⟨u, hu, rfl⟩ | ⟨e, -, rfl⟩
  · cases hu with
    | output v hv hi => cases hi
    | bitmap b indices c => exact ⟨b, rfl⟩
  · unfold invalidated
    split
    · exact ⟨s.msg.sec, rfl⟩
    · exact ⟨false, rfl⟩

theorem msgDec_pres {s t : State} (h : exec .msgDec s = .next t) : t.pres = s.pres := by
  rcases exec_cases h with ⟨u, hu, rfl⟩ | ⟨e, -, rfl⟩
  · cases hu with
    | output v hv hi => cases hi
    | message m c => rfl
  · unfold invalidated
    split <;> rfl

/-- Settles O45, command by command. -/
theorem decodingCommandsFrame : Obligations.DecodingCommandsFrame := by
  intro s t x i hi h
  have hemits : emits i = false := by
    simp only [List.mem_cons, List.not_mem_nil, or_false] at hi
    rcases hi with rfl | rfl | rfl | rfl <;> rfl
  obtain ⟨holen, hobuf⟩ := exec_of_not_emits hemits h
  have hin := keepsInputs_exec h
  refine ⟨hin, holen, keepsBytes_of_obuf hin hobuf, ?_, fun hne => exec_res (fun y => ?_) h, ?_, ?_, ?_⟩
  · rintro rfl
    exact keepsMessage_decLen h
  · rintro rfl
    simp only [List.mem_cons, reduceCtorEq, List.not_mem_nil, or_false] at hi
    exact hne hi
  · rintro rfl
    obtain ⟨hpres, hmsg | ⟨y, hmsg⟩⟩ := fieldDec_msg h
    · simp [hpres, hmsg, fieldSlot]
    · simp only [hpres, hmsg, fieldSlot, true_and]
      exact fun j hj => Slots.get_put_of_ne _ _ hj
  · rintro rfl
    obtain ⟨b, hmsg⟩ := bmpParse_msg h
    simp [hmsg]
  · rintro rfl
    exact msgDec_pres h

/-! ## Destinations of failed commands (R253, R256) -/

theorem Slots.get_put_none (g : Slots) (i : Nat) : (g.put i none).get i = none := by
  by_cases hi : 2 ≤ i ∧ i ≤ 128
  · exact Slots.get_put_self g none hi
  · simp [Slots.get, hi]

/-- Settles O46: a failed command is `raiseError` of its invalidated destination. -/
theorem errorInvalidatesDestination : Obligations.ErrorInvalidatesDestination := by
  intro i s t h herr
  have hin := keepsInputs_exec h
  obtain ⟨e, -, rfl⟩ := exec_failed h herr
  refine ⟨rfl, rfl, rfl, rfl, rfl, rfl, hin, keepsBytes_of_obuf hin (invalidated_obuf i e _), fun hne => ?_, fun heq => ?_⟩
  · have hcode : e.code ≠ .illegalCommand := mt errNumber_eq_thirteen_iff.mpr hne
    rw [invalidated, if_neg hcode]
    refine ⟨?_, ?_, ?_⟩
    · rintro x rfl
      exact Slots.get_put_none _ _
    · rintro rfl
      exact ⟨rfl, rfl⟩
    · rintro rfl
      rfl
  · rw [invalidated, if_pos (errNumber_eq_thirteen_iff.mp heq)]
    exact ⟨rfl, rfl⟩

/-! ## Errors once the output fits (R241 to R253) -/

/-- The codes a command can raise in a well-configured block with ILEN within `BUF_CAP`: `commandCodes` without the Capacity
of the commands whose output is then always short enough. -/
def fittingCodes : Instr → List ErrCode
  | .packLbcd | .packRbcd => [.badBcdDigit]
  | .encLen _ _ => [.valueTooLong, .illegalCommand]
  | .bmpBuild => []
  | .mac => [.invalidKeyLength, .illegalCommand]
  | .unpackL n => commandCodes (.unpackL n)
  | .unpackR n => commandCodes (.unpackR n)
  | .decLen kind => commandCodes (.decLen kind)
  | .fieldEnc x => commandCodes (.fieldEnc x)
  | .fieldDec x => commandCodes (.fieldDec x)
  | .bmpParse => commandCodes .bmpParse
  | .msgEnc => commandCodes .msgEnc
  | .msgDec => commandCodes .msgDec

section

variable {s : State} {codes : List ErrCode}

theorem emit_raises_of_le {field : Nat} {v : Bytes} (hv : v.length ≤ s.cfg.bufCap) :
    Raises codes (emit field v (clearResults s)) :=
  emit_clearResults field hv ▸ raises_ok _

/-- A byte string that fits whenever it is computed adds no error when it is emitted. -/
theorem raises_bind_emit {x : Except CmdError Bytes} {field : Nat} (hx : Raises codes x)
    (hlen : ∀ v, x = .ok v → v.length ≤ s.cfg.bufCap) :
    Raises codes (x >>= fun v => emit field v (clearResults s)) := by
  cases x with
  | ok v => exact emit_raises_of_le (hlen v rfl)
  | error e => exact raises_error (List.contains_iff_mem.mpr (hx.code_mem e rfl))

theorem PacksInput.raises {i : Instr} {pad : LbcdPad} (hi : PacksInput i pad s) (hilen : s.ilen.toNat ≤ s.cfg.bufCap) :
    Raises [.badBcdDigit] (commandBody i (clearResults s)) := by
  have hlen := ceil2_le s.ilen.toNat
  obtain ⟨-, hbody⟩ := hi
  rw [hbody]
  exact .ite (emit_raises_of_le (by rw [packLbcd_length, input_length]; omega)) (raises_error rfl)

theorem encLen_length {mode : Var2Byte0} {kind : FieldKind} {len field : Nat} {v : Bytes}
    (h : encLen mode kind len field = .ok v) : v.length ≤ 2 := by
  unfold encLen at h
  split at h
  next => cases h
  next =>
    cases h
    rw [headerBytes_length]
    exact hdrSize_le kind

theorem macCompute_length {key data v : Bytes} (h : macCompute key data = .ok v) : v.length = 8 := by
  by_cases hkey : key.length = 8
  · rw [macCompute_of_length_eq hkey] at h
    cases h
    exact macText_length ..
  · rw [macCompute_of_length_ne hkey] at h
    cases h

theorem commandBody_raises_of_fits (hc : configWf s.cfg = true) (hilen : s.ilen.toNat ≤ s.cfg.bufCap) (i : Instr) :
    Raises (fittingCodes i) (commandBody i (clearResults s)) := by
  have hcap := (configWf_bufCap hc).2
  cases i with
  | packLbcd => exact (packsInput_packLbcd s).raises hilen
  | packRbcd => exact (packsInput_packRbcd s).raises hilen
  | encLen kind len =>
    rw [fittingCodes]
    exact .bind (kindOperand_raises kind) fun k =>
      raises_bind_emit (encLen_raises ..).mono fun v hv => (encLen_length hv).trans (by omega)
  | bmpBuild =>
    have hsize := bitmapSize_eq_or (presIndices s.pres)
    exact emit_raises_of_le (by rw [bmpBuild_length]; simp only [clearResults_pres]; omega)
  | mac =>
    rw [commandBody_mac]
    exact .ite (raises_bind_emit (macCompute_raises ..).mono fun v hv => (macCompute_length hv).le.trans (by omega))
      (raises_error rfl)
  | _ =>
    rw [fittingCodes]
    exact commandBody_raises ..

end

/-- A number in ERR after a command is that of a code the command can raise. -/
theorem mem_fittingCodes_of_err {i : Instr} {s t : State} (hc : configWf s.cfg = true)
    (hilen : s.ilen.toNat ≤ s.cfg.bufCap) (h : exec i s = .next t) {code : ErrCode} (herr : t.err = errNumber code) :
    code ∈ fittingCodes i := by
  obtain ⟨e, he, rfl⟩ := exec_failed h (herr ▸ errNumber_ne_zero code)
  exact errNumber_injective herr ▸ (commandBody_raises_of_fits hc hilen i).code_mem e he

/-- Settles O48: each code stands in the lists of these commands only. -/
theorem errorsComeFromTheirCommands : Obligations.ErrorsComeFromTheirCommands := by
  intro i s t hc hilen h
  have hcode {code : ErrCode} : t.err = errNumber code → code ∈ fittingCodes i := mem_fittingCodes_of_err hc hilen h
  have h1 := hcode (code := .invalidTpdu)
  have h2 := hcode (code := .invalidHeader)
  have h3 := hcode (code := .invalidMti)
  have h4 := hcode (code := .valueTooLong)
  have h5 := hcode (code := .badBcdDigit)
  have h6 := hcode (code := .parseLengthFailed)
  have h7 := hcode (code := .truncatedMessage)
  have h8 := hcode (code := .undefinedField)
  have h9 := hcode (code := .invalidEncoder)
  have h10 := hcode (code := .invalidHex)
  have h11 := hcode (code := .invalidKeyLength)
  have h12 := hcode (code := .internalCodecError)
  have h13 := hcode (code := .illegalCommand)
  clear hcode h
  cases i <;> simp_all [fittingCodes, commandCodes, encodeCodes, decodeCodes, errNumber]

end Sys2Proof.Machine
end

section
/-! PROOFS. The invariant (spec/10_state.md): what a host move can write, which messages fit the registers, that reset meets the
invariant and every step keeps it, and the obligations O1 to O4, O55 and O56. -/

namespace Sys2Proof.Machine

/-! ## Reset (R38, R280) -/

theorem presBit_zero (i : Nat) : presBit 0 i = false := BitVec.getLsbD_zero

/-- A buffer that lists no byte reads as the free values. -/
theorem bufferByte_of_nil {s : State} {id : BufferId} (h : buffer s id = []) (a : Nat) :
    bufferByte s id a = Config.powerOnByte id s.resets a := by
  simp [bufferByte, h]

theorem statusByte_eq_zero {s : State} (hbusy : s.busy = false) (hdone : s.done = false) (herrf : s.errf = false)
    (hproto : s.proto = false) : statusByte s = 0 := by
  rw [statusByte, hbusy, hdone, herrf, hproto]
  rfl

/-- Settles O1. -/
theorem resetLeavesEmptyIdleBlock : Obligations.ResetLeavesEmptyIdleBlock := fun _ =>
  ⟨rfl, statusByte_eq_zero rfl rfl rfl rfl, ⟨rfl, rfl, rfl, rfl, rfl⟩, rfl, rfl, rfl, rfl, rfl, rfl, fun i _ _ => presBit_zero i,
    rfl, rfl, rfl, Slots.get_empty, fun id a => bufferByte_of_nil (by cases id <;> rfl) a, rfl⟩

/-- Settles O2: the step is `applyReset` on what follows the reset. -/
theorem resetEventAbandonsCommand : Obligations.ResetEventAbandonsCommand := fun s rest hc hp =>
  ⟨applyReset (withPending rest s), step_of_pending_cons hc hp, rfl, statusByte_eq_zero rfl rfl rfl rfl,
    ⟨rfl, rfl, rfl, rfl, rfl⟩, rfl, rfl, rfl, rfl, rfl, rfl, rfl, rfl, rfl, rfl, fun id a => bufferByte_of_nil (by cases id <;> rfl) a⟩

/-! ## What a host move can do (R28, R37) -/

/-- What a host move writes when it is not dropped. -/
inductive HostWrites (s : State) : State → Prop
  | ibuf (bs : Bytes) (h : bs.length ≤ s.cfg.bufCap) :
      HostWrites s { s with ibuf := s.ibuf.write 0 bs, ilen := BitVec.ofNat 32 bs.length }
  | key (bs : Bytes) (hmac : s.cfg.hasMac = true) (h : bs.length ≤ 255) :
      HostWrites s { s with key := s.key.write 0 bs, klen := BitVec.ofNat 8 bs.length }
  | tpdu (x : Bytes) (h : stringFits s.cfg x = true) : HostWrites s { s with msg := { s.msg with tpdu := x } }
  | mti (x : Bytes) (h : stringFits s.cfg x = true) : HostWrites s { s with msg := { s.msg with mti := x } }
  | hdr (x : Option Bytes) (h : headerFits s.cfg x = true) : HostWrites s { s with msg := { s.msg with hdr := x } }
  | slot (i : Nat) (x : Option FieldValue) (h : slotFits s.cfg x = true) : HostWrites s (setFieldSlot i x s)
  | clear : HostWrites s (clearMessage s)
  | command (w : Word) : HostWrites s (startCommand w s)
  | ilen (v : Word) (h : v.toNat ≤ s.cfg.bufCap) : HostWrites s { s with ilen := v }
  | klen (v : BitVec 8) (hmac : s.cfg.hasMac = true) : HostWrites s { s with klen := v }
  | sec (b : Bool) : HostWrites s { s with msg := { s.msg with sec := b } }
  | pres (p : BitVec 128) : HostWrites s { s with pres := p }

/-- All that a host move can do: be dropped with PROTO, answer, or write in IDLE. -/
inductive HostActs (s : State) : State → Prop
  | dropped : HostActs s (setProto s)
  | answered (r : Reply) (n : Nat) : HostActs s { s with reply := r, freeReads := n }
  | written {t : State} (hidle : s.busy = false) (h : HostWrites s t) : HostActs s t

theorem hostActs_hostWrite {s : State} {allowed : Bool} {effect : State → State}
    (h : allowed = true → HostWrites s (effect s)) : HostActs s (hostWrite allowed effect s) := by
  rcases hostWrite_cases allowed effect s with ⟨hidle, hallowed, heq⟩ | ⟨-, heq⟩
  · exact heq ▸ .written hidle (h hallowed)
  · exact heq ▸ .dropped

theorem hostActs_hostRead (s : State) (idle : Reply) (free : Nat → Reply) : HostActs s (hostRead idle free s) := by
  rcases hostRead_cases idle free s with ⟨-, heq⟩ | ⟨-, heq⟩
  · exact heq ▸ .answered idle s.freeReads
  · exact heq ▸ .answered _ _

theorem hostActs_writeReg (n : Nat) (v : Word) (s : State) : HostActs s (writeReg n v s) := by
  unfold writeReg
  split
  case h_1 => exact hostActs_hostWrite fun _ => .command v
  case h_2 => exact hostActs_hostWrite fun h => .ilen v (of_decide_eq_true h)
  case h_3 => exact hostActs_hostWrite fun h => .klen _ ((Bool.and_eq_true _ _).mp h).1
  case h_4 => exact hostActs_hostWrite fun _ => .sec _
  case h_5 | h_6 | h_7 | h_8 => exact hostActs_hostWrite fun _ => .pres _
  case h_9 => exact .dropped

theorem hostActs_hostMove (m : HostMove) (s : State) : HostActs s (hostMove m s) := by
  unfold hostMove
  cases m with
  | writeIBUF bs => exact hostActs_hostWrite fun h => .ibuf bs (of_decide_eq_true h)
  | writeKEY bs =>
    refine hostActs_hostWrite fun h => ?_
    obtain ⟨hmac, hlen⟩ := (Bool.and_eq_true _ _).mp h
    exact .key bs hmac (of_decide_eq_true hlen)
  | setTPDU x => exact hostActs_hostWrite fun h => .tpdu x h
  | setMTI x => exact hostActs_hostWrite fun h => .mti x h
  | setHDR x => exact hostActs_hostWrite fun h => .hdr x h
  | setField i x => exact hostActs_hostWrite fun h => .slot i x ((Bool.and_eq_true _ _).mp h).2
  | clearMsg => exact hostActs_hostWrite fun _ => .clear
  | writeCMD w => exact hostActs_hostWrite fun _ => .command w
  | writeReg n v => exact hostActs_writeReg n v s
  | readReg n =>
    dsimp only
    split
    · exact .answered _ s.freeReads
    · exact hostActs_hostRead ..
  | readOBUF | getField i | getTPDU | getHDR | getMTI => exact hostActs_hostRead ..

theorem HostWrites.cfg {s t : State} (h : HostWrites s t) : t.cfg = s.cfg := by cases h <;> rfl

theorem HostWrites.proto {s t : State} (h : HostWrites s t) : t.proto = s.proto := by cases h <;> rfl

theorem HostActs.cfg {s t : State} (h : HostActs s t) : t.cfg = s.cfg := by
  cases h with
  | dropped | answered => rfl
  | written _ h => exact h.cfg

theorem HostActs.proto {s t : State} (h : HostActs s t) (hs : s.proto = true) : t.proto = true := by
  cases h with
  | dropped => rfl
  | answered => exact hs
  | written _ h => exact h.proto.trans hs

/-! ## What a step can do (R39, R280) -/

/-- All that a step that has a next state can do, each from the state with the rest of the schedule. -/
inductive StepActs (s : State) : State → Prop
  | idle (es : List Event) : StepActs s (withPending es s)
  | host (es : List Event) {t : State} (h : HostActs (withPending es s) t) : StepActs s t
  | command (es : List Event) (i : Instr) {t : State} (h : exec i (withPending es s) = .next t) : StepActs s t
  | illegal (es : List Event) (cause : ErrCause) :
      StepActs s (raiseError { code := .illegalCommand, cause := cause } (clearResults (withPending es s)))
  | reset (rest : List Event) (h : s.pending = .reset :: rest) : StepActs s (applyReset (withPending rest s))

theorem stepActs_blockTurn {s t : State} {es : List Event} (h : blockTurn (withPending es s) = .next t) :
    StepActs s t := by
  rcases blockTurn_cases (withPending es s) with ⟨-, h'⟩ | ⟨i, -, -, h'⟩ | ⟨e, -, -, h'⟩
  · cases h'.symm.trans h
    exact .idle es
  · exact .command es i (h'.symm.trans h)
  · cases h'.symm.trans h
    exact .illegal es (decodeCause e)

theorem stepActs {s t : State} (h : step s = .next t) : StepActs s t := by
  rcases step_cases s with ⟨-, h'⟩ | ⟨-, -, h'⟩ | ⟨e, rest, -, hp, h'⟩
  · cases h'.symm.trans h
  · exact stepActs_blockTurn (es := s.pending) (h'.symm.trans h)
  · rw [h'] at h
    cases e with
    | host m =>
      cases h
      exact .host rest (hostActs_hostMove m _)
    | block => exact stepActs_blockTurn h
    | reset =>
      cases h
      exact .reset rest hp

/-- Settles O55: a host move sets PROTO or keeps it, and a command does not write it. -/
theorem protoIsSticky : Obligations.ProtoIsSticky := by
  intro s t hproto hreset h
  cases stepActs h with
  | idle es => exact hproto
  | host es h => exact h.proto hproto
  | command es i h => exact (keepsInputs_exec h).proto.trans hproto
  | illegal es cause => exact hproto
  | reset rest hp => exact absurd hp (hreset rest)

/-- Settles O56. -/
theorem configurationNeverChanges : Obligations.ConfigurationNeverChanges := by
  intro s t h
  cases stepActs h with
  | idle es | illegal es cause | reset rest hp => rfl
  | host es h => exact h.cfg
  | command es i h => exact (keepsInputs_exec h).cfg

/-! ## Messages within the capacities (R21, R23, R24) -/

/-- The message register file is one the registers can hold. -/
structure MessageFits (c : Config) (m : Message) : Prop where
  slotOne : m.slots[0] = none
  tpdu    : stringFits c m.tpdu = true
  mti     : stringFits c m.mti = true
  hdr     : headerFits c m.hdr = true
  slots   : ∀ i, slotFits c (m.slots.get i) = true

theorem State.Inv.messageFits {s : State} (h : s.Inv) : MessageFits s.cfg s.msg :=
  ⟨h.slotOne, h.tpduFits, h.mtiFits, h.hdrFits, h.slotsFit⟩

/-- Slot 1 is not there to be written (R24). -/
theorem Slots.put_getElem_zero (g : Slots) (i : Nat) (x : Option FieldValue) : (g.put i x)[0] = g[0] := by
  unfold Slots.put
  split
  · rw [Vector.getElem_set_ne]
    omega
  · rfl

theorem slotFits_put {c : Config} {g : Slots} {i : Nat} {x : Option FieldValue} (hx : slotFits c x = true)
    (hg : ∀ j, slotFits c (g.get j) = true) (j : Nat) : slotFits c ((g.put i x).get j) = true := by
  by_cases hj : j = i
  · subst hj
    by_cases hrange : 2 ≤ j ∧ j ≤ 128
    · rwa [Slots.get_put_self g x hrange]
    · rw [Slots.put_out g x hrange]
      exact hg j
  · rw [Slots.get_put_of_ne g x hj]
    exact hg j

theorem MessageFits.put {c : Config} {m : Message} (h : MessageFits c m) {i : Nat} {x : Option FieldValue}
    (hx : slotFits c x = true) : MessageFits c { m with slots := m.slots.put i x } :=
  { h with slotOne := (Slots.put_getElem_zero m.slots i x).trans h.slotOne, slots := slotFits_put hx h.slots }

theorem messageFits_empty (c : Config) : MessageFits c Message.empty :=
  ⟨rfl, decide_eq_true (Nat.zero_le _), decide_eq_true (Nat.zero_le _), rfl, fun i => by rw [Slots.get_empty]; rfl⟩

/-! ## What the decoders give fits (R151, R195) -/

theorem withinValCap_ok {c : Config} {i : Nat} {s r : Bytes} (h : withinValCap c i s = .ok r) :
    r = s ∧ s.length ≤ c.valCap := by
  unfold withinValCap at h
  split at h
  next => cases h
  next hle => exact ⟨(Except.ok.inj h).symm, Nat.le_of_not_lt hle⟩

mutual

theorem valueFits_of_decodeField (c : Config) (i : Nat) : ∀ (depth : Nat) (d : FieldDef) (raw : Bytes) (v : FieldValue)
    (n : Nat), defWf depth d = true → decodeField c i d raw = .ok (v, n) → valueFits c.valCap depth v = true
  | depth, .scalar kind code dl, raw, v, n, _, h => by
    rw [decodeField] at h
    obtain ⟨enc, -, h⟩ := bind_ok.mp h
    obtain ⟨len, -, h⟩ := bind_ok.mp h
    obtain ⟨⟨body, consumed⟩, -, h⟩ := bind_ok.mp h
    obtain ⟨s, -, h⟩ := bind_ok.mp h
    obtain ⟨r, hr, h⟩ := bind_ok.mp h
    cases h
    obtain ⟨rfl, hle⟩ := withinValCap_ok hr
    rw [valueFits]
    exact decide_eq_true hle
  | 0, .composite kind code dl subs, raw, v, n, hd, _ => by
    rw [defWf] at hd
    cases hd
  | depth + 1, .composite kind code dl subs, raw, v, n, hd, h => by
    rw [defWf] at hd
    obtain ⟨-, hsubs⟩ := (Bool.and_eq_true _ _).mp hd
    rw [decodeField] at h
    obtain ⟨enc, -, h⟩ := bind_ok.mp h
    obtain ⟨len, -, h⟩ := bind_ok.mp h
    obtain ⟨⟨body, consumed⟩, -, h⟩ := bind_ok.mp h
    obtain ⟨vs, hvs, h⟩ := bind_ok.mp h
    cases h
    rw [valueFits]
    exact valuesFit_of_decodeSubs c i depth subs body vs hsubs hvs

theorem valuesFit_of_decodeSubs (c : Config) (i : Nat) : ∀ (depth : Nat) (subs : SubDefs) (body : Bytes)
    (vs : FieldValues), subsWf depth subs = true → decodeSubs c i subs body = .ok vs → valuesFit c.valCap depth vs = true
  | depth, .nil, body, vs, _, h => by
    rw [decodeSubs] at h
    cases h
    rw [valuesFit]
  | depth, .cons d ds, body, vs, hd, h => by
    rw [subsWf] at hd
    simp only [Bool.and_eq_true] at hd
    obtain ⟨⟨-, hfirst⟩, hrest⟩ := hd
    rw [decodeSubs] at h
    obtain ⟨⟨v, consumed⟩, hv, h⟩ := bind_ok.mp h
    obtain ⟨vs', hvs, h⟩ := bind_ok.mp h
    cases h
    rw [valuesFit, valueFits_of_decodeField c i depth d body v consumed hfirst hv,
      valuesFit_of_decodeSubs c i depth ds _ vs' hrest hvs]
    rfl

end

/-- A field of the table decodes to a value its slot can hold. -/
theorem slotFits_of_decodeField {c : Config} (hc : configWf c = true) {i j n : Nat} {d : FieldDef} {raw : Bytes}
    {v : FieldValue} (hd : tableEntry c i = .ok d) (h : decodeField c j d raw = .ok (v, n)) :
    slotFits c (some v) = true := by
  obtain ⟨-, -, hwf, -⟩ := lookupDef_wf (configWf_defs hc) (tableEntry_ok hd)
  exact valueFits_of_decodeField c j c.subDepth d raw v n hwf h

theorem slotsFit_of_decodePayloads {c : Config} (hc : configWf c = true) {raw : Bytes} {indices : List Nat}
    {g g' : Slots} {cur cur' : Nat} (hone : g[0] = none) (hg : ∀ j, slotFits c (g.get j) = true)
    (h : decodePayloads c raw indices g cur = .ok (g', cur')) :
    g'[0] = none ∧ ∀ j, slotFits c (g'.get j) = true := by
  induction indices generalizing g cur with
  | nil =>
    cases h
    exact ⟨hone, hg⟩
  | cons i rest ih =>
    obtain ⟨d, hd, h⟩ := bind_ok.mp h
    obtain ⟨⟨v, consumed⟩, hv, h⟩ := bind_ok.mp h
    exact ih ((Slots.put_getElem_zero g i _).trans hone) (slotFits_put (slotFits_of_decodeField hc hd hv) hg) h

theorem stringFits_of_decFixedDigits {c : Config} {bs s : Bytes} {width : Nat}
    (h : decFixedDigits c bs width = .ok s) : stringFits c s = true := by
  unfold decFixedDigits at h
  split at h
  next => cases h
  next =>
    obtain ⟨r, -, h⟩ := bind_ok.mp h
    obtain ⟨rfl, hle⟩ := withinValCap_ok h
    exact decide_eq_true hle

theorem headerFits_of_decHeader {c : Config} {bs : Bytes} {o : Option Bytes} (h : decHeader c bs = .ok o) :
    headerFits c o = true := by
  unfold decHeader at h
  split at h
  next =>
    obtain ⟨s, hs, h⟩ := bind_ok.mp h
    cases h
    exact stringFits_of_decFixedDigits hs
  next =>
    cases h
    rfl

theorem messageFits_of_msgDecode {c : Config} (hc : configWf c = true) {whole : Bytes} {m : Message} {n : Nat}
    (h : msgDecode c whole = .ok (m, n)) : MessageFits c m := by
  obtain ⟨⟨raw, p⟩, -, h⟩ := bind_ok.mp h
  obtain ⟨tpdu, htpdu, h⟩ := bind_ok.mp h
  obtain ⟨hdr, hhdr, h⟩ := bind_ok.mp h
  obtain ⟨mti, hmti, h⟩ := bind_ok.mp h
  obtain ⟨⟨sec, indices, size⟩, -, h⟩ := bind_ok.mp h
  obtain ⟨⟨slots, cur⟩, hslots, h⟩ := bind_ok.mp h
  cases h
  have hempty := messageFits_empty c
  obtain ⟨hone, hfit⟩ := slotsFit_of_decodePayloads hc hempty.slotOne hempty.slots hslots
  exact ⟨hone, stringFits_of_decFixedDigits htpdu, stringFits_of_decFixedDigits hmti, headerFits_of_decHeader hhdr, hfit⟩

/-! ## Commands keep the message within the capacities -/

theorem messageFits_commandBody {i : Instr} {s t : State} (hc : configWf s.cfg = true) (hs : MessageFits s.cfg s.msg)
    (h : commandBody i (clearResults s) = .ok t) : MessageFits s.cfg t.msg := by
  cases i with
  | fieldDec x =>
    obtain ⟨j, -, h⟩ := bind_ok.mp h
    obtain ⟨d, hd, h⟩ := bind_ok.mp h
    obtain ⟨⟨v, n⟩, hv, h⟩ := bind_ok.mp h
    cases h
    exact hs.put (slotFits_of_decodeField hc hd hv)
  | msgDec =>
    obtain ⟨⟨m, n⟩, hm, h⟩ := bind_ok.mp h
    cases h
    exact messageFits_of_msgDecode hc hm
  | _ =>
    have hwrites := commandBody_writes h
    cases hwrites <;> exact { hs with }

theorem messageFits_invalidated (i : Instr) (e : CmdError) {s : State} (hs : MessageFits s.cfg s.msg) :
    MessageFits s.cfg (invalidated (commandInvalidate i) e s).msg := by
  unfold invalidated
  split
  · exact hs
  · cases i with
    | fieldDec x => exact hs.put rfl
    | bmpParse => exact { hs with }
    | msgDec => exact messageFits_empty s.cfg
    | _ => exact hs

/-! ## The invariant -/

/-- What a command leaves meets the invariant when its message fits, its output is written, and ERR is a number of R240. -/
theorem State.Inv.of_keepsInputs {s t : State} (h : s.Inv) (hin : KeepsInputs s t) (hmsg : MessageFits s.cfg t.msg)
    (hwf : t.obuf.wf = true) (hwithin : t.obuf.within s.cfg.bufCap = true) (hcap : t.olen.toNat ≤ s.cfg.bufCap)
    (hwritten : ∀ a, a < t.olen.toNat → (t.obuf.get? a).isSome = true) (hbusy : t.busy = false)
    (herrf : t.errf = (t.err != 0)) (herr : t.err.toNat ≤ 13) : t.Inv where
  config := hin.cfg ▸ h.config
  ibufWf := hin.ibuf ▸ h.ibufWf
  obufWf := hwf
  keyWf := hin.key ▸ h.keyWf
  ibufWithin := by rw [hin.ibuf, hin.cfg]; exact h.ibufWithin
  obufWithin := hin.cfg ▸ hwithin
  keyWithin := hin.key ▸ h.keyWithin
  ilenCap := by rw [hin.ilen, hin.cfg]; exact h.ilenCap
  olenCap := hin.cfg ▸ hcap
  outputWritten := hwritten
  slotOne := hmsg.slotOne
  tpduFits := hin.cfg ▸ hmsg.tpdu
  mtiFits := hin.cfg ▸ hmsg.mti
  hdrFits := hin.cfg ▸ hmsg.hdr
  slotsFit := hin.cfg ▸ hmsg.slots
  busyClear := fun hb => absurd (hb.symm.trans hbusy) (by decide)
  errfTells := herrf
  errRange := herr
  macAbsent := by rw [hin.cfg, hin.key, hin.klen]; exact h.macAbsent

theorem errNumber_le (code : ErrCode) : (errNumber code).toNat ≤ 13 := by cases code <;> decide

theorem inv_raiseError {s u : State} (h : s.Inv) (e : CmdError) (hin : KeepsInputs s (raiseError e u))
    (hmsg : MessageFits s.cfg u.msg) (hobuf : u.obuf = s.obuf) : (raiseError e u).Inv :=
  h.of_keepsInputs hin hmsg (hobuf ▸ h.obufWf) (hobuf ▸ h.obufWithin) (Nat.zero_le _) (fun _ ha => nomatch ha) rfl
    (bne_iff_ne.mpr (errNumber_ne_zero e.code)).symm (errNumber_le e.code)

theorem inv_finish {i : Instr} {s u : State} (h : s.Inv) (hu : commandBody i (clearResults s) = .ok u) :
    (finish u).Inv := by
  have hmsg := messageFits_commandBody h.config h.messageFits hu
  have hwrites := commandBody_writes hu
  have hin := keepsInputs_writes hwrites
  cases hwrites with
  | output v hv hi =>
    have hlen : (BitVec.ofNat 32 v.length).toNat = v.length :=
      Nat.mod_eq_of_lt (hv.trans_lt (configWf_bufCap h.config).1)
    refine h.of_keepsInputs hin hmsg (Memory.wf_write h.obufWf 0 v)
      (Memory.within_write h.obufWithin (by rwa [Nat.zero_add])) (hlen.trans_le hv) (fun a ha => ?_) rfl rfl (Nat.zero_le 13)
    have hlt : a < v.length := hlen ▸ ha
    simp [Memory.get?_write, hlt]
  | _ =>
    exact h.of_keepsInputs hin hmsg h.obufWf h.obufWithin (Nat.zero_le _) (fun _ ha => nomatch ha) rfl rfl (Nat.zero_le 13)

theorem inv_exec {i : Instr} {s t : State} (h : s.Inv) (ht : exec i s = .next t) : t.Inv := by
  rw [exec_eq_runCommand] at ht
  rcases runCommand_cases (commandInvalidate i) (commandBody i) s with ⟨u, hu, h'⟩ | ⟨e, -, h'⟩
  · cases h'.symm.trans ht
    exact inv_finish h hu
  · cases h'.symm.trans ht
    exact inv_raiseError h e (keepsInputs_raiseError i e s) (messageFits_invalidated i e (s := clearResults s) h.messageFits)
      (invalidated_obuf i e _)

/-- The invariant does not speak of PROTO or of the model's own fields but the configuration. -/
theorem State.Inv.port {s : State} (h : s.Inv) (proto : Bool) (pending : List Event) (reply : Reply)
    (freeReads resets : Nat) :
    { s with proto := proto, pending := pending, reply := reply, freeReads := freeReads, resets := resets }.Inv :=
  { h with
    busyClear := fun hb =>
      have ⟨hdone, herrf, ⟨herr, hfield, hdecl, hact, hcause⟩, hresults⟩ := h.busyClear hb
      ⟨hdone, herrf, ⟨herr, hfield, hdecl, hact, hcause⟩, hresults⟩ }

theorem inv_withPending {s : State} (h : s.Inv) (es : List Event) : (withPending es s).Inv :=
  h.port s.proto es s.reply s.freeReads s.resets

theorem inv_hostWrites {s t : State} (h : s.Inv) (hidle : s.busy = false) (ht : HostWrites s t) : t.Inv := by
  have hmsg := h.messageFits
  have busyClear {P : Prop} (hb : s.busy = true) : P := absurd (hb.symm.trans hidle) (by decide)
  cases ht with
  | ibuf bs hle =>
    have hlen : (BitVec.ofNat 32 bs.length).toNat = bs.length :=
      Nat.mod_eq_of_lt (hle.trans_lt (configWf_bufCap h.config).1)
    exact { h with
      busyClear
      ibufWf := Memory.wf_write h.ibufWf 0 bs
      ibufWithin := Memory.within_write h.ibufWithin (by rwa [Nat.zero_add])
      ilenCap := hlen.trans_le hle }
  | key bs hmac hle =>
    exact { h with
      busyClear
      keyWf := Memory.wf_write h.keyWf 0 bs
      keyWithin := Memory.within_write h.keyWithin (by rwa [Nat.zero_add])
      macAbsent := fun hno => absurd (hno.symm.trans hmac) (by decide) }
  | tpdu x hx => exact { h with busyClear, tpduFits := hx }
  | mti x hx => exact { h with busyClear, mtiFits := hx }
  | hdr x hx => exact { h with busyClear, hdrFits := hx }
  | slot i x hx => exact { h with busyClear, slotOne := (hmsg.put hx).slotOne, slotsFit := (hmsg.put hx).slots }
  | clear =>
    have hempty := messageFits_empty s.cfg
    exact { h with
      busyClear, slotOne := hempty.slotOne, tpduFits := hempty.tpdu, mtiFits := hempty.mti, hdrFits := hempty.hdr,
      slotsFit := hempty.slots }
  | command w =>
    exact { h with
      olenCap := Nat.zero_le _
      outputWritten := fun _ ha => nomatch ha
      busyClear := fun _ => ⟨rfl, rfl, ⟨rfl, rfl, rfl, rfl, rfl⟩, rfl, rfl, rfl⟩
      errfTells := rfl
      errRange := Nat.zero_le _ }
  | ilen v hv => exact { h with busyClear, ilenCap := hv }
  | klen v hmac => exact { h with busyClear, macAbsent := fun hno => absurd (hno.symm.trans hmac) (by decide) }
  | sec b => exact { h with busyClear }
  | pres p => exact { h with busyClear }

theorem inv_resetWith {c : Config} (hc : configWf c = true) : (State.resetWith c).Inv where
  config := hc
  ibufWf := rfl
  obufWf := rfl
  keyWf := rfl
  ibufWithin := rfl
  obufWithin := rfl
  keyWithin := rfl
  ilenCap := Nat.zero_le _
  olenCap := Nat.zero_le _
  outputWritten := fun _ ha => nomatch ha
  slotOne := (messageFits_empty c).slotOne
  tpduFits := (messageFits_empty c).tpdu
  mtiFits := (messageFits_empty c).mti
  hdrFits := (messageFits_empty c).hdr
  slotsFit := (messageFits_empty c).slots
  busyClear := fun hb => nomatch hb
  errfTells := rfl
  errRange := Nat.zero_le _
  macAbsent := fun _ => ⟨rfl, rfl⟩

/-- Settles O3; that EX1 is well-formed is a closed fact. -/
theorem invariantHoldsAtReset : Obligations.InvariantHoldsAtReset := ⟨fun _ => inv_resetWith, by decide⟩

/-- Settles O4: a command, a host move and a reset each keep the invariant, and the schedule is no part of it. -/
theorem stepKeepsInvariant : Obligations.StepKeepsInvariant := by
  intro s t h ht
  cases stepActs ht with
  | idle es => exact inv_withPending h es
  | host es hacts =>
    have h' := inv_withPending h es
    cases hacts with
    | dropped => exact h'.port true es s.reply s.freeReads s.resets
    | answered r n => exact h'.port s.proto es r n s.resets
    | written hidle hwrites => exact inv_hostWrites h' hidle hwrites
  | command es i hi => exact inv_exec (inv_withPending h es) hi
  | illegal es cause =>
    have h' := inv_withPending h es
    exact inv_raiseError h' _ (by constructor <;> rfl) h'.messageFits rfl
  | reset rest _ => exact (inv_resetWith h.config).port false rest .none s.freeReads (s.resets + 1)

end Sys2Proof.Machine
end

section
/-! PROOFS. The host's port (spec/10_state.md rules R27 to R29, R32 and R37, spec/60_exceptions.md rules R240 and R262): moves in IDLE
and while BUSY, the register map, PRES by words and as a bitmap, and the obligations O50 to O54 and O57 to O59. -/

namespace Sys2Proof.Machine

/-! ## Moves in IDLE and while BUSY -/

section

variable {s : State} {allowed : Bool} {effect : State → State} {reply : Reply} {free : Nat → Reply}

theorem hostWrite_of_idle (hidle : s.busy = false) (h : allowed = true) : hostWrite allowed effect s = effect s := by
  simp [hostWrite, hidle, h]

theorem hostWrite_of_busy (hbusy : s.busy = true) : hostWrite allowed effect s = setProto s := by
  simp [hostWrite, hbusy]

theorem hostWrite_of_not_allowed (h : allowed = false) : hostWrite allowed effect s = setProto s := by
  simp [hostWrite, h]

theorem hostRead_of_idle (hidle : s.busy = false) : hostRead reply free s = { s with reply := reply } := by
  simp [hostRead, hidle]

theorem hostRead_of_busy (hbusy : s.busy = true) :
    ∃ r, hostRead reply free s = { s with reply := r, freeReads := s.freeReads + 1 } :=
  ⟨_, if_pos hbusy⟩

end

theorem writeReg_of_busy {s : State} (hbusy : s.busy = true) (n : Nat) (v : Word) : writeReg n v s = setProto s := by
  unfold writeReg
  split
  case h_9 => rfl
  all_goals exact hostWrite_of_busy hbusy

theorem readReg_of_idle {s : State} (hidle : s.busy = false) (n : Nat) :
    hostMove (.readReg n) s = { s with reply := .word (readReg s n) } := by
  unfold hostMove
  by_cases hn : n = 1
  · exact if_pos hn
  · exact (if_neg hn).trans (hostRead_of_idle hidle)

theorem statusByte_toNat (s : State) :
    (statusByte s).toNat = s.busy.toNat + 2 * s.done.toNat + 4 * s.errf.toNat + 8 * s.proto.toNat := by
  have key : ∀ proto errf done busy : Bool,
      (0#4 ++ BitVec.ofBool proto ++ BitVec.ofBool errf ++ BitVec.ofBool done ++ BitVec.ofBool busy).toNat =
        busy.toNat + 2 * done.toNat + 4 * errf.toNat + 8 * proto.toNat := by decide
  exact key s.proto s.errf s.done s.busy

/-- A narrower register in a word of the port has its own value. -/
theorem setWidth_word_toNat {w : Nat} (hw : w ≤ 32) (x : BitVec w) : (x.setWidth 32).toNat = x.toNat :=
  BitVec.toNat_setWidth_of_le hw

/-- Settles O50: either move is `startCommand`. -/
theorem writeCmdStartsCommand : Obligations.WriteCmdStartsCommand := fun s w hidle =>
  ⟨startCommand w s, hostWrite_of_idle hidle rfl, hostWrite_of_idle hidle rfl, rfl, rfl, rfl, rfl, rfl,
    ⟨rfl, rfl, rfl, rfl, rfl⟩, rfl, rfl, rfl, ⟨rfl, rfl⟩, fun id _ _ => by cases id <;> rfl, rfl, rfl, rfl⟩

/-- Settles O51: the read of STATUS, the other reads, and the writes. -/
theorem busyHostAccessIsDropped : Obligations.BusyHostAccessIsDropped := by
  intro s m hbusy
  unfold hostMove
  refine ⟨?_, ?_, ?_⟩
  · rintro rfl
    refine ⟨readReg s 1, rfl, ?_⟩
    exact (setWidth_word_toNat (by decide) _).trans ((statusByte_toNat s).trans (by rw [hbusy]; rfl))
  · rintro (hm | ⟨i, rfl⟩ | ⟨n, hn, rfl⟩)
    · simp only [List.mem_cons, List.not_mem_nil, or_false] at hm
      rcases hm with rfl | rfl | rfl | rfl <;> exact hostRead_of_busy hbusy
    · exact hostRead_of_busy hbusy
    · obtain ⟨r, hr⟩ := hostRead_of_busy hbusy
      exact ⟨r, (if_neg hn).trans hr⟩
  · rintro (rfl | ⟨bs, hm⟩ | ⟨o, rfl⟩ | ⟨i, x, rfl⟩ | ⟨n, v, rfl⟩ | ⟨w, rfl⟩)
    · exact hostWrite_of_busy hbusy
    · simp only [List.mem_cons, List.not_mem_nil, or_false] at hm
      rcases hm with rfl | rfl | rfl | rfl <;> exact hostWrite_of_busy hbusy
    · exact hostWrite_of_busy hbusy
    · exact hostWrite_of_busy hbusy
    · exact writeReg_of_busy hbusy n v
    · exact hostWrite_of_busy hbusy

/-! ## Buffers (R37) -/

/-- The bytes just written from offset 0. -/
theorem bufferBytes_of_write {t : State} {id : BufferId} {m : Memory} {bs : Bytes} (h : buffer t id = m.write 0 bs) :
    bufferBytes t id 0 bs.length = bs := by
  refine List.ext_getElem (bufferBytes_length ..) fun k _ hk => ?_
  simp [bufferBytes, bufferByte, h, Memory.get?_write, hk]

/-- The bytes behind them are kept. -/
theorem keepsBytes_of_write {s t : State} {id : BufferId} {bs : Bytes} (h : buffer t id = (buffer s id).write 0 bs)
    (hresets : t.resets = s.resets) : KeepsBytes id bs.length s t := by
  intro a ha
  simp [bufferByte, h, hresets, Memory.get?_write, Nat.not_lt.mpr ha]

/-- Settles O52: each write stores from offset 0 and sets its length, or is dropped. -/
theorem hostBufferWrites : Obligations.HostBufferWrites := by
  intro s bs hc hidle
  unfold hostMove
  refine ⟨fun hlen => ?_, fun hlen => ?_, fun hmac hlen => ?_, fun h => ?_⟩
  · have hilen : (BitVec.ofNat 32 bs.length).toNat = bs.length :=
      Nat.mod_eq_of_lt (hlen.trans_lt (configWf_bufCap hc).1)
    refine ⟨_, hostWrite_of_idle hidle (decide_eq_true hlen), ?_, hilen, keepsBytes_of_write rfl rfl,
      fun _ _ => rfl, fun _ _ => rfl, ⟨rfl, rfl⟩, rfl⟩
    exact (congrArg (bufferBytes _ .ibuf 0) hilen).trans (bufferBytes_of_write rfl)
  · exact hostWrite_of_not_allowed (decide_eq_false (Nat.not_le.mpr hlen))
  · have hklen : (BitVec.ofNat 8 bs.length).toNat = bs.length := Nat.mod_eq_of_lt (Nat.lt_succ_of_le hlen)
    refine ⟨_, hostWrite_of_idle hidle (by simp [hmac, hlen]), ?_, hklen, keepsBytes_of_write rfl rfl,
      fun _ _ => rfl, fun _ _ => rfl, ⟨rfl, rfl⟩, rfl⟩
    exact (congrArg (bufferBytes _ .key 0) hklen).trans (bufferBytes_of_write rfl)
  · refine hostWrite_of_not_allowed ?_
    rcases h with hmac | hlen
    · simp [hmac]
    · simp [hlen]

/-! ## Message registers (R21, R24, R37) -/

/-- Settles O53: the slot written reads back, the others are kept, and there is no slot 1. -/
theorem hostSlotWrites : Obligations.HostSlotWrites := by
  refine fun s i x hidle => ⟨fun htwo h128 hx => ?_, fun h => ?_, Slots.get_one _⟩
  · refine ⟨setFieldSlot i x s, hostWrite_of_idle hidle (by simp [htwo, h128, nFields, hx]), ?_, fun j hj => ?_, rfl, rfl,
      rfl, rfl, rfl, rfl⟩
    · exact Slots.get_put_self _ x ⟨htwo, h128⟩
    · exact Slots.get_put_of_ne _ x hj
  · refine hostWrite_of_not_allowed ?_
    rcases h with h | h | h
    · simp [Nat.not_le.mpr h]
    · simp [nFields, Nat.not_le.mpr h]
    · simp [h]

/-- Settles O54, move by move. -/
theorem hostMessageMoves : Obligations.HostMessageMoves := by
  intro s x i hidle
  unfold hostMove
  refine ⟨fun hx => ?_, fun hx m hm => ?_, hostWrite_of_idle hidle rfl,
    ⟨Message.empty, hostWrite_of_idle hidle rfl, rfl, rfl, rfl, rfl, Slots.get_empty⟩, hostRead_of_idle hidle,
    hostRead_of_idle hidle, hostRead_of_idle hidle, hostRead_of_idle hidle, hostRead_of_idle hidle⟩
  · have hfits : stringFits s.cfg x = true := decide_eq_true hx
    exact ⟨hostWrite_of_idle hidle hfits, hostWrite_of_idle hidle hfits, hostWrite_of_idle hidle hfits⟩
  · have hfits : stringFits s.cfg x = false := decide_eq_false (Nat.not_le.mpr hx)
    simp only [List.mem_cons, List.not_mem_nil, or_false] at hm
    rcases hm with rfl | rfl | rfl <;> exact hostWrite_of_not_allowed hfits

/-! ## PRES (R32) -/

/-- Index `i` in its word. -/
theorem presBit_eq_presWord (p : BitVec 128) {i : Nat} (h1 : 1 ≤ i) (h128 : i ≤ 128) :
    presBit p i = (presWord p ((i - 1) / 32)).getLsbD (31 - (i - 1) % 32) := by
  have hplace : 96 - 32 * ((i - 1) / 32) + (31 - (i - 1) % 32) = 128 - i := by omega
  have hlt : 31 - (i - 1) % 32 < 32 := by omega
  simp only [presBit, presWord, BitVec.getLsbD_extractLsb', hplace, hlt, decide_true, Bool.true_and]

/-- A write of one word sets its indices and no other. -/
theorem presBit_setPresWord (p : BitVec 128) {k i : Nat} (v : Word) (hk : k < 4) (h1 : 1 ≤ i) (h128 : i ≤ 128) :
    presBit (setPresWord p k v) i =
      if (i - 1) / 32 = k then v.getLsbD (31 - (i - 1) % 32) else presBit p i := by
  have hmask : 0xFFFFFFFF#128 = (BitVec.allOnes 32).setWidth 128 := by decide
  have hlt : 128 - i < 128 := by omega
  simp only [presBit, setPresWord, hmask, BitVec.getLsbD_or, BitVec.getLsbD_and, BitVec.getLsbD_not,
    BitVec.getLsbD_shiftLeft, BitVec.getLsbD_setWidth, BitVec.getLsbD_allOnes, hlt, decide_true, Bool.true_and]
  by_cases hword : (i - 1) / 32 = k
  · have hge : ¬128 - i < 96 - 32 * k := by omega
    have hplace : 128 - i - (96 - 32 * k) = 31 - (i - 1) % 32 := by omega
    have hin : 31 - (i - 1) % 32 < 32 := by omega
    have hin' : 31 - (i - 1) % 32 < 128 := by omega
    simp [hword, hge, hplace, hin, hin']
  · by_cases hbelow : 128 - i < 96 - 32 * k
    · simp [hword, hbelow]
    · have hout : ¬128 - i - (96 - 32 * k) < 32 := by omega
      simp [hword, hbelow, hout, BitVec.getLsbD_of_ge v _ (Nat.not_lt.mp hout)]

/-- PRES cut into sixteen bytes is laid out as a bitmap. -/
theorem bitmapBit_of_presBytes {p : BitVec 128} {bm : Bytes} (h : ∀ b, b < 16 → bm.getD b 0 = p.extractLsb' (120 - 8 * b) 8)
    {i : Nat} (h1 : 1 ≤ i) (h128 : i ≤ 128) : bitmapBit bm i = presBit p i := by
  have hplace : 120 - 8 * ((i - 1) / 8) + (7 - (i - 1) % 8) = 128 - i := by omega
  have hlt : 7 - (i - 1) % 8 < 8 := by omega
  rw [bitmapBit, h _ (by omega)]
  simp only [presBit, BitVec.getLsbD_extractLsb', hplace, hlt, decide_true, Bool.true_and]

/-- Settles O57. -/
theorem presWordLayout : Obligations.PresWordLayout := by
  intro s k i v hk h1 h128 hidle
  have hread : readReg s (0x10 + k) = presWord s.pres k := by interval_cases k <;> rfl
  have hwrite : writeReg (0x10 + k) v s = hostWrite true (fun t => { t with pres := setPresWord t.pres k v }) s := by
    interval_cases k <;> rfl
  refine ⟨presBit_eq_presWord s.pres h1 h128, ?_, ?_, fun bm _ h => bitmapBit_of_presBytes h h1 h128⟩
  · rw [readReg_of_idle hidle, hread]
  · have hmove : hostMove (.writeReg (0x10 + k) v) s = { s with pres := setPresWord s.pres k v } :=
      hwrite.trans (hostWrite_of_idle hidle rfl)
    rw [hmove]
    exact presBit_setPresWord s.pres v hk h1 h128

/-! ## The register map (R28) -/

/-- A number outside the list of R28. -/
theorem unlistedReg {n : Nat} (hn : n ∉ List.range 0x0D ++ [0x10, 0x11, 0x12, 0x13]) (s : State) (v : Word) :
    readReg s n = 0 ∧ writeReg n v s = setProto s := by
  simp only [List.mem_append, List.mem_range, List.mem_cons, List.not_mem_nil, or_false, not_or] at hn
  obtain ⟨hrange, hpres⟩ := hn
  constructor
  · unfold readReg
    split
    case h_18 => rfl
    all_goals omega
  · unfold writeReg
    split
    case h_9 => rfl
    all_goals omega

/-- Settles O58: STATUS, the reads, and the writes of ILEN, KLEN, SEC and of what cannot be written. -/
theorem registerMap : Obligations.RegisterMap := by
  refine ⟨statusByte_toNat, fun s v hidle => ?_⟩
  have hwrite (n : Nat) : hostMove (.writeReg n v) s = writeReg n v s := rfl
  simp only [hwrite]
  refine ⟨readReg_of_idle hidle, rfl, ?_, ?_, ?_, ?_, ?_,
    fun n hn => unlistedReg hn s v, fun n hn => ?_, fun hv => ?_, fun hv => ?_, fun hmac hv => ?_, fun hmac => ?_,
    fun hv => ?_⟩
  · simp only [List.map_cons, List.map_nil, readReg, setWidth_word_toNat (show 8 ≤ 32 by decide)]
  · exact setWidth_word_toNat (by decide) _
  · exact setWidth_word_toNat (by decide) _
  · rw [readReg]
    split
    · exact setWidth_word_toNat (by decide) _
    · rfl
  · rw [readReg]
    cases s.msg.sec <;> rfl
  · simp only [List.mem_cons, List.not_mem_nil, or_false] at hn
    rcases hn with rfl | rfl | rfl | rfl | rfl | rfl | rfl | rfl | rfl <;> rfl
  · rw [writeReg]
    exact hostWrite_of_idle hidle (decide_eq_true hv)
  · rw [writeReg]
    exact hostWrite_of_not_allowed (decide_eq_false (Nat.not_le.mpr hv))
  · rw [writeReg]
    exact hostWrite_of_idle hidle (by simp [hmac, hv])
  · rw [writeReg]
    exact hostWrite_of_not_allowed (by simp [hmac])
  · have hbit : v.getLsbD 0 = decide (v.toNat = 1) := by
      rw [BitVec.getLsbD, Nat.testBit_zero, Nat.mod_eq_of_lt (Nat.lt_succ_of_le hv)]
    rw [← hbit, writeReg]
    exact hostWrite_of_idle hidle (decide_eq_true hv)

/-- Settles O59, code by code and cause by cause. -/
theorem errorCodesAndCausesAreNumbered : Obligations.ErrorCodesAndCausesAreNumbered :=
  ⟨fun code => by cases code <;> rfl, fun cause => by cases cause <;> rfl⟩

end Sys2Proof.Machine
end

section
/-! PROOFS. Fields and their errors (spec/42_field_codec.md rules R140 to R153): the arguments of the errors encoding and decoding
raise, the size of an encoded `Fixed` field, FIELD_ENC of composites and what it refuses by the table, a trailing zero of MAC
(spec/45_mac.md rule R225), and the obligations O26, O27 and O43. -/

namespace Sys2Proof.Machine

/-! ## MAC (R222, R225) -/

/-- Inside the last block, a zero byte more is one pad byte less. -/
theorem macPad_append_zero {data : Bytes} (h : data.length % 8 ≠ 0) : macPad (data ++ [0]) = macPad data := by
  have hpad : (8 - data.length % 8) % 8 = (8 - (data.length + 1) % 8) % 8 + 1 := by omega
  simp [macPad, hpad, List.replicate_succ]

/-- Settles O43. -/
theorem macIgnoresTrailingZero : Obligations.MacIgnoresTrailingZero := by
  intro cipher key data h
  simp only [macComputeWith, macPad_append_zero h]

/-! ## The arguments of an error (R10, R240) -/

/-- Every error the computation can raise is about field `i`, with lengths the error registers hold. -/
structure ErrorsFit {α : Type} (i : Nat) (x : Except CmdError α) : Prop where
  bounds : ∀ e, x = .error e → e.field = i ∧ e.declared < 65536 ∧ e.actual < 2 ^ 32

section

variable {α β : Type} {i : Nat}

theorem errorsFit_ok (a : α) : ErrorsFit i (.ok a : Except CmdError α) := ⟨fun _ h => nomatch h⟩

theorem errorsFit_error {e : CmdError} (hfield : e.field = i) (hdeclared : e.declared < 65536)
    (hactual : e.actual < 2 ^ 32) : ErrorsFit i (.error e : Except CmdError α) :=
  ⟨fun _ h => Except.error.inj h ▸ ⟨hfield, hdeclared, hactual⟩⟩

/-- An error without lengths. -/
theorem errorsFit_field {e : CmdError} (hfield : e.field = i) (hdeclared : e.declared = 0) (hactual : e.actual = 0) :
    ErrorsFit i (.error e : Except CmdError α) :=
  errorsFit_error hfield (hdeclared ▸ Nat.zero_lt_succ _) (hactual ▸ Nat.two_pow_pos 32)

theorem ErrorsFit.bind {x : Except CmdError α} {f : α → Except CmdError β} (hx : ErrorsFit i x)
    (hf : ∀ a, x = .ok a → ErrorsFit i (f a)) : ErrorsFit i (x >>= f) :=
  ⟨fun e he => (bind_error.mp he).elim (hx.bounds e) fun ⟨a, ha, hfa⟩ => (hf a ha).bounds e hfa⟩

theorem ErrorsFit.ite {p : Prop} [Decidable p] {x y : Except CmdError α} (hx : p → ErrorsFit i x) (hy : ¬p → ErrorsFit i y) :
    ErrorsFit i (if p then x else y) := by
  split
  next h => exact hx h
  next h => exact hy h

end

theorem supportedEncoding_errorsFit (i : Nat) (code : BitVec 8) : ErrorsFit i (supportedEncoding i code) := by
  unfold supportedEncoding
  split
  · exact errorsFit_ok _
  · exact errorsFit_field rfl rfl rfl

/-! ## Decoding a field (R148 to R151) -/

theorem unpackNibbles_errorsFit (bs : Bytes) (n i : Nat) : ErrorsFit i (unpackNibbles bs n i) :=
  .ite (fun _ => errorsFit_field rfl rfl rfl) fun _ =>
    .ite (fun _ => errorsFit_ok _) fun _ => errorsFit_field rfl rfl rfl

theorem unpackL_errorsFit (pad : LbcdPad) (bs : Bytes) (n i : Nat) : ErrorsFit i (unpackL pad bs n i) := by
  have h := unpackNibbles_errorsFit bs n i
  unfold unpackL
  split
  next e he => exact ⟨fun _ he' => Except.error.inj he' ▸ h.bounds e he⟩
  next => exact errorsFit_ok _

theorem fieldLength_errorsFit (i : Nat) (kind : FieldKind) (dl : Nat) (raw : Bytes) :
    ErrorsFit i (fieldLength i kind dl raw) :=
  .ite (fun _ => errorsFit_ok _) fun _ => .ite (fun _ => errorsFit_field rfl rfl rfl) fun _ =>
    .ite (fun _ => errorsFit_ok _) fun _ => errorsFit_field rfl rfl rfl

theorem fieldBody_errorsFit (i : Nat) (kind : FieldKind) (enc : ByteEncoding) (len : Nat) (raw : Bytes) :
    ErrorsFit i (fieldBody i kind enc len raw) :=
  .ite (fun _ => errorsFit_field rfl rfl rfl) fun _ => errorsFit_ok _

theorem decodeBody_errorsFit (c : Config) (i : Nat) (enc : ByteEncoding) (len : Nat) (body : Bytes) :
    ErrorsFit i (decodeBody c i enc len body) := by
  cases enc with
  | ascii => exact errorsFit_ok _
  | binary => exact errorsFit_ok _
  | bcd => exact unpackL_errorsFit ..
  | rbcd => exact unpackL_errorsFit .leading ..

theorem withinValCap_errorsFit (c : Config) (i : Nat) (s : Bytes) : ErrorsFit i (withinValCap c i s) :=
  .ite (fun _ => errorsFit_field rfl rfl rfl) fun _ => errorsFit_ok _

mutual

theorem decodeField_errorsFit (c : Config) (i : Nat) : ∀ (d : FieldDef) (raw : Bytes),
    ErrorsFit i (decodeField c i d raw)
  | .scalar kind code dl, raw => by
    rw [decodeField]
    exact .bind (supportedEncoding_errorsFit ..) fun _ _ =>
      .bind (fieldLength_errorsFit ..) fun _ _ =>
      .bind (fieldBody_errorsFit ..) fun _ _ =>
      .bind (decodeBody_errorsFit ..) fun _ _ =>
      .bind (withinValCap_errorsFit ..) fun _ _ => errorsFit_ok _
  | .composite kind code dl subs, raw => by
    rw [decodeField]
    exact .bind (supportedEncoding_errorsFit ..) fun _ _ =>
      .bind (fieldLength_errorsFit ..) fun _ _ =>
      .bind (fieldBody_errorsFit ..) fun ⟨body, _⟩ _ =>
      .bind (decodeSubs_errorsFit c i subs body) fun _ _ => errorsFit_ok _

theorem decodeSubs_errorsFit (c : Config) (i : Nat) : ∀ (subs : SubDefs) (body : Bytes),
    ErrorsFit i (decodeSubs c i subs body)
  | .nil, _ => errorsFit_ok _
  | .cons d ds, body => by
    rw [decodeSubs]
    exact .bind (decodeField_errorsFit c i d body) fun ⟨_, consumed⟩ _ =>
      .bind (decodeSubs_errorsFit c i ds (body.drop consumed)) fun _ _ => errorsFit_ok _

end

/-! ## Encoding a scalar (R141 to R144) -/

theorem lengthDeclared_of_checkByteCount {i : Nat} {kind : FieldKind} {dl n : Nat} {u : Unit}
    (h : checkByteCount i kind dl n = .ok u) : LengthDeclared kind dl n := by
  unfold checkByteCount at h
  split at h
  next => cases h
  next hle =>
    split at h
    next => cases h
    next hfixed =>
      unfold LengthDeclared
      split
      next hkind => exact Nat.le_antisymm (Nat.not_lt.mp hle) (Nat.not_lt.mp fun hlt => hfixed ⟨hkind, hlt⟩)
      next => exact Nat.not_lt.mp hle

theorem lengthDeclared_of_fitNumeric {enc : ByteEncoding} {kind : FieldKind} {dl i : Nat} {v w : Bytes}
    (h : fitNumeric enc kind dl i v = .ok w) : LengthDeclared kind dl w.length := by
  rw [fitNumeric_eq] at h
  unfold LengthDeclared
  split at h
  next hcarved =>
    cases h
    have hlen : v.tail.length = dl := by rw [List.length_tail, hcarved.2.1, Nat.add_sub_cancel]
    split
    · exact hlen
    · exact hlen.le
  next =>
    split at h
    next => cases h
    next hle =>
      split at h
      next hkind =>
        cases h
        rw [if_pos hkind, List.length_append, List.length_replicate]
        omega
      next hkind =>
        cases h
        rw [if_neg hkind]
        exact Nat.not_lt.mp hle

theorem encodeNumeric_ok {enc : ByteEncoding} {pack : Bytes → Bytes} {i : Nat} {kind : FieldKind} {dl n : Nat} {s body : Bytes}
    (h : encodeNumeric enc pack i kind dl s = .ok (n, body)) :
    ∃ w, n = w.length ∧ body = pack w ∧ LengthDeclared kind dl w.length := by
  obtain ⟨w, hw, h⟩ := bind_ok.mp h
  split at h
  next =>
    cases h
    exact ⟨w, rfl, rfl, lengthDeclared_of_fitNumeric hw⟩
  next => cases h

/-- A scalar that encodes has a logical length its definition allows and the body size of that length. -/
theorem encodeScalar_ok {c : Config} {i : Nat} {kind : FieldKind} {enc : ByteEncoding} {dl n : Nat} {s body : Bytes}
    (h : encodeScalar c i kind enc dl s = .ok (n, body)) : LengthDeclared kind dl n ∧ body.length = bodySize n enc := by
  cases enc with
  | ascii =>
    obtain ⟨u, hu, h⟩ := bind_ok.mp h
    cases h
    exact ⟨lengthDeclared_of_checkByteCount hu, rfl⟩
  | binary =>
    rw [encodeScalar, encodeBinary] at h
    split at h
    next => cases h
    next =>
      obtain ⟨u, hu, h⟩ := bind_ok.mp h
      cases h
      exact ⟨lengthDeclared_of_checkByteCount hu, hexdec_length s⟩
  | bcd =>
    obtain ⟨w, rfl, rfl, hw⟩ := encodeNumeric_ok h
    exact ⟨hw, packNumeric_length c false w⟩
  | rbcd =>
    obtain ⟨w, rfl, rfl, hw⟩ := encodeNumeric_ok h
    exact ⟨hw, packNumeric_length c true w⟩

theorem checkByteCount_errorsFit (i : Nat) (kind : FieldKind) {dl n : Nat} (hdl : dl < 65536) (hn : n < 2 ^ 32) :
    ErrorsFit i (checkByteCount i kind dl n) :=
  .ite (fun _ => errorsFit_error rfl hdl hn) fun _ => .ite (fun _ => errorsFit_error rfl hdl hn) fun _ => errorsFit_ok _

theorem encodeNumeric_errorsFit (enc : ByteEncoding) (pack : Bytes → Bytes) (i : Nat) (kind : FieldKind) {dl : Nat}
    {s : Bytes} (hdl : dl < 65536) (hs : s.length < 2 ^ 32) : ErrorsFit i (encodeNumeric enc pack i kind dl s) := by
  have hfit : ErrorsFit i (fitNumeric enc kind dl i s) := by
    rw [fitNumeric_eq]
    exact .ite (fun _ => errorsFit_ok _) fun _ => .ite (fun _ => errorsFit_error rfl hdl hs) fun _ =>
      .ite (fun _ => errorsFit_ok _) fun _ => errorsFit_ok _
  exact .bind hfit fun _ _ => .ite (fun _ => errorsFit_ok _) fun _ => errorsFit_field rfl rfl rfl

theorem encodeScalar_errorsFit (c : Config) (i : Nat) (kind : FieldKind) (enc : ByteEncoding) {dl : Nat} {s : Bytes}
    (hdl : dl < 65536) (hs : s.length < 2 ^ 32) : ErrorsFit i (encodeScalar c i kind enc dl s) := by
  cases enc with
  | ascii => exact .bind (checkByteCount_errorsFit i kind hdl hs) fun _ _ => errorsFit_ok _
  | binary =>
    exact .ite (fun _ => errorsFit_field rfl rfl rfl) fun _ =>
      .bind (checkByteCount_errorsFit i kind hdl ((Nat.div_le_self ..).trans_lt hs)) fun _ _ => errorsFit_ok _
  | bcd => exact encodeNumeric_errorsFit _ _ i kind hdl hs
  | rbcd => exact encodeNumeric_errorsFit _ _ i kind hdl hs

/-! ## Encoding a field (R140, R146) -/

theorem lenMax_lt (kind : FieldKind) : lenMax kind < 65536 := by cases kind <;> decide

theorem valueCount_eq : ∀ vs : FieldValues, valueCount vs = (valuesList vs).length
  | .nil => rfl
  | .cons _ vs => congrArg (· + 1) (valueCount_eq vs)

theorem subCount_eq : ∀ subs : SubDefs, subCount subs = (subsList subs).length
  | .nil => rfl
  | .cons _ ds => congrArg (· + 1) (subCount_eq ds)

/-- A composite value with one child per sub-field: the children's bytes behind the header that counts them. -/
theorem encodeField_composite {code : BitVec 8} {enc : ByteEncoding} (henc : encodingOf? code = some enc) {subs : SubDefs}
    {vs : FieldValues} (hcount : valueCount vs = subCount subs) (c : Config) (i : Nat) (kind : FieldKind) (dl : Nat) :
    encodeField c i (.composite kind code dl subs) (.composite vs) =
      encodeSubs c i subs vs >>= fun body => withHeader c i kind body.length body := by
  simp [encodeField, supportedEncoding_of_some i henc, hcount]

/-- What R31 (c) gives for the first sub-field and the others. -/
theorem subsWf_cons {depth : Nat} {d : FieldDef} {ds : SubDefs} (h : subsWf depth (.cons d ds) = true) :
    defKind d = .fixed ∧ (defEnc d).toNat ≤ 3 ∧ defWf depth d = true ∧ subsWf depth ds = true := by
  simp only [subsWf, Bool.and_eq_true, decide_eq_true_eq] at h
  obtain ⟨⟨⟨hkind, henc⟩, hd⟩, hds⟩ := h
  exact ⟨hkind, henc, hd, hds⟩

/-- What R31 gives for a composite definition. -/
theorem subsWf_of_defWf {depth : Nat} {kind : FieldKind} {code : BitVec 8} {dl : Nat} {subs : SubDefs}
    (h : defWf (depth + 1) (.composite kind code dl subs) = true) : subsWf depth subs = true := by
  simp only [defWf, Bool.and_eq_true] at h
  exact h.2

mutual

/-- A `Fixed` field that encodes has the size of its definition (R31 (e)). -/
theorem defSize_of_encodeField (c : Config) (i : Nat) : ∀ (depth : Nat) (d : FieldDef) (v : FieldValue) (bs : Bytes),
    defWf depth d = true → defKind d = .fixed → encodeField c i d v = .ok bs → defSize? d = some bs.length
  | depth, .scalar kind code dl, .scalar s, bs, hd, hkind, h => by
    rw [encodeField] at h
    obtain ⟨enc, henc, h⟩ := bind_ok.mp h
    obtain ⟨⟨n, body⟩, hbody, h⟩ := bind_ok.mp h
    obtain ⟨hn, hsize⟩ := encodeScalar_ok hbody
    cases hkind
    cases (if_pos rfl).symm.trans h
    have henc' : encodingOf? code = some enc := by
      unfold supportedEncoding at henc
      split at henc
      next heq => cases henc; exact heq
      next => cases henc
    rw [hsize, (if_pos rfl).mp hn]
    exact congrArg (Option.map (bodySize dl)) henc'
  | depth + 1, .composite kind code dl subs, .composite vs, bs, hd, hkind, h => by
    rw [encodeField] at h
    obtain ⟨_, -, h⟩ := bind_ok.mp h
    split at h
    next => cases h
    next =>
      obtain ⟨body, hbody, h⟩ := bind_ok.mp h
      cases hkind
      cases (if_pos rfl).symm.trans h
      have hsize := subsSize_of_encodeSubs c i depth subs vs bs (subsWf_of_defWf hd) hbody
      obtain ⟨-, hcode, hlen⟩ := defWf_composite hd hsize
      obtain ⟨enc, henc, hbytes⟩ := encodingOf?_of_le_one hcode
      rw [(if_pos rfl).mp hlen]
      exact (congrArg (Option.map (bodySize dl)) henc).trans (congrArg some (hbytes dl))
  | 0, .composite _ _ _ _, _, _, hd, _, _ => by
    rw [defWf] at hd
    cases hd
  | _, .scalar _ _ _, .composite _, _, _, _, h => by
    rw [encodeField] at h
    obtain ⟨_, -, h⟩ := bind_ok.mp h
    cases h
  | _, .composite _ _ _ _, .scalar _, _, _, _, h => by
    rw [encodeField] at h
    obtain ⟨_, -, h⟩ := bind_ok.mp h
    cases h

theorem subsSize_of_encodeSubs (c : Config) (i : Nat) : ∀ (depth : Nat) (subs : SubDefs) (vs : FieldValues) (body : Bytes),
    subsWf depth subs = true → encodeSubs c i subs vs = .ok body → subsSize? subs = some body.length
  | _, .nil, .nil, _, _, h => by
    cases h
    rfl
  | depth, .cons d ds, .cons v vs, body, hd, h => by
    obtain ⟨hkind, -, hfirst, hrest⟩ := subsWf_cons hd
    rw [encodeSubs] at h
    obtain ⟨first, hv, h⟩ := bind_ok.mp h
    obtain ⟨rest, hvs, h⟩ := bind_ok.mp h
    cases h
    rw [subsSize?, defSize_of_encodeField c i depth d v first hfirst hkind hv,
      subsSize_of_encodeSubs c i depth ds vs rest hrest hvs, List.length_append]
  | _, .nil, .cons _ _, _, _, h => by cases h
  | _, .cons _ _, .nil, _, _, h => by cases h

end

mutual

/-- The errors of a value its slot can hold, for a well-formed definition: the length header itself never fails. -/
theorem encodeField_errorsFit {c : Config} (hcap : c.valCap < 2 ^ 32) (i : Nat) : ∀ (depth level : Nat) (d : FieldDef)
    (v : FieldValue), defWf depth d = true → valueFits c.valCap level v = true → ErrorsFit i (encodeField c i d v)
  | depth, level, .scalar kind code dl, .scalar s, hd, hv => by
    rw [defWf] at hd
    rw [valueFits] at hv
    have hdl : dl ≤ lenMax kind := of_decide_eq_true hd
    have hs : s.length < 2 ^ 32 := (of_decide_eq_true hv).trans_lt hcap
    rw [encodeField]
    refine .bind (supportedEncoding_errorsFit ..) fun enc _ =>
      .bind (encodeScalar_errorsFit c i kind enc (hdl.trans_lt (lenMax_lt kind)) hs) fun ⟨n, body⟩ hbody => ?_
    dsimp only
    rw [withHeader_ok ((encodeScalar_ok hbody).1.le.trans hdl)]
    exact errorsFit_ok _
  | depth + 1, level + 1, .composite kind code dl subs, .composite vs, hd, hv => by
    have hsubs := subsWf_of_defWf hd
    rw [valueFits] at hv
    rw [encodeField]
    refine .bind (supportedEncoding_errorsFit ..) fun _ _ => .ite (fun _ => errorsFit_field rfl rfl rfl) fun _ =>
      .bind (encodeSubs_errorsFit hcap i depth level subs vs hsubs hv) fun body hbody => ?_
    obtain ⟨hdl, -, hlen⟩ := defWf_composite hd (subsSize_of_encodeSubs c i depth subs vs body hsubs hbody)
    rw [withHeader_ok (hlen.le.trans hdl)]
    exact errorsFit_ok _
  | 0, _, .composite _ _ _ _, _, hd, _ => by
    rw [defWf] at hd
    cases hd
  | _, 0, _, .composite _, _, hv => by
    rw [valueFits] at hv
    cases hv
  | _, _, .scalar _ _ _, .composite _, _, _ => by
    rw [encodeField]
    exact .bind (supportedEncoding_errorsFit ..) fun _ _ => errorsFit_field rfl rfl rfl
  | _, _, .composite _ _ _ _, .scalar _, _, _ => by
    rw [encodeField]
    exact .bind (supportedEncoding_errorsFit ..) fun _ _ => errorsFit_field rfl rfl rfl

theorem encodeSubs_errorsFit {c : Config} (hcap : c.valCap < 2 ^ 32) (i : Nat) : ∀ (depth level : Nat) (subs : SubDefs)
    (vs : FieldValues), subsWf depth subs = true → valuesFit c.valCap level vs = true → ErrorsFit i (encodeSubs c i subs vs)
  | _, _, .nil, .nil, _, _ => errorsFit_ok _
  | depth, level, .cons d ds, .cons v vs, hd, hv => by
    obtain ⟨-, -, hfirst, hrest⟩ := subsWf_cons hd
    rw [valuesFit] at hv
    obtain ⟨hv, hvs⟩ := (Bool.and_eq_true _ _).mp hv
    rw [encodeSubs]
    exact .bind (encodeField_errorsFit hcap i depth level d v hfirst hv) fun _ _ =>
      .bind (encodeSubs_errorsFit hcap i depth level ds vs hrest hvs) fun _ _ => errorsFit_ok _
  | _, _, .nil, .cons _ _, _, _ => errorsFit_field rfl rfl rfl
  | _, _, .cons _ _, .nil, _, _ => errorsFit_field rfl rfl rfl

end

/-- The same of a field of the table and the value in its slot. -/
theorem encodeField_errorsFit_of_table {c : Config} (hc : configWf c = true) {i : Nat} {d : FieldDef} {v : FieldValue}
    (hd : lookupDef c.defs i = some d) (hv : slotFits c (some v) = true) : ErrorsFit i (encodeField c i d v) := by
  obtain ⟨-, -, hwf, -⟩ := lookupDef_wf (configWf_defs hc) hd
  exact encodeField_errorsFit (configWf_valCap hc) i c.subDepth c.subDepth d v hwf hv

/-! ## The children of a composite (R146) -/

/-- Children that all encode go out one after another. -/
theorem encodeSubs_eq_flatten {c : Config} {i : Nat} : ∀ (subs : SubDefs) (vs : FieldValues) (bodies : List Bytes),
    (valuesList vs).length = (subsList subs).length → bodies.length = (subsList subs).length →
    (∀ (k : Nat) (d : FieldDef) (v : FieldValue) (b : Bytes), (subsList subs)[k]? = some d → (valuesList vs)[k]? = some v →
      bodies[k]? = some b → encodeField c i d v = .ok b) →
    encodeSubs c i subs vs = .ok bodies.flatten
  | .nil, .nil, [], _, _, _ => rfl
  | .cons d ds, .cons v vs, b :: bodies, hvs, hbodies, h => by
    have hrest := encodeSubs_eq_flatten ds vs bodies (Nat.succ.inj hvs) (Nat.succ.inj hbodies) fun k => h (k + 1)
    rw [encodeSubs, h 0 d v b rfl rfl rfl, ok_bind, hrest, ok_bind, List.flatten_cons]
    rfl
  | .nil, .cons _ _, _, hvs, _, _ => nomatch hvs
  | .cons _ _, .nil, _, hvs, _, _ => nomatch hvs
  | .nil, _, _ :: _, _, hbodies, _ => nomatch hbodies
  | .cons _ _, _, [], _, hbodies, _ => nomatch hbodies

/-- The first child that does not encode ends the walk with its error. -/
theorem encodeSubs_error {c : Config} {i : Nat} {d : FieldDef} {v : FieldValue} {e : CmdError}
    (he : encodeField c i d v = .error e) : ∀ (k : Nat) (subs : SubDefs) (vs : FieldValues),
    (subsList subs)[k]? = some d → (valuesList vs)[k]? = some v →
    (∀ (j : Nat) (d' : FieldDef) (v' : FieldValue), j < k → (subsList subs)[j]? = some d' → (valuesList vs)[j]? = some v' →
      ∃ b, encodeField c i d' v' = .ok b) →
    encodeSubs c i subs vs = .error e
  | 0, .cons _ _, .cons _ _, hd, hv, _ => by
    cases hd
    cases hv
    rw [encodeSubs, he, error_bind]
  | k + 1, .cons d' ds, .cons v' vs, hd, hv, h => by
    obtain ⟨b, hb⟩ := h 0 d' v' (Nat.zero_lt_succ k) rfl rfl
    have hrest := encodeSubs_error he k ds vs hd hv fun j d'' v'' hj => h (j + 1) d'' v'' (Nat.succ_lt_succ hj)
    rw [encodeSubs, hb, ok_bind, hrest, error_bind]
  | _, .nil, _, hd, _, _ => nomatch hd
  | _, .cons _ _, .nil, _, hv, _ => nomatch hv

/-- Settles O26: the children's bytes fill the size R31 gives them, so header and Capacity do not fail. -/
theorem fieldEncComposite : Obligations.FieldEncComposite := by
  intro s index kind code dl subs vs hc hd hslot hcount
  obtain ⟨-, -, hwf, hfits⟩ := lookupDef_wf (configWf_defs hc) hd
  obtain ⟨depth, hdepth⟩ : ∃ depth, s.cfg.subDepth = depth + 1 := by
    cases hdepth : s.cfg.subDepth with
    | zero =>
      rw [hdepth, defWf] at hwf
      cases hwf
    | succ depth => exact ⟨depth, rfl⟩
  rw [hdepth] at hwf
  have hcode : code.toNat ≤ 1 := by
    simp only [defWf, compositeFits, Bool.and_eq_true, decide_eq_true_eq] at hwf
    exact hwf.1.2.1
  obtain ⟨enc, henc, hbytes⟩ := encodingOf?_of_le_one hcode
  have hbody := commandBody_fieldEnc hc hd hslot
  rw [encodeField_composite henc (by rw [valueCount_eq, subCount_eq, hcount])] at hbody
  refine ⟨fun bodies hlen hbodies => ?_, fun k d v e hfit hdk hvk he hlower => ?_⟩
  · have hsubs := encodeSubs_eq_flatten subs vs bodies hcount hlen hbodies
    obtain ⟨hdl, -, hdeclared⟩ := defWf_composite hwf (subsSize_of_encodeSubs _ _ depth subs vs _ (subsWf_of_defWf hwf) hsubs)
    have hle := hdeclared.le
    rw [hsubs, ok_bind, withHeader_ok (hle.trans hdl), ok_bind] at hbody
    have hroom : hdrSize kind + dl ≤ s.cfg.bufCap := by
      have hsize : defSize? (.composite kind code dl subs) = some dl :=
        (congrArg (Option.map (bodySize dl)) henc).trans (congrArg some (hbytes dl))
      rw [entryFits, hsize] at hfits
      exact of_decide_eq_true hfits
    obtain ⟨t, ht, hsucc, hout, -⟩ := exec_of_emit hc (by rw [List.length_append, wireHeader_length]; omega) hbody
    exact ⟨t, ht, hsucc, hout⟩
  · have hsubs := encodeSubs_error he k subs vs hdk hvk hlower
    have hfield : encodeField s.cfg index.toNat (.composite kind code dl subs) (.composite vs) = .error e := by
      rw [encodeField_composite henc (by rw [valueCount_eq, subCount_eq, hcount]), hsubs, error_bind]
    obtain ⟨hindex, hdeclared, hactual⟩ := (encodeField_errorsFit_of_table hc hd (hslot ▸ hfit)).bounds e hfield
    rw [hsubs, error_bind, error_bind] at hbody
    obtain ⟨t, ht, hfail⟩ := exec_failed_of_error hbody (hindex ▸ index.isLt) hdeclared hactual
    exact ⟨t, ht, hfail, hindex⟩

/-! ## What FIELD_ENC refuses by the table (R147, R153) -/

theorem encodingOf?_of_le_three {code : BitVec 8} (h : code.toNat ≤ 3) : ∃ enc, encodingOf? code = some enc := by
  unfold encodingOf?
  have hcases : code.toNat = 0 ∨ code.toNat = 1 ∨ code.toNat = 2 ∨ code.toNat = 3 := by omega
  rcases hcases with hcode | hcode | hcode | hcode <;> rw [hcode]
  · exact ⟨_, rfl⟩
  · exact ⟨_, rfl⟩
  · exact ⟨_, rfl⟩
  · exact ⟨_, rfl⟩

theorem encodingOf?_of_gt_three {code : BitVec 8} (h : 3 < code.toNat) : encodingOf? code = none := by
  unfold encodingOf?
  split
  case h_5 => rfl
  all_goals omega

theorem supportedEncoding_of_gt_three (i : Nat) {code : BitVec 8} (h : 3 < code.toNat) :
    supportedEncoding i code = .error { code := .invalidEncoder, field := i } := by
  simp only [supportedEncoding, encodingOf?_of_gt_three h]

theorem encodeField_of_unsupported (c : Config) (i : Nat) {d : FieldDef} (v : FieldValue) (h : 3 < (defEnc d).toNat) :
    encodeField c i d v = .error { code := .invalidEncoder, field := i } := by
  cases d with
  | scalar kind code dl =>
    have hcode := supportedEncoding_of_gt_three i (code := code) h
    cases v <;> rw [encodeField, hcode, error_bind]
  | composite kind code dl subs =>
    have hcode := supportedEncoding_of_gt_three i (code := code) h
    cases v <;> rw [encodeField, hcode, error_bind]

/-- A composite definition refuses a scalar, and a composite of another number of children. -/
theorem encodeField_composite_shape (c : Config) (i : Nat) (kind : FieldKind) {code : BitVec 8} (dl : Nat) {subs : SubDefs}
    {v : FieldValue} (hcode : code.toNat ≤ 3) (h : ∀ vs, v = .composite vs → (valuesList vs).length ≠ (subsList subs).length) :
    encodeField c i (.composite kind code dl subs) v = .error (shapeError i) := by
  obtain ⟨enc, henc⟩ := encodingOf?_of_le_three hcode
  cases v with
  | scalar s => rw [encodeField, supportedEncoding_of_some i henc, ok_bind]
  | composite vs =>
    have hcount := h vs rfl
    rw [← valueCount_eq, ← subCount_eq] at hcount
    rw [encodeField, supportedEncoding_of_some i henc, ok_bind, if_pos hcount]

theorem encodeField_scalar_shape (c : Config) (i : Nat) (kind : FieldKind) {code : BitVec 8} (dl : Nat) (vs : FieldValues)
    (hcode : code.toNat ≤ 3) : encodeField c i (.scalar kind code dl) (.composite vs) = .error (shapeError i) := by
  obtain ⟨enc, henc⟩ := encodingOf?_of_le_three hcode
  rw [encodeField, supportedEncoding_of_some i henc, ok_bind]

/-- Settles O27: slot, entry, encoding and shape in the order of the pseudocode. -/
theorem fieldEncRefusesByTable : Obligations.FieldEncRefusesByTable := by
  intro s index htwo h128
  have hbody : commandBody (.fieldEnc index) (clearResults s) = filledSlot s index.toNat >>= fun v =>
      tableEntry s.cfg index.toNat >>= fun d => encodeField s.cfg index.toNat d v >>= fun bytes =>
        emit index.toNat bytes (clearResults s) := by
    simp only [commandBody, fieldEncBody, indexOperand_ok htwo h128, ok_bind]
    rfl
  have fails {e : CmdError} (h : commandBody (.fieldEnc index) (clearResults s) = .error e) (hfield : e.field = index.toNat)
      (hdeclared : e.declared = 0) (hactual : e.actual = 0) : ∃ t, exec (.fieldEnc index) s = .next t ∧ Failed e t :=
    exec_failed_of_error h (hfield ▸ index.isLt) (hdeclared ▸ Nat.zero_lt_succ _) (hactual ▸ Nat.two_pow_pos 32)
  refine ⟨fun hslot => ?_, fun v hslot hd => ?_, fun v d hslot hd hcode => ?_, fun kind code dl vs hslot hd hcode => ?_,
    fun kind code dl subs v hslot hd hcode hshape => ?_⟩
  · refine fails ?_ rfl rfl rfl
    rw [hbody, filledSlot, hslot]
    rfl
  · refine fails ?_ rfl rfl rfl
    rw [hbody, filledSlot_of_some hslot, ok_bind, tableEntry, hd]
    rfl
  · refine fails ?_ rfl rfl rfl
    rw [hbody, filledSlot_of_some hslot, ok_bind, tableEntry_of_lookup hd, ok_bind, encodeField_of_unsupported _ _ v hcode,
      error_bind]
  · refine fails (e := shapeError index.toNat) ?_ rfl rfl rfl
    rw [hbody, filledSlot_of_some hslot, ok_bind, tableEntry_of_lookup hd, ok_bind, encodeField_scalar_shape _ _ _ _ _ hcode,
      error_bind]
  · refine fails (e := shapeError index.toNat) ?_ rfl rfl rfl
    rw [hbody, filledSlot_of_some hslot, ok_bind, tableEntry_of_lookup hd, ok_bind,
      encodeField_composite_shape _ _ _ _ hcode hshape, error_bind]

end Sys2Proof.Machine
end

section
/-! PROOFS. FIELD_DEC (spec/42_field_codec.md rules R148 to R151 and R153): what decoding a field does in the order of its tests, the
walk over the sub-fields of a composite, and the obligations O28, O29 and O30. -/

namespace Sys2Proof.Machine

/-! ## The tests of `decode_field` in their order (R148) -/

/-- The value in the body of a field (R149, R150). -/
def decodeContents (c : Config) (i : Nat) (enc : ByteEncoding) (len : Nat) (body : Bytes) :
    FieldDef → Except CmdError FieldValue
  | .scalar _ _ _ => decodeBody c i enc len body >>= fun s => withinValCap c i s >>= fun s => .ok (.scalar s)
  | .composite _ _ _ subs => decodeSubs c i subs body >>= fun vs => .ok (.composite vs)

/-- Scalar and composite fields differ only in what their body holds. -/
theorem decodeField_eq (c : Config) (i : Nat) (d : FieldDef) (raw : Bytes) :
    decodeField c i d raw = supportedEncoding i (defEnc d) >>= fun enc =>
      fieldLength i (defKind d) (defLen d) raw >>= fun len => fieldBody i (defKind d) enc len raw >>= fun r =>
        decodeContents c i enc len r.1 d >>= fun v => .ok (v, r.2) := by
  cases d with
  | scalar kind code dl =>
    simp only [decodeField, decodeContents, bind_assoc, ok_bind]
    rfl
  | composite kind code dl subs =>
    simp only [decodeField, decodeContents, bind_assoc, ok_bind]
    rfl

theorem fieldLength_of_decimal (i : Nat) {kind : FieldKind} (dl : Nat) {raw : Bytes} (hlen : hdrSize kind ≤ raw.length)
    (hdec : DecimalNibbles raw (hdrSize kind)) :
    fieldLength i kind dl raw = .ok (if kind = .fixed then dl else headerNumber kind raw) := by
  unfold fieldLength
  split
  · rfl
  · exact decLen_of_decimal i hlen hdec

theorem fieldLength_of_short (i : Nat) {kind : FieldKind} (dl : Nat) {raw : Bytes} (h : raw.length < hdrSize kind) :
    fieldLength i kind dl raw = .error (truncated i) := by
  have hkind : kind ≠ .fixed := by
    rintro rfl
    exact absurd h (Nat.not_lt_zero _)
  rw [fieldLength, if_neg hkind, decLen_of_short i h]

theorem fieldLength_of_badNibble (i : Nat) {kind : FieldKind} (dl : Nat) {raw : Bytes} (hlen : hdrSize kind ≤ raw.length)
    (h : ¬DecimalNibbles raw (hdrSize kind)) : fieldLength i kind dl raw = .error (parseFailed i) := by
  have hkind : kind ≠ .fixed := by
    rintro rfl
    exact h fun j hj => absurd hj (Nat.not_lt_zero j)
  rw [fieldLength, if_neg hkind, decLen_of_badNibble i hlen h]

section

variable {c : Config} {i : Nat} {d : FieldDef} {enc : ByteEncoding} {raw : Bytes} {len : Nat}

theorem decodeField_of_unsupported (h : 3 < (defEnc d).toNat) :
    decodeField c i d raw = .error { code := .invalidEncoder, field := i } := by
  rw [decodeField_eq, supportedEncoding_of_gt_three i h, error_bind]

theorem decodeField_of_shortHeader (henc : encodingOf? (defEnc d) = some enc) (h : raw.length < hdrSize (defKind d)) :
    decodeField c i d raw = .error (truncated i) := by
  rw [decodeField_eq, supportedEncoding_of_some i henc, ok_bind, fieldLength_of_short i _ h, error_bind]

theorem decodeField_of_badHeader (henc : encodingOf? (defEnc d) = some enc) (hlen : hdrSize (defKind d) ≤ raw.length)
    (h : ¬DecimalNibbles raw (hdrSize (defKind d))) : decodeField c i d raw = .error (parseFailed i) := by
  rw [decodeField_eq, supportedEncoding_of_some i henc, ok_bind, fieldLength_of_badNibble i _ hlen h, error_bind]

/-- A header that is short itself leaves too few bytes for the body too. -/
theorem decodeField_of_shortBody (henc : encodingOf? (defEnc d) = some enc) (hdec : DecimalNibbles raw (hdrSize (defKind d)))
    (hlen : len = if defKind d = .fixed then defLen d else headerNumber (defKind d) raw)
    (h : raw.length < hdrSize (defKind d) + bodySize len enc) : decodeField c i d raw = .error (truncated i) := by
  by_cases hshort : raw.length < hdrSize (defKind d)
  · exact decodeField_of_shortHeader henc hshort
  · rw [decodeField_eq, supportedEncoding_of_some i henc, ok_bind, fieldLength_of_decimal i _ (Nat.not_lt.mp hshort) hdec, ← hlen,
      ok_bind, fieldBody, if_pos h, error_bind]

/-- With a readable header and enough bytes, a field decodes as its body does. -/
theorem decodeField_of_body (henc : encodingOf? (defEnc d) = some enc) (hdec : DecimalNibbles raw (hdrSize (defKind d)))
    (hlen : len = if defKind d = .fixed then defLen d else headerNumber (defKind d) raw)
    (h : hdrSize (defKind d) + bodySize len enc ≤ raw.length) :
    decodeField c i d raw =
      decodeContents c i enc len ((raw.drop (hdrSize (defKind d))).take (bodySize len enc)) d >>= fun v =>
        .ok (v, hdrSize (defKind d) + bodySize len enc) := by
  rw [decodeField_eq, supportedEncoding_of_some i henc, ok_bind,
    fieldLength_of_decimal i _ ((Nat.le_add_right ..).trans h) hdec, ← hlen, ok_bind, fieldBody, if_neg (Nat.not_lt.mpr h),
    ok_bind]

end

/-! ## The text in a body (R149) -/

theorem unpackNibbles_take (bs : Bytes) (n i : Nat) : unpackNibbles (bs.take (ceil2 n)) n i = unpackNibbles bs n i := by
  have hlen : (bs.take (ceil2 n)).length < ceil2 n ↔ bs.length < ceil2 n := by
    rw [List.length_take]
    omega
  simp only [unpackNibbles, hlen, List.take_take, Nat.min_self]

theorem unpackL_take (pad : LbcdPad) (bs : Bytes) (n i : Nat) : unpackL pad (bs.take (ceil2 n)) n i = unpackL pad bs n i := by
  simp only [unpackL, unpackNibbles_take]

/-- `v` is the text that `bs` hold in the encoding, of logical length `len`. -/
def DecodedText (c : Config) (enc : ByteEncoding) (len : Nat) (bs v : Bytes) : Prop :=
  match enc with
  | .ascii => v = bs.take len
  | .binary => ∀ j, j < 2 * len → v.getD j 0 = hexU (nibbleAt bs j)
  | .bcd => ∀ k, k < len → v.getD k 0 =
      dchr (nibbleAt bs (if c.lbcdPad = .trailing then k else 2 * ceil2 len - len + k))
  | .rbcd => ∀ k, k < len → v.getD k 0 = dchr (nibbleAt bs (2 * ceil2 len - len + k))

theorem getD_hexenc (bs : Bytes) {j : Nat} (hj : j < 2 * bs.length) : (hexenc bs).getD j 0 = hexU (nibbleAt bs j) := by
  have hlen : j < (nibblesOf bs).length := by rwa [nibblesOf_length]
  rw [hexenc_eq_map, List.getD_eq_getElem _ _ (by rwa [List.length_map]), List.getElem_map, ← nibblesOf_getD,
    List.getD_eq_getElem _ _ hlen]

/-- A body that is long enough, and of decimal nibbles in a numeric encoding, holds a text. -/
theorem decodeBody_ok (c : Config) (i : Nat) {enc : ByteEncoding} {len : Nat} {bs : Bytes} (hlen : bodySize len enc ≤ bs.length)
    (hdec : enc = .bcd ∨ enc = .rbcd → DecimalNibbles bs (ceil2 len)) :
    ∃ v, decodeBody c i enc len (bs.take (bodySize len enc)) = .ok v ∧
      v.length = (if enc = .binary then 2 * len else len) ∧ DecodedText c enc len bs v := by
  cases enc with
  | ascii => exact ⟨_, rfl, List.length_take_of_le hlen, rfl⟩
  | binary =>
    have htake : (bs.take len).length = len := List.length_take_of_le hlen
    refine ⟨_, rfl, ?_, fun j hj => ?_⟩
    · rw [hexenc_length]
      exact congrArg (2 * ·) htake
    · rw [← nibbleAt_take bs hj]
      exact getD_hexenc _ (htake.symm ▸ hj)
  | bcd =>
    obtain ⟨v, hv, hvlen, htext⟩ := unpackL_ok (pad := c.lbcdPad) (field := i) hlen (hdec (.inl rfl))
    exact ⟨v, (unpackL_take ..).trans hv, hvlen, htext⟩
  | rbcd =>
    obtain ⟨v, hv, hvlen, htext⟩ := unpackL_ok (pad := .leading) (field := i) hlen (hdec (.inr rfl))
    exact ⟨v, (unpackL_take .leading ..).trans hv, hvlen, htext⟩

theorem decodeBody_of_badNibble (c : Config) (i : Nat) {enc : ByteEncoding} {len : Nat} {bs : Bytes}
    (henc : enc = .bcd ∨ enc = .rbcd) (hlen : bodySize len enc ≤ bs.length) (h : ¬DecimalNibbles bs (ceil2 len)) :
    decodeBody c i enc len (bs.take (bodySize len enc)) = .error (badDigit i) := by
  rcases henc with rfl | rfl
  · exact (unpackL_take ..).trans (unpackL_of_badNibble _ i hlen h)
  · exact (unpackL_take .leading ..).trans (unpackL_of_badNibble _ i hlen h)

/-! ## The sub-fields of a composite (R150) -/

/-- Sub-fields that all decode are read one after another; what follows the last is skipped. -/
theorem decodeSubs_of_bodies {c : Config} {i : Nat} (surplus : Bytes) : ∀ (subs : SubDefs) (vs : FieldValues)
    (bodies : List Bytes), (valuesList vs).length = (subsList subs).length → bodies.length = (subsList subs).length →
    (∀ (k : Nat) (d : FieldDef) (v : FieldValue) (b : Bytes), (subsList subs)[k]? = some d → (valuesList vs)[k]? = some v →
      bodies[k]? = some b → ∀ tail, decodeField c i d (b ++ tail) = .ok (v, b.length)) →
    decodeSubs c i subs (bodies.flatten ++ surplus) = .ok vs
  | .nil, .nil, [], _, _, _ => rfl
  | .cons d ds, .cons v vs, b :: bodies, hvs, hbodies, h => by
    have hrest := decodeSubs_of_bodies surplus ds vs bodies (Nat.succ.inj hvs) (Nat.succ.inj hbodies) fun k => h (k + 1)
    rw [decodeSubs, List.flatten_cons, List.append_assoc, h 0 d v b rfl rfl rfl, ok_bind]
    dsimp only
    rw [List.drop_left, hrest, ok_bind]
    rfl
  | .nil, .cons _ _, _, hvs, _, _ => nomatch hvs
  | .cons _ _, .nil, _, hvs, _, _ => nomatch hvs
  | .nil, _, _ :: _, _, hbodies, _ => nomatch hbodies
  | .cons _ _, _, [], _, hbodies, _ => nomatch hbodies

/-- The first sub-field that does not decode ends the walk with its error. -/
theorem decodeSubs_error {c : Config} {i : Nat} {sub : FieldDef} {rest : Bytes} {e : CmdError}
    (he : decodeField c i sub rest = .error e) : ∀ (subs : SubDefs) (bodies : List Bytes),
    (subsList subs)[bodies.length]? = some sub →
    (∀ (k : Nat) (d : FieldDef) (b : Bytes), (subsList subs)[k]? = some d → bodies[k]? = some b →
      ∃ v, ∀ tail, decodeField c i d (b ++ tail) = .ok (v, b.length)) →
    decodeSubs c i subs (bodies.flatten ++ rest) = .error e
  | .cons _ _, [], hsub, _ => by
    cases hsub
    rw [decodeSubs, List.flatten_nil, List.nil_append, he, error_bind]
  | .cons d ds, b :: bodies, hsub, h => by
    obtain ⟨v, hv⟩ := h 0 d b rfl rfl
    have hrest := decodeSubs_error he ds bodies hsub fun k => h (k + 1)
    rw [decodeSubs, List.flatten_cons, List.append_assoc, hv, ok_bind]
    dsimp only
    rw [List.drop_left, hrest, error_bind]
  | .nil, _, hsub, _ => nomatch hsub

/-! ## How FIELD_DEC ends (R151) -/

section

variable {s : State} {index : BitVec 8}

theorem commandBody_fieldDec (htwo : 2 ≤ index.toNat) (h128 : index.toNat ≤ 128) :
    commandBody (.fieldDec index) (clearResults s) = tableEntry s.cfg index.toNat >>= fun d =>
      decodeField s.cfg index.toNat d (input s) >>= fun r =>
        .ok { setFieldSlot index.toNat (some r.1) (clearResults s) with consumed := BitVec.ofNat 32 r.2 } := by
  simp only [commandBody, fieldDecBody, indexOperand_ok htwo h128, ok_bind, input_clearResults]
  rfl

/-- A field that decodes goes into its slot. -/
theorem exec_fieldDec_ok {d : FieldDef} {v : FieldValue} {n : Nat} (htwo : 2 ≤ index.toNat) (h128 : index.toNat ≤ 128)
    (hd : lookupDef s.cfg.defs index.toNat = some d) (h : decodeField s.cfg index.toNat d (input s) = .ok (v, n))
    (hn : n ≤ s.ilen.toNat) :
    ∃ t, exec (.fieldDec index) s = .next t ∧ Succeeded t ∧ fieldSlot t index.toNat = some v ∧ t.consumed.toNat = n := by
  have hbody := commandBody_fieldDec (s := s) htwo h128
  rw [tableEntry_of_lookup hd, ok_bind, h, ok_bind] at hbody
  rw [exec_eq_runCommand, runCommand_ok hbody]
  exact ⟨_, rfl, ⟨rfl, rfl, rfl, ⟨rfl, rfl, rfl, rfl, rfl⟩⟩, Slots.get_put_self s.msg.slots (some v) ⟨htwo, h128⟩,
    Nat.mod_eq_of_lt (hn.trans_lt s.ilen.isLt)⟩

/-- A legal index leaves FIELD_DEC no IllegalCommand to raise, so that any error empties the slot (R256). -/
theorem fieldSlot_of_fieldDec_err {t : State} (htwo : 2 ≤ index.toNat) (h128 : index.toNat ≤ 128)
    (h : exec (.fieldDec index) s = .next t) (herr : t.err ≠ 0) : fieldSlot t index.toNat = none := by
  obtain ⟨-, -, -, -, -, -, -, -, hcleared, -⟩ := errorInvalidatesDestination _ s t h herr
  refine (hcleared fun hillegal => ?_).1 index rfl
  have hraises : Raises (.undefinedField :: decodeCodes) (commandBody (.fieldDec index) (clearResults s)) := by
    rw [commandBody_fieldDec htwo h128]
    exact .bind (tableEntry_raises ..) fun _ => .bind (decodeField_raises ..) fun _ => raises_ok _
  obtain ⟨e, he, rfl⟩ := exec_failed h herr
  have hcode := hraises.code_mem e he
  rw [errNumber_eq_thirteen_iff.mp hillegal] at hcode
  exact absurd hcode (by decide)

/-- FIELD_DEC ends with the error and an Empty slot. -/
def FieldDecFails (s : State) (index : BitVec 8) (e : CmdError) : Prop :=
  ∃ t, exec (.fieldDec index) s = .next t ∧ Failed e t ∧ fieldSlot t index.toNat = none

theorem fieldDecFails_of_commandBody {e : CmdError} (htwo : 2 ≤ index.toNat) (h128 : index.toNat ≤ 128)
    (h : commandBody (.fieldDec index) (clearResults s) = .error e) (hfield : e.field = index.toNat)
    (hdeclared : e.declared < 65536) (hactual : e.actual < 2 ^ 32) : FieldDecFails s index e := by
  obtain ⟨t, ht, hfail⟩ := exec_failed_of_error h (hfield ▸ index.isLt) hdeclared hactual
  exact ⟨t, ht, hfail, fieldSlot_of_fieldDec_err htwo h128 ht (hfail.err ▸ errNumber_ne_zero _)⟩

/-- The error of the field is the error of the command. -/
theorem fieldDecFails {d : FieldDef} {e : CmdError} (htwo : 2 ≤ index.toNat) (h128 : index.toNat ≤ 128)
    (hd : lookupDef s.cfg.defs index.toNat = some d) (h : decodeField s.cfg index.toNat d (input s) = .error e) :
    FieldDecFails s index e := by
  obtain ⟨hfield, hdeclared, hactual⟩ := (decodeField_errorsFit ..).bounds e h
  refine fieldDecFails_of_commandBody htwo h128 ?_ hfield hdeclared hactual
  rw [commandBody_fieldDec htwo h128, tableEntry_of_lookup hd, ok_bind, h, error_bind]

end

/-- Settles O28. -/
theorem fieldDecScalar : Obligations.FieldDecScalar := by
  intro s index kind code enc dl len htwo h128 hd henc hheader hlen hsize hcap hdec
  have hroom : bodySize len enc ≤ ((input s).drop (hdrSize kind)).length := by
    rw [List.length_drop, input_length]
    omega
  obtain ⟨v, hv, hvlen, htext⟩ := decodeBody_ok s.cfg index.toNat hroom hdec
  have hfield : decodeField s.cfg index.toNat (.scalar kind code dl) (input s) =
      .ok (.scalar v, hdrSize kind + bodySize len enc) := by
    rw [decodeField_of_body (d := .scalar kind code dl) henc hheader hlen ((input_length s).symm ▸ hsize), decodeContents]
    simp only [defKind, hv, withinValCap_of_le _ (hvlen.trans_le hcap), ok_bind]
  obtain ⟨t, ht, hsucc, hslot, hconsumed⟩ := exec_fieldDec_ok htwo h128 hd hfield hsize
  refine ⟨t, v, ht, hsucc, hslot, hconsumed, ?_⟩
  cases enc with
  | ascii => exact ⟨fun _ => htext, nofun, nofun, nofun⟩
  | binary => exact ⟨nofun, fun _ => ⟨hvlen, htext⟩, nofun, nofun⟩
  | bcd => exact ⟨nofun, nofun, fun _ => ⟨hvlen, htext⟩, nofun⟩
  | rbcd => exact ⟨nofun, nofun, nofun, fun _ => ⟨hvlen, htext⟩⟩

/-- Settles O29. -/
theorem fieldDecComposite : Obligations.FieldDecComposite := by
  intro s index kind code dl len subs vs bodies surplus rest htwo h128 hd hcode hvs hbodies hdecode hheader hlen hdrop hsum hhdr
  obtain ⟨enc, henc, hbytes⟩ := encodingOf?_of_le_one hcode
  have hsize : hdrSize kind + len ≤ s.ilen.toNat := by
    have hcount := congrArg List.length hdrop
    simp only [List.length_drop, input_length, List.length_append] at hcount
    omega
  have hbody : ((input s).drop (hdrSize kind)).take len = bodies.flatten ++ surplus := by
    rw [hdrop, hsum, ← List.length_append, List.take_left]
  have hfield : decodeField s.cfg index.toNat (.composite kind code dl subs) (input s) =
      .ok (.composite vs, hdrSize kind + len) := by
    rw [decodeField_of_body (d := .composite kind code dl subs) henc hheader hlen (by rwa [hbytes, input_length]), decodeContents]
    simp only [defKind, hbytes, hbody, decodeSubs_of_bodies surplus subs vs bodies hvs hbodies hdecode, ok_bind]
  exact exec_fieldDec_ok htwo h128 hd hfield hsize

/-- Settles O30: each test of `decode_field` in turn. -/
theorem fieldDecErrorsEmptySlot : Obligations.FieldDecErrorsEmptySlot := by
  intro s index htwo h128
  refine ⟨fun hd => ?_, fun d hd => ⟨fun hcode => fieldDecFails htwo h128 hd (decodeField_of_unsupported hcode), fun enc henc => ?_⟩,
    fun t ht herr => fieldSlot_of_fieldDec_err htwo h128 ht herr⟩
  · refine fieldDecFails_of_commandBody htwo h128 ?_ rfl (Nat.zero_lt_succ _) (Nat.two_pow_pos 32)
    rw [commandBody_fieldDec htwo h128, tableEntry, hd, error_bind]
    rfl
  rw [← input_length s]
  refine ⟨fun hshort => fieldDecFails htwo h128 hd (decodeField_of_shortHeader henc hshort),
    fun hlen hbad => fieldDecFails htwo h128 hd (decodeField_of_badHeader henc hlen hbad),
    fun hdec hshort => fieldDecFails htwo h128 hd (decodeField_of_shortBody henc hdec rfl hshort), fun hdec hsize => ⟨?_, ?_⟩⟩
  · rintro kind code dl rfl
    have hfield := decodeField_of_body (c := s.cfg) (i := index.toNat) henc hdec rfl hsize
    rw [decodeContents] at hfield
    have hroom := Nat.le_sub_of_add_le' hsize
    rw [← List.length_drop] at hroom
    refine ⟨fun hnum hbad => fieldDecFails htwo h128 hd ?_, fun hnum hcap => fieldDecFails htwo h128 hd ?_⟩
    · rw [hfield, decodeBody_of_badNibble _ _ hnum hroom hbad, error_bind, error_bind]
      rfl
    · obtain ⟨v, hv, hvlen, -⟩ := decodeBody_ok s.cfg index.toNat hroom hnum
      rw [hfield, hv, ok_bind, withinValCap, if_pos (hvlen ▸ hcap), error_bind, error_bind]
      rfl
  · rintro kind code dl subs bodies rest sub e rfl hbody hsub hlower he
    have hfield := decodeField_of_body (c := s.cfg) (i := index.toNat) henc hdec rfl hsize
    rw [decodeContents, hbody, decodeSubs_error he subs bodies hsub hlower, error_bind, error_bind] at hfield
    exact ⟨fieldDecFails htwo h128 hd hfield, ((decodeField_errorsFit ..).bounds e hfield).1⟩

end Sys2Proof.Machine
end

section
/-! PROOFS. MSG_ENC (spec/44_message.md rules R192 and R193): the payloads of the populated slots, the total length in front of a
frame, and the obligations O36 and O37. -/

namespace Sys2Proof.Machine

/-- A strictly ascending list up to its member `i`: the members below `i`, then `i`. -/
theorem exists_append_of_mem_of_pairwise_lt {l : List Nat} (hl : l.Pairwise (· < ·)) {i : Nat} (hi : i ∈ l) :
    ∃ above, l = l.filter (· < i) ++ i :: above := by
  obtain ⟨below, above, rfl⟩ := List.append_of_mem hi
  obtain ⟨-, habove, hbelow⟩ := List.pairwise_append.mp hl
  have hlow : below.filter (· < i) = below := List.filter_eq_self.mpr fun j hj =>
    decide_eq_true (hbelow j hj i List.mem_cons_self)
  have hhigh : above.filter (· < i) = [] := List.filter_eq_nil_iff.mpr fun j hj => by
    have := List.rel_of_pairwise_cons habove hj
    simpa using this.le
  exact ⟨above, by rw [List.filter_append, hlow, List.filter_cons_of_neg (by simp), hhigh, List.append_nil]⟩

theorem populated_pairwise_lt (g : Slots) : (populated g).Pairwise (· < ·) := List.Pairwise.filter _ List.pairwise_lt_range'

/-! ## Header and payloads (R192) -/

/-- The fixed strings of a message that is ready are their packed digits. -/
theorem msgEncode_of_ready {c : Config} {m : Message} (h : HeadersReady c m) :
    msgEncode c m = encodePayloads c m.slots (populated m.slots) >>= fun payloads =>
      withPrefix c (packPairs m.tpdu ++ m.hdr.elim [] packPairs ++ packPairs m.mti ++ bmpBuild (populated m.slots) ++
        payloads) := by
  have hheader : encHeader c m.hdr = .ok (m.hdr.elim [] packPairs) := by
    cases hhdr : m.hdr with
    | none => rfl
    | some digits => exact encFixedDigits_of_digitString _ (h.hdr digits hhdr)
  rw [msgEncode, encFixedDigits_of_digitString _ h.tpdu, ok_bind, hheader, ok_bind,
    encFixedDigits_of_digitString (width := mtiDigits) _ h.mti, ok_bind]

/-- Slot `i` holds a value that the table encodes to `bytes`. -/
def SlotSends (c : Config) (g : Slots) (i : Nat) (bytes : Bytes) : Prop :=
  ∃ v d, g.get i = some v ∧ lookupDef c.defs i = some d ∧ encodeField c i d v = .ok bytes

section

variable {c : Config} {g : Slots}

theorem encodePayloads_of_sends {i : Nat} {bytes : Bytes} (h : SlotSends c g i bytes) (rest : List Nat) :
    encodePayloads c g (i :: rest) = encodePayloads c g rest >>= fun others => .ok (bytes ++ others) := by
  obtain ⟨v, d, hv, hd, hbytes⟩ := h
  simp only [encodePayloads, hv, tableEntry_of_lookup hd, hbytes, ok_bind]
  rfl

/-- Slots that all encode go out one after another. -/
theorem encodePayloads_eq_flatMap {payload : Nat → Bytes} {indices : List Nat}
    (h : ∀ i ∈ indices, SlotSends c g i (payload i)) : encodePayloads c g indices = .ok (indices.flatMap payload) := by
  induction indices with
  | nil => rfl
  | cons i rest ih =>
    obtain ⟨hi, hrest⟩ := List.forall_mem_cons.mp h
    rw [encodePayloads_of_sends hi, ih hrest, ok_bind, List.flatMap_cons]

/-- What fails behind slots that encode fails for the whole. -/
theorem encodePayloads_append_error {below above : List Nat} {e : CmdError} (h : ∀ i ∈ below, ∃ bytes, SlotSends c g i bytes)
    (he : encodePayloads c g above = .error e) : encodePayloads c g (below ++ above) = .error e := by
  induction below with
  | nil => exact he
  | cons i rest ih =>
    obtain ⟨⟨bytes, hi⟩, hrest⟩ := List.forall_mem_cons.mp h
    rw [List.cons_append, encodePayloads_of_sends hi, ih hrest, error_bind]

end

/-! ## The whole frame (R192, R193) -/

theorem commandBody_msgEnc (s : State) :
    commandBody .msgEnc (clearResults s) = msgEncode s.cfg s.msg >>= fun frame => emit 0 frame (clearResults s) := rfl

theorem withPrefix_of_le {c : Config} {out : Bytes} (h : c.lenPfxEn = true → out.length ≤ 65535) :
    withPrefix c out = .ok (wirePrefix c out.length ++ out) := by
  unfold withPrefix wirePrefix
  split
  next hen => exact if_neg (Nat.not_lt.mpr (h hen))
  next => rfl

theorem withPrefix_of_gt {c : Config} {out : Bytes} (hen : c.lenPfxEn = true) (h : 65535 < out.length) :
    withPrefix c out = .error { code := .internalCodecError, cause := .prefixOverflow } := by
  rw [withPrefix, if_pos hen, if_pos h]

/-- The three outcomes of MSG_ENC once its frame is put together. -/
theorem exec_msgEnc_of_frame {s : State} {frame : Bytes} (hc : configWf s.cfg = true)
    (h : msgEncode s.cfg s.msg = withPrefix s.cfg frame) :
    (s.cfg.lenPfxEn = true → 65535 < frame.length → ∃ t, exec .msgEnc s = .next t ∧
      Failed { code := .internalCodecError, cause := .prefixOverflow } t) ∧
    ((s.cfg.lenPfxEn = true → frame.length ≤ 65535) →
      ((wirePrefix s.cfg frame.length ++ frame).length ≤ s.cfg.bufCap → ∃ t, exec .msgEnc s = .next t ∧
        Succeeded t ∧ output t = wirePrefix s.cfg frame.length ++ frame) ∧
      (s.cfg.bufCap < (wirePrefix s.cfg frame.length ++ frame).length → ∃ t, exec .msgEnc s = .next t ∧
        Failed { code := .internalCodecError, cause := .capacity } t)) := by
  have hbody := commandBody_msgEnc s
  rw [h] at hbody
  refine ⟨fun hen hlong => ?_, fun hle => ⟨fun hroom => ?_, fun hover => ?_⟩⟩
  · rw [withPrefix_of_gt hen hlong, error_bind] at hbody
    exact exec_failed_of_error hbody (by decide) (by decide) (by decide)
  · rw [withPrefix_of_le hle, ok_bind] at hbody
    obtain ⟨t, ht, hsucc, hout, -⟩ := exec_of_emit hc hroom hbody
    exact ⟨t, ht, hsucc, hout⟩
  · rw [withPrefix_of_le hle, ok_bind, emit, if_pos (by simpa using hover)] at hbody
    exact exec_failed_of_error hbody (by decide) (by decide) (by decide)

/-- Settles O36. -/
theorem msgEncWritesFrame : Obligations.MsgEncWritesFrame := by
  intro s payload hc hready hslots
  refine exec_msgEnc_of_frame hc ?_
  have hsends : ∀ i ∈ populated s.msg.slots, SlotSends s.cfg s.msg.slots i (payload i) := fun i hi => by
    obtain ⟨v, hv⟩ := Option.isSome_iff_exists.mp (mem_populated.mp hi)
    obtain ⟨d, hd, hbytes⟩ := hslots i v hv
    exact ⟨v, d, hv, hd, hbytes⟩
  rw [msgEncode_of_ready hready, encodePayloads_eq_flatMap hsends, ok_bind]
  cases s.msg.hdr with
  | none => rfl
  | some digits => rfl

/-- Settles O37: the populated slots below `i` encode, so the walk reaches `i`. -/
theorem msgEncUndefinedField : Obligations.MsgEncUndefinedField := by
  intro s i v hready hv hlower
  have hmem : i ∈ populated s.msg.slots := mem_populated.mpr (Option.isSome_iff_exists.mpr ⟨v, hv⟩)
  have h128 := (populated_bounds _ i hmem).2
  obtain ⟨above, habove⟩ := exists_append_of_mem_of_pairwise_lt (populated_pairwise_lt s.msg.slots) hmem
  have hbelow : ∀ j ∈ (populated s.msg.slots).filter (· < i), ∃ bytes, SlotSends s.cfg s.msg.slots j bytes := fun j hj => by
    obtain ⟨hj, hlt⟩ := List.mem_filter.mp hj
    obtain ⟨w, hw⟩ := Option.isSome_iff_exists.mp (mem_populated.mp hj)
    obtain ⟨d, bytes, hd, hbytes⟩ := hlower j w (of_decide_eq_true hlt) hw
    exact ⟨bytes, w, d, hw, hd, hbytes⟩
  have fails {e : CmdError} (he : encodePayloads s.cfg s.msg.slots (i :: above) = .error e) (hfield : e.field = i)
      (hdeclared : e.declared < 65536) (hactual : e.actual < 2 ^ 32) : ∃ t, exec .msgEnc s = .next t ∧ Failed e t := by
    have hbody := commandBody_msgEnc s
    rw [msgEncode_of_ready hready, habove, encodePayloads_append_error hbelow he, error_bind, error_bind] at hbody
    exact exec_failed_of_error hbody (by omega) hdeclared hactual
  have hv' : s.msg.slots.get i = some v := hv
  refine ⟨fun hd => fails ?_ rfl (Nat.zero_lt_succ _) (Nat.two_pow_pos 32), fun d e hc hfit hd he => ?_⟩
  · simp only [encodePayloads, hv', tableEntry, hd]
    rfl
  · obtain ⟨hfield, hdeclared, hactual⟩ := (encodeField_errorsFit_of_table hc hd hfit).bounds e he
    obtain ⟨t, ht, hfail⟩ := fails (by simp only [encodePayloads, hv', tableEntry_of_lookup hd, he, ok_bind, error_bind]) hfield
      hdeclared hactual
    exact ⟨t, ht, hfail, hfield⟩

end Sys2Proof.Machine
end

section
/-! PROOFS. MSG_DEC (spec/44_message.md rules R194 and R195): the total length in front of a frame, its fixed strings, the walk over
the indicated fields, and the obligations O38, O39 and O40. -/

namespace Sys2Proof.Machine

/-! ## The total length (R194) -/

/-- The length that the first two bytes announce. -/
def announcedLength (bs : Bytes) : Nat := 256 * (bs.getD 0 0).toNat + (bs.getD 1 0).toNat

/-- An input without its two length bytes is shorter than it announces too. -/
theorem stripPrefix_of_enabled {c : Config} (hen : c.lenPfxEn = true) (bs : Bytes) :
    stripPrefix c bs = if bs.length < 2 + announcedLength bs then .error (truncated 0)
      else .ok ((bs.drop 2).take (announcedLength bs), 2) := by
  unfold stripPrefix
  rw [if_pos hen]
  match bs with
  | [] => rfl
  | [b] => exact (if_pos (by simp only [List.length_singleton]; omega)).symm
  | b0 :: b1 :: rest =>
    have hlength : announcedLength (b0 :: b1 :: rest) = b0.toNat * 256 + b1.toNat := by
      rw [Nat.mul_comm]
      rfl
    have hshort : (b0 :: b1 :: rest).length < 2 + announcedLength (b0 :: b1 :: rest) ↔
        rest.length < b0.toNat * 256 + b1.toNat := by
      simp only [hlength, List.length_cons]
      omega
    simp only [hshort]
    simp only [hlength, List.drop_succ_cons, List.drop_zero]

@[simp] theorem wirePrefix_length (c : Config) (n : Nat) : (wirePrefix c n).length = if c.lenPfxEn then 2 else 0 := by
  unfold wirePrefix
  split <;> rfl

theorem announcedLength_bigEndian16 {n : Nat} (h : n ≤ 65535) (rest : Bytes) :
    announcedLength (bigEndian16 n ++ rest) = n := by
  simp only [announcedLength, bigEndian16, List.cons_append, List.nil_append, List.getD_cons_zero, List.getD_cons_succ,
    BitVec.toNat_ofNat]
  omega

/-- The bytes that the total length counts, without what follows them. -/
theorem stripPrefix_of_counted {c : Config} {out tail : Bytes} (hcount : c.lenPfxEn = true → out.length ≤ 65535)
    (htail : c.lenPfxEn = false → tail = []) :
    stripPrefix c (wirePrefix c out.length ++ out ++ tail) = .ok (out, if c.lenPfxEn then 2 else 0) := by
  by_cases hen : c.lenPfxEn = true
  · have hlength : announcedLength (bigEndian16 out.length ++ (out ++ tail)) = out.length :=
      announcedLength_bigEndian16 (hcount hen) _
    rw [stripPrefix_of_enabled hen, wirePrefix, if_pos hen, if_pos hen, List.append_assoc, hlength, if_neg]
    · exact congrArg (fun raw => Except.ok (raw, 2)) List.take_left
    · simp only [List.length_append, bigEndian16_length]
      omega
  · unfold stripPrefix
    rw [if_neg hen, if_neg hen, wirePrefix, if_neg hen, htail (Bool.eq_false_iff.mpr hen), List.append_nil,
      List.nil_append]

/-! ## The fixed strings (R191, R194) -/

/-- `s` is the string of `width` digits that `bs` start with. -/
def DigitsRead (bs : Bytes) (width : Nat) (s : Bytes) : Prop :=
  s.length = width ∧ ∀ k, k < width → s.getD k 0 = dchr (nibbleAt bs k)

section

variable {c : Config} {bs : Bytes} {width : Nat}

theorem ceil2_of_even (heven : width % 2 = 0) : ceil2 width = width / 2 := by
  unfold ceil2
  omega

theorem decFixedDigits_of_ready (heven : width % 2 = 0) (h : DigitsReady c bs width) :
    ∃ s, decFixedDigits c bs width = .ok s ∧ DigitsRead bs width s := by
  obtain ⟨henough, hdigits, hfits⟩ := h
  have hceil := ceil2_of_even heven
  obtain ⟨s, hs, hlen, hdigit⟩ := unpackL_ok (pad := c.lbcdPad) (field := 0) (hceil ▸ henough) (hceil ▸ hdigits)
  refine ⟨s, ?_, hlen, fun k hk => ?_⟩
  · rw [decFixedDigits, if_neg (Nat.not_lt.mpr henough), hs, ok_bind, withinValCap_of_le 0 (hlen.trans_le hfits)]
  · have hpad : 2 * ceil2 width - width + k = k := by omega
    rw [hdigit k hk, hpad, ite_self]

theorem decFixedDigits_of_fail {e : CmdError} (heven : width % 2 = 0) (h : DigitsFail c bs width e) :
    decFixedDigits c bs width = .error e := by
  have hceil := ceil2_of_even heven
  cases h with
  | short hshort => exact if_pos hshort
  | digit henough hbad =>
    rw [decFixedDigits, if_neg (Nat.not_lt.mpr henough), unpackL_of_badNibble _ 0 (hceil ▸ henough) (hceil ▸ hbad), error_bind]
    rfl
  | capacity henough hdigits hcap =>
    obtain ⟨s, hs, hlen, -⟩ := unpackL_ok (pad := c.lbcdPad) (field := 0) (hceil ▸ henough) (hceil ▸ hdigits)
    rw [decFixedDigits, if_neg (Nat.not_lt.mpr henough), hs, ok_bind, withinValCap, if_pos (hlen.symm ▸ hcap)]
    rfl

/-- Bytes after the string do not matter. -/
theorem decFixedDigits_append (heven : width % 2 = 0) (hlen : bs.length = width / 2) (more : Bytes) :
    decFixedDigits c (bs ++ more) width = decFixedDigits c bs width := by
  have htake : (bs ++ more).take (ceil2 width) = bs := by rw [ceil2_of_even heven, ← hlen, List.take_left]
  have hlong : ¬(bs ++ more).length < width / 2 := by
    rw [List.length_append]
    omega
  rw [decFixedDigits, decFixedDigits, if_neg hlong, if_neg (Nat.not_lt.mpr hlen.ge), ← unpackL_take, htake]

theorem decFixedDigits_append_ok (heven : width % 2 = 0) (hlen : bs.length = width / 2)
    (hdigits : DecimalNibbles bs bs.length) (hcap : width ≤ c.valCap) :
    ∃ s, (∀ more, decFixedDigits c (bs ++ more) width = .ok s) ∧ DigitsRead bs width s := by
  obtain ⟨s, hs, hread⟩ := decFixedDigits_of_ready heven ⟨hlen.ge, hlen ▸ hdigits, hcap⟩
  exact ⟨s, fun more => (decFixedDigits_append heven hlen more).trans hs, hread⟩

end

/-- `o` is the protocol header a configuration takes from `bs`. -/
def HeaderRead (c : Config) (bs : Bytes) (o : Option Bytes) : Prop :=
  (c.headerEn = false → o = none) ∧ (c.headerEn = true → ∃ h, o = some h ∧ DigitsRead bs c.headerDigits h)

theorem decHeader_append_ok {c : Config} {hd : Bytes} (heven : c.headerDigits % 2 = 0) (hlen : hd.length = decHeaderSize c)
    (hdigits : DecimalNibbles hd hd.length) (hcap : c.headerEn = true → c.headerDigits ≤ c.valCap) :
    ∃ o, (∀ more, decHeader c (hd ++ more) = .ok o) ∧ HeaderRead c hd o := by
  by_cases hen : c.headerEn = true
  · obtain ⟨h, hh, hread⟩ := decFixedDigits_append_ok heven (hlen.trans (if_pos hen)) hdigits (hcap hen)
    refine ⟨some h, fun more => ?_, fun hoff => absurd hen (Bool.eq_false_iff.mp hoff), fun _ => ⟨h, rfl, hread⟩⟩
    rw [decHeader, if_pos hen, hh, ok_bind, pure_ok]
  · exact ⟨none, fun _ => if_neg hen, fun _ => rfl, fun hon => absurd hon hen⟩

theorem bmpParse_append {bm : Bytes} (hlen : bm.length = announcedSize bm) (rest : Bytes) :
    bmpParse (bm ++ rest) = .ok (bitmapBit bm 1, indicated bm, bm.length) := by
  have ⟨hmin, _⟩ := announcedSize_bounds bm
  have hfirst : bitmapBit (bm ++ rest) 1 = bitmapBit bm 1 := bitmapBit_append bm rest le_rfl (by omega)
  have hsize : announcedSize (bm ++ rest) = bm.length := (announcedSize_congr hfirst).trans hlen.symm
  rw [bmpParse_of_le (by rw [hsize, List.length_append]; omega), hfirst, hsize, List.take_left]

/-! ## The walk over the fields (R194) -/

/-- `bytes` at the start of a payload are field `i` with the value `v`. -/
def FieldReads (c : Config) (i : Nat) (bytes : Bytes) (v : FieldValue) : Prop :=
  ∃ d, lookupDef c.defs i = some d ∧ ∀ more, decodeField c i d (bytes ++ more) = .ok (v, bytes.length)

/-- A slot file with the value of each index in its slot. -/
def slotsOf (value : Nat → FieldValue) : Slots := Vector.ofFn fun k => some (value (k.val + 1))

theorem get_slotsOf (value : Nat → FieldValue) {i : Nat} (h : 2 ≤ i ∧ i ≤ 128) : (slotsOf value).get i = some (value i) := by
  have hi : i - 1 + 1 = i := by omega
  simp [Slots.get, h, slotsOf, hi]

/-- The walk over fields that decode fills their slots and goes on behind their bytes. -/
theorem decodePayloads_append {c : Config} {payload : Nat → Bytes} {value : Nat → FieldValue} {below : List Nat}
    (h : ∀ i ∈ below, FieldReads c i (payload i) (value i)) (hbounds : ∀ i ∈ below, 2 ≤ i ∧ i ≤ 128) (above : List Nat)
    (rest before : Bytes) (g : Slots) :
    decodePayloads c (before ++ (below.flatMap payload ++ rest)) (below ++ above) g before.length =
      decodePayloads c (before ++ (below.flatMap payload ++ rest)) above (copySlots (slotsOf value) below g)
        (before.length + (below.flatMap payload).length) := by
  induction below generalizing before g with
  | nil => rfl
  | cons i below ih =>
    obtain ⟨⟨d, hd, hfirst⟩, hothers⟩ := List.forall_mem_cons.mp h
    obtain ⟨hi, hrest⟩ := List.forall_mem_cons.mp hbounds
    have hwalk := ih hothers hrest (before ++ payload i) (g.put i (some (value i)))
    have hcopy : copySlots (slotsOf value) (i :: below) g = copySlots (slotsOf value) below (g.put i (some (value i))) := by
      rw [copySlots, List.foldl_cons, get_slotsOf value hi, copySlots]
    simp only [List.append_assoc, List.length_append] at hwalk
    simp only [List.flatMap_cons, List.append_assoc, List.length_append, List.cons_append, decodePayloads,
      tableEntry_of_lookup hd, List.drop_left, hfirst, ok_bind, hwalk, hcopy, Nat.add_assoc]

/-! ## The whole frame (R194, R195) -/

theorem commandBody_msgDec (s : State) :
    commandBody .msgDec (clearResults s) = msgDecode s.cfg (input s) >>= fun r =>
      .ok { clearResults s with msg := r.1, consumed := BitVec.ofNat 32 r.2 } := rfl

/-- A frame whose fixed part reads: its strings and bitmap, and the walk over the fields it indicates. -/
theorem ReceivedFrame.msgDecode_eq {s : State} {tp hd mt bm body tail : Bytes} (hc : configWf s.cfg = true)
    (h : ReceivedFrame s tp hd mt bm body tail) :
    ∃ t o m, DigitsRead tp s.cfg.tpduDigits t ∧ HeaderRead s.cfg hd o ∧ DigitsRead mt 4 m ∧
      msgDecode s.cfg (input s) =
        decodePayloads s.cfg ((tp ++ hd ++ mt ++ bm) ++ body) (indicated bm) Message.empty.slots (tp ++ hd ++ mt ++ bm).length
          >>= fun r => .ok ({ tpdu := t, hdr := o, mti := m, sec := bitmapBit bm 1, slots := r.1 },
            (if s.cfg.lenPfxEn then 2 else 0) + r.2) := by
  obtain ⟨htpdu, hheader, hmti⟩ := configWf_widths hc
  have hstrip := stripPrefix_of_counted h.counted h.untailed
  rw [← h.layout] at hstrip
  obtain ⟨t, ht, htread⟩ := decFixedDigits_append_ok htpdu h.tpLength h.tpDigits h.tpCap
  obtain ⟨o, ho, horead⟩ := decHeader_append_ok hheader h.hdLength h.hdDigits h.hdCap
  have hmt : DecimalNibbles mt mt.length := h.mtLength.symm ▸ h.mtDigits
  obtain ⟨m, hm, hmread⟩ := decFixedDigits_append_ok (width := mtiDigits) rfl h.mtLength hmt hmti
  have hbm := bmpParse_append h.bmLength body
  refine ⟨t, o, m, htread, horead, hmread, ?_⟩
  have hhdSize : decHeaderSize s.cfg = hd.length := h.hdLength.symm
  have hmtSize : mtiDigits / 2 = mt.length := h.mtLength.symm
  -- The cursor stands behind each part in turn.
  simp only [List.append_assoc] at hstrip
  simp only [msgDecode, hstrip, ht, ← h.tpLength, hhdSize, hmtSize, ← List.drop_drop, List.drop_left, ho, hm, hbm,
    List.append_assoc, List.length_append, Nat.add_assoc, ok_bind, pure_ok]

/-- MSG_DEC of a frame that decodes replaces the message register file. -/
theorem exec_msgDec_ok {s : State} {m : Message} {n : Nat} (h : msgDecode s.cfg (input s) = .ok (m, n)) (hn : n ≤ s.ilen.toNat) :
    ∃ t, exec .msgDec s = .next t ∧ Succeeded t ∧ t.msg = m ∧ t.consumed.toNat = n := by
  have hbody := commandBody_msgDec s
  rw [h, ok_bind] at hbody
  rw [exec_eq_runCommand, runCommand_ok hbody]
  exact ⟨_, rfl, ⟨rfl, rfl, rfl, ⟨rfl, rfl, rfl, rfl, rfl⟩⟩, rfl, Nat.mod_eq_of_lt (hn.trans_lt s.ilen.isLt)⟩

/-- Any error of MSG_DEC empties the message register file, for it raises no IllegalCommand (R256). -/
theorem failsCleared_of_msgDecode {s : State} {e : CmdError} (h : msgDecode s.cfg (input s) = .error e)
    (hfield : e.field < 256) (hdeclared : e.declared < 65536) (hactual : e.actual < 2 ^ 32) : FailsCleared .msgDec e s := by
  have hbody := commandBody_msgDec s
  rw [h, error_bind] at hbody
  obtain ⟨t, ht, hfail⟩ := exec_failed_of_error hbody hfield hdeclared hactual
  have herr : t.err ≠ 0 := hfail.err ▸ errNumber_ne_zero _
  obtain ⟨-, -, -, -, -, -, -, -, hcleared, -⟩ := errorInvalidatesDestination _ s t ht herr
  have hlegal : t.err ≠ errNumber .illegalCommand := exec_err_ne ht (by decide)
  exact ⟨t, ht, hfail, (hcleared hlegal).2.2 rfl⟩

/-- Settles O38. -/
theorem msgDecReadsFrame : Obligations.MsgDecReadsFrame := by
  intro s tp hd mt bm surplus tail payload value hc hframe hfields
  obtain ⟨t, o, m, ⟨htlen, ht⟩, ⟨hoff, hon⟩, ⟨hmlen, hm⟩, hdecode⟩ := hframe.msgDecode_eq hc
  have hbounds := indicated_bounds (hframe.bmLength.trans_le (announcedSize_bounds bm).2)
  have hwalk := decodePayloads_append hfields hbounds [] surplus (tp ++ hd ++ mt ++ bm) Message.empty.slots
  rw [List.append_nil, decodePayloads] at hwalk
  rw [hwalk, ok_bind] at hdecode
  have hroom : (if s.cfg.lenPfxEn then 2 else 0) + ((tp ++ hd ++ mt ++ bm).length + ((indicated bm).flatMap payload).length) ≤
      s.ilen.toNat := by
    have hlength := congrArg List.length hframe.layout
    simp only [List.length_append, input_length, wirePrefix_length] at hlength ⊢
    omega
  obtain ⟨u, hu, hsucc, hmsg, hconsumed⟩ := exec_msgDec_ok hdecode hroom
  rw [← Nat.add_assoc] at hconsumed
  refine ⟨u, hu, hsucc, ?_⟩
  simp only [fieldSlot, hmsg]
  refine ⟨htlen, ht, hoff, hon, hmlen, hm, trivial, fun i => ?_, hconsumed⟩
  rw [get_copySlots _ hbounds, List.contains_eq_mem]
  by_cases hi : i ∈ indicated bm
  · simp [hi, get_slotsOf value (hbounds i hi)]
  · simp [hi]

theorem indicated_pairwise_lt (bm : Bytes) : (indicated bm).Pairwise (· < ·) := List.Pairwise.filter _ List.pairwise_lt_range'

/-- Settles O39: the fields below `i` decode, so the walk reaches `i` with `rest` before it. -/
theorem msgDecUndefinedFieldClears : Obligations.MsgDecUndefinedFieldClears := by
  intro s tp hd mt bm rest tail i payload hc hframe hmem hlower
  obtain ⟨t, o, m, -, -, -, hdecode⟩ := hframe.msgDecode_eq hc
  have hbounds := indicated_bounds (hframe.bmLength.trans_le (announcedSize_bounds bm).2)
  obtain ⟨above, habove⟩ := exists_append_of_mem_of_pairwise_lt (indicated_pairwise_lt bm) hmem
  have hreads : ∀ j ∈ (indicated bm).filter (· < i), ∃ v, FieldReads s.cfg j (payload j) v := fun j hj => by
    obtain ⟨hj, hlt⟩ := List.mem_filter.mp hj
    obtain ⟨d, v, hd, hv⟩ := hlower j hj (of_decide_eq_true hlt)
    exact ⟨v, d, hd, hv⟩
  have : Nonempty FieldValue := ⟨.scalar []⟩
  choose! value hvalue using hreads
  have hwalk := decodePayloads_append hvalue (fun j hj => hbounds j (List.mem_of_mem_filter hj)) (i :: above) rest
    (tp ++ hd ++ mt ++ bm) Message.empty.slots
  rw [← habove, decodePayloads, ← List.drop_drop, List.drop_left, List.drop_left] at hwalk
  rw [hwalk] at hdecode
  have hindex := (hbounds i hmem).2
  have decodes {d : FieldDef} {e : CmdError} (hd : lookupDef s.cfg.defs i = some d)
      (he : decodeField s.cfg i d rest = .error e) : FailsCleared .msgDec e s ∧ e.field = i := by
    obtain ⟨hfield, hdeclared, hactual⟩ := (decodeField_errorsFit ..).bounds e he
    rw [tableEntry_of_lookup hd, ok_bind, he, error_bind, error_bind] at hdecode
    exact ⟨failsCleared_of_msgDecode hdecode (by omega) hdeclared hactual, hfield⟩
  refine ⟨fun hd => ?_, fun d enc hd henc hshort => ?_, fun d e => decodes⟩
  · rw [tableEntry, hd] at hdecode
    exact failsCleared_of_msgDecode hdecode (Nat.lt_succ_of_le (hindex.trans (by decide))) (Nat.zero_lt_succ _)
      (Nat.two_pow_pos 32)
  · rcases hshort with hheader | ⟨hdec, hbody⟩
    · exact (decodes hd (decodeField_of_shortHeader henc hheader)).1
    · exact (decodes hd (decodeField_of_shortBody henc hdec rfl hbody)).1

/-- Settles O40: the steps of `msg_decode` up to the bitmap, each with the ones before it done. -/
theorem msgDecRefusesShortFrames : Obligations.MsgDecRefusesShortFrames := by
  intro s raw hc
  obtain ⟨htpdu, hheader, -⟩ := configWf_widths hc
  have fails {e : CmdError} (h : msgDecode s.cfg (input s) = .error e) (hfield : e.field = 0) (hdeclared : e.declared = 0)
      (hactual : e.actual = 0) : FailsCleared .msgDec e s :=
    failsCleared_of_msgDecode h (hfield ▸ Nat.zero_lt_succ _) (hdeclared ▸ Nat.zero_lt_succ _) (hactual ▸ Nat.two_pow_pos 32)
  have digits {bs : Bytes} {width : Nat} {e : CmdError} (h : DigitsFail s.cfg bs width e)
      (he : msgDecode s.cfg (input s) = .error e) : FailsCleared .msgDec e s := by
    cases h with
    | short => exact fails he rfl rfl rfl
    | digit => exact fails he rfl rfl rfl
    | capacity => exact fails he rfl rfl rfl
  refine ⟨fun hen hshort => fails ?_ rfl rfl rfl, fun hon hoff => ?_⟩
  · have hlt : (input s).length < 2 + announcedLength (input s) := by
      rw [input_length]
      exact hshort.elim (fun h => h.trans_le (Nat.le_add_right ..)) id
    rw [msgDecode, stripPrefix_of_enabled hen, if_pos hlt, error_bind]
    rfl
  have hstrip : ∃ p, stripPrefix s.cfg (input s) = .ok (raw, p) := by
    by_cases hen : s.cfg.lenPfxEn = true
    · obtain ⟨hlong, rfl⟩ := hon hen
      rw [← input_length s] at hlong
      exact ⟨2, (stripPrefix_of_enabled hen _).trans (if_neg (Nat.not_lt.mpr hlong))⟩
    · exact ⟨0, (if_neg hen).trans (by rw [hoff (Bool.eq_false_iff.mpr hen)])⟩
  obtain ⟨p, hp⟩ := hstrip
  refine ⟨fun e he => digits he ?_, fun htpduReady => ?_⟩
  · simp only [msgDecode, hp, decFixedDigits_of_fail htpdu he, ok_bind, error_bind]
  obtain ⟨t, ht, -⟩ := decFixedDigits_of_ready htpdu htpduReady
  refine ⟨fun hen e he => digits he ?_, fun hheaderReady => ?_⟩
  · simp only [msgDecode, hp, ht, decHeader, hen, if_true, decFixedDigits_of_fail hheader he, ok_bind, error_bind]
  have hheaderRead : ∃ o, decHeader s.cfg (raw.drop (s.cfg.tpduDigits / 2)) = .ok o := by
    by_cases hen : s.cfg.headerEn = true
    · obtain ⟨h, hh, -⟩ := decFixedDigits_of_ready hheader (hheaderReady hen)
      exact ⟨some h, by rw [decHeader, if_pos hen, hh, ok_bind, pure_ok]⟩
    · exact ⟨none, if_neg hen⟩
  obtain ⟨o, ho⟩ := hheaderRead
  refine ⟨fun e he => digits he ?_, fun hmtiReady hshort => fails ?_ rfl rfl rfl⟩
  · have hmti := decFixedDigits_of_fail (width := mtiDigits) rfl he
    simp only [msgDecode, hp, ht, ho, decHeaderSize, hmti, ok_bind, error_bind]
  · obtain ⟨m, hm, -⟩ := decFixedDigits_of_ready (width := 4) rfl hmtiReady
    have hbitmap := bmpParse_of_short ((length_lt_announcedSize _).mpr hshort)
    simp only [msgDecode, hp, ht, ho, decHeaderSize, hm, mtiDigits, Nat.reduceDiv, hbitmap, ok_bind, error_bind]
    rfl

end Sys2Proof.Machine
end

section
/-! PROOFS. The commands straight after reset (spec/70_reset_and_hazards.md rule R281): their inputs are empty, so each case is
what the command does in any state with such an input, and the obligation O49. -/

namespace Sys2Proof.Machine

/-- A reset state has no valid input. -/
theorem input_resetWith (c : Config) : input (State.resetWith c) = [] := List.eq_nil_of_length_eq_zero (input_length _)

theorem ilen_resetWith (c : Config) : (State.resetWith c).ilen.toNat = 0 := rfl

theorem klen_resetWith (c : Config) : (State.resetWith c).klen ≠ 8 := by
  have hne : (0 : BitVec 8) ≠ 8 := by decide
  exact hne

/-- The fixed TPDU of R4 has at least two digits. -/
theorem configWf_tpduDigits {c : Config} (h : configWf c = true) : 2 ≤ c.tpduDigits := by
  simp only [configWf, evenWidth, Bool.and_eq_true, decide_eq_true_eq] at h
  omega

theorem hdrSize_pos {kind : FieldKind} (h : kind ≠ .fixed) : 0 < hdrSize kind := by
  cases kind with
  | fixed => exact absurd rfl h
  | var1 | var2 | var2Wide => decide

theorem bodySize_pos {len : Nat} (h : 0 < len) (enc : ByteEncoding) : 0 < bodySize len enc := by
  cases enc with
  | ascii | binary => exact h
  | bcd | rbcd =>
    show 0 < (len + 1) / 2
    omega

theorem kindNamed_of_operand {x : BitVec 8} (hone : 1 ≤ x.toNat) (hthree : x.toNat ≤ 3) : ∃ kind, KindNamed x kind := by
  have hcases : x.toNat = 1 ∨ x.toNat = 2 ∨ x.toNat = 3 := by omega
  rcases hcases with h | h | h
  · exact ⟨.var1, nofun, h⟩
  · exact ⟨.var2, nofun, h⟩
  · exact ⟨.var2Wide, nofun, h⟩

section

variable {c : Config}

theorem exec_msgEnc_resetWith (hc : configWf c = true) :
    ∃ t, exec .msgEnc (State.resetWith c) = .next t ∧ Failed { code := .invalidTpdu } t :=
  (msgEncHeaderErrorsInOrder _).1 fun h => by
    have hlen : 0 = c.tpduDigits := h.1
    have := configWf_tpduDigits hc
    omega

theorem exec_msgDec_resetWith (hc : configWf c = true) :
    ∃ t, exec .msgDec (State.resetWith c) = .next t ∧ Failed { code := .truncatedMessage } t := by
  obtain ⟨hprefix, hrest⟩ := msgDecRefusesShortFrames (State.resetWith c) [] hc
  have hfails : FailsCleared .msgDec { code := .truncatedMessage } (State.resetWith c) := by
    by_cases hen : c.lenPfxEn = true
    · exact hprefix hen (.inl ((ilen_resetWith c).trans_lt Nat.two_pos))
    · refine (hrest (fun h => absurd h hen) fun _ => (input_resetWith c).symm).1 _ (.short ?_)
      have := configWf_tpduDigits hc
      exact Nat.div_pos this Nat.two_pos
  obtain ⟨t, ht, hfail, -⟩ := hfails
  exact ⟨t, ht, hfail⟩

theorem exec_bmpParse_resetWith (c : Config) :
    ∃ t, exec .bmpParse (State.resetWith c) = .next t ∧ Failed { code := .truncatedMessage } t := by
  obtain ⟨t, ht, hfail, -⟩ := (bmpParseReadsPresence (State.resetWith c)).2 (.inl ((ilen_resetWith c).trans_lt (by decide)))
  exact ⟨t, ht, hfail⟩

theorem UnpacksInput.truncated_resetWith {i : Instr} {pad : LbcdPad} {n : Nat} (hi : UnpacksInput i pad n (State.resetWith c))
    (hn : 0 < n) : ∃ t, exec i (State.resetWith c) = .next t ∧ Failed { code := .truncatedMessage } t :=
  hi.truncated (Nat.div_pos (Nat.succ_le_succ hn) Nat.two_pos)

theorem UnpacksInput.succeeds_resetWith {i : Instr} {pad : LbcdPad} (hi : UnpacksInput i pad 0 (State.resetWith c))
    (hc : configWf c = true) : ∃ t, exec i (State.resetWith c) = .next t ∧ Succeeded t ∧ t.olen = 0 := by
  obtain ⟨t, ht, hsucc, holen, -⟩ := hi.succeeds hc (Nat.zero_le _) (Nat.zero_le _) fun j hj => absurd hj (Nat.not_lt_zero j)
  exact ⟨t, ht, hsucc, BitVec.eq_of_toNat_eq holen⟩

theorem PacksInput.succeeds_resetWith {i : Instr} {pad : LbcdPad} (hi : PacksInput i pad (State.resetWith c))
    (hc : configWf c = true) : ∃ t, exec i (State.resetWith c) = .next t ∧ Succeeded t ∧ t.olen = 0 := by
  obtain ⟨t, ht, hsucc, -, holen, -⟩ := hi.succeeds hc (Nat.zero_le _) (by rw [input_resetWith]; rfl)
  exact ⟨t, ht, hsucc, BitVec.eq_of_toNat_eq (holen.trans (congrArg ceil2 (ilen_resetWith c)))⟩

theorem bmpBuild_presIndices_zero : bmpBuild (presIndices 0) = List.replicate 8 0 := by
  have hindices : presIndices 0 = [] := List.eq_nil_iff_forall_not_mem.mpr fun i hi => by
    obtain ⟨-, -, hbit⟩ := mem_presIndices.mp hi
    rw [presBit_zero] at hbit
    cases hbit
  rw [hindices]
  rfl

/-- With no index in PRES, BMP_BUILD gives eight zero bytes. -/
theorem exec_bmpBuild_of_pres_zero {s : State} (hc : configWf s.cfg = true) (hpres : s.pres = 0) :
    ∃ t, exec .bmpBuild s = .next t ∧ Succeeded t ∧ output t = List.replicate 8 0 := by
  have hbytes : bmpBuild (presIndices s.pres) = List.replicate 8 0 := by rw [hpres, bmpBuild_presIndices_zero]
  have hcap := (configWf_bufCap hc).2
  have hfits : (bmpBuild (presIndices s.pres)).length ≤ s.cfg.bufCap := by
    rw [hbytes, List.length_replicate]
    omega
  obtain ⟨t, ht, hsucc, hout, -⟩ := exec_of_emit (i := .bmpBuild) hc hfits rfl
  exact ⟨t, ht, hsucc, hout.trans hbytes⟩

/-- A field that takes at least a byte is cut short by the empty input. -/
theorem exec_fieldDec_resetWith {x : BitVec 8} {d : FieldDef} {enc : ByteEncoding} (hc : configWf c = true)
    (hd : lookupDef c.defs x.toNat = some d) (henc : encodingOf? (defEnc d) = some enc)
    (hsize : defKind d ≠ .fixed ∨ 0 < defLen d) :
    ∃ t, exec (.fieldDec x) (State.resetWith c) = .next t ∧ Failed { code := .truncatedMessage, field := x.toNat } t := by
  obtain ⟨htwo, h128, -, -⟩ := lookupDef_wf (configWf_defs hc) hd
  have hfield : decodeField c x.toNat d (input (State.resetWith c)) = .error (truncated x.toNat) := by
    rw [input_resetWith]
    by_cases hkind : defKind d = .fixed
    · have hhdr : hdrSize (defKind d) = 0 := congrArg hdrSize hkind
      refine decodeField_of_shortBody henc (fun j hj => ?_) rfl ?_
      · rw [hhdr] at hj
        exact absurd hj (Nat.not_lt_zero j)
      · rw [if_pos hkind]
        exact Nat.lt_add_left _ (bodySize_pos (hsize.resolve_left (not_not_intro hkind)) enc)
    · exact decodeField_of_shortHeader henc (hdrSize_pos hkind)
  obtain ⟨t, ht, hfail, -⟩ := fieldDecFails (s := State.resetWith c) htwo h128 hd hfield
  exact ⟨t, ht, hfail⟩

end

/-- Settles O49: every command meets an empty input, an empty key, no slot and no index in PRES. -/
theorem commandsAfterReset : Obligations.CommandsAfterReset := by
  intro c n x hc hn
  have hpos : 0 < n.toNat := Nat.pos_of_ne_zero fun h => hn (BitVec.eq_of_toNat_eq h)
  refine ⟨exec_msgEnc_resetWith hc, ?_, fun hone hthree => ?_, fun hmac => (macComputesHexOfCipher _).2.2 hmac (klen_resetWith c),
    exec_bmpBuild_of_pres_zero hc rfl, ?_, fun kind len hk hlen => ?_, fun htwo h128 => ?_,
    fun d enc hd henc hsize => exec_fieldDec_resetWith hc hd henc hsize⟩
  · simp only [List.forall_mem_cons]
    exact ⟨exec_msgDec_resetWith hc, exec_bmpParse_resetWith c, (unpacksInput_unpackL n _).truncated_resetWith hpos,
      (unpacksInput_unpackR n _).truncated_resetWith hpos, nofun⟩
  · obtain ⟨kind, hk⟩ := kindNamed_of_operand hone hthree
    exact ((decLenReadsDigits (State.resetWith c) x).2 kind hk).2.1 (hdrSize_pos hk.1)
  · simp only [List.forall_mem_cons]
    exact ⟨(packsInput_packLbcd _).succeeds_resetWith hc, (packsInput_packRbcd _).succeeds_resetWith hc,
      (unpacksInput_unpackL 0 _).succeeds_resetWith hc, (unpacksInput_unpackR 0 _).succeeds_resetWith hc, nofun⟩
  · obtain ⟨t, ht, hsucc, holen, -⟩ := exec_encLen_ok hk (s := State.resetWith c) hc hlen
    exact ⟨t, ht, hsucc, holen⟩
  · exact (fieldEncRefusesByTable (State.resetWith c) x htwo h128).1 (Slots.get_empty _)

end Sys2Proof.Machine
end
